-- ==== Sys2Proof/Word.lean ====
section
/-! DEFINITION. The widths of the block's words (00_scope.md R5 to R7). -/

namespace Sys2Proof

/-- One byte of the ENC space, a control byte (20_memory.md R31). -/
abbrev Byte := BitVec 8

/-- A value, a word of the VAL space, `N`, `PREV`, a lane (`XLEN` = 32, 00_scope.md R5). -/
abbrev Word := BitVec 32

/-- `ENC_LEN`, `RESULT`, `FINFO`: `CW` = 35 bits (00_scope.md R6). -/
abbrev Cw := BitVec 35

/-- A command code, what register `OP` takes (30_encoding.md R59). -/
abbrev OpCode := BitVec 4

/-- A 2-bit width code (30_encoding.md R52). -/
abbrev WidthCode := BitVec 2

end Sys2Proof
end

