-- ==== Sys2Proof/Config.lean ====
section
/-! DEFINITION. What an implementation fixes (the open parameters of 00_scope.md R6) and the free values
(93_implementation_defined.md U3, U4, U8). -/

namespace Sys2Proof

/-- The open parameters that some rule reads. `State.cfg` holds one of these and no step changes it, so
a statement about every state holds for every setting (DESIGN CHOICE, safe, log entry 4). -/
structure Config where
  /-- `N_MAX`, the largest admitted `N` (92_eei_decisions.md D7). -/
  nMax : Nat
  /-- `HAS_VEC`, whether the 4-lane decode datapath is built (D19). -/
  hasVec : Bool
  /-- `STRICT_CONTRACT`, whether an encode checks its capacity at issue (D14). -/
  strictContract : Bool
  deriving DecidableEq, Repr

/-- The setting 00_scope.md R6 and 95_test_vectors.md section 3 take where nothing else is said. -/
def Config.standard : Config :=
  { nMax := 2 ^ 32 - 1, hasVec := true, strictContract := true }

/-- `N_MAX` lies between the document's own test size and what a 32-bit `N` can hold (00_scope.md R6). -/
abbrev Config.wf (c : Config) : Prop :=
  1000000 ≤ c.nMax ∧ c.nMax ≤ 2 ^ 32 - 1

/-- `RESULT` after a fault, a free value (60_exceptions.md R156, U4; safe, log entry 7). -/
opaque Config.freeResult : Nat → Cw

/-- `PREV` after a fault, a free value (60_exceptions.md R156, U4; safe, log entry 7). -/
opaque Config.freePrev : Nat → Word

/-- An ENC cell of the destination after `EncBounds`: draw number, then offset
(60_exceptions.md R157, U3; safe, log entry 7). -/
opaque Config.freeByte : Nat → Nat → Byte

/-- A VAL cell of the destination after `EncBounds`: draw number, then index
(60_exceptions.md R157, U3; safe, log entry 7). -/
opaque Config.freeWord : Nat → Nat → Word

/-- What a read of the write-only register `OP` returns (10_state.md R11, U8; safe, log entry 7). -/
opaque Config.freeOpRead : Nat → Cw

end Sys2Proof
end

