-- ==== Sys2Proof/Syntax.lean ====
section
/-! DEFINITION. The nine commands of the block (00_scope.md R2, 30_encoding.md R60): one constructor per
row of the opcode table. The command word has no operand fields; the operands are registers and spaces. -/

namespace Sys2Proof

/-- A command of the block. -/
inductive Instr where
  /-- `SVB.ENC`, code 0: encode (42_scalar_operations.md R103). -/
  | enc
  /-- `SVB.DEC`, code 1: decode (R104). -/
  | dec
  /-- `SVB.ENCD`, code 2: encode with delta (R105). -/
  | encd
  /-- `SVB.DECD`, code 3: decode with delta (R106). -/
  | decd
  /-- `SVB.ENCZ`, code 4: encode with zigzag (R107). -/
  | encz
  /-- `SVB.DECZ`, code 5: decode with zigzag (R108). -/
  | decz
  /-- `SVB.ENCDZ`, code 6: encode with delta, then zigzag (R109). -/
  | encdz
  /-- `SVB.DECDZ`, code 7: decode with zigzag, then delta (R110). -/
  | decdz
  /-- `SVB.SIZE`, code 8: the sizing command (44_dispatch_sizing.md R144). -/
  | size
  deriving DecidableEq, Repr

/-- The encode command with the given options (30_encoding.md R59: `DIR` = 0). -/
def Instr.encoder (zig delta : Bool) : Instr :=
  match zig, delta with
  | false, false => .enc
  | false, true => .encd
  | true, false => .encz
  | true, true => .encdz

/-- The decode command with the given options (30_encoding.md R59: `DIR` = 1). -/
def Instr.decoder (zig delta : Bool) : Instr :=
  match zig, delta with
  | false, false => .dec
  | false, true => .decd
  | true, false => .decz
  | true, true => .decdz

end Sys2Proof
end

