-- ==== Sys2Proof/Machine/State.lean ====
section
/-! DEFINITION. The state of the block: the registers of 10_state.md R11, the hidden state of R22, the
two spaces of 20_memory.md R30, the inputs of R18 and 00_scope.md R6, and the model's own fields. -/

namespace Sys2Proof.Machine

/-- The host-visible registers (10_state.md R11). -/
inductive Reg where
  | op
  | n
  | prev
  | encLen
  | status
  | result
  | finfo
  deriving DecidableEq, Repr

/-- The register numbers of 10_state.md R11. -/
def Reg.number : Reg → Nat
  | .op => 0
  | .n => 1
  | .prev => 2
  | .encLen => 3
  | .status => 4
  | .result => 5
  | .finfo => 6

/-- The values of `STATUS.STATE` (10_state.md R19). -/
inductive RunState where
  | idle
  | busy
  | done
  | fault
  deriving DecidableEq, Repr

/-- The faults the block itself reports in `STATUS.CAUSE` (60_exceptions.md R150). They are states the
block goes on in, not stops of the model. -/
inductive Cause where
  /-- `CAUSE` = 1 (60_exceptions.md R152). -/
  | illegalCommand
  /-- `CAUSE` = 2 (60_exceptions.md R153). -/
  | encBounds
  /-- `CAUSE` = 3 (60_exceptions.md R159). -/
  | contractCheck
  deriving DecidableEq, Repr

/-- The four 32-bit lanes of the vector engine (10_state.md R22). -/
structure Lanes where
  l0 : Word
  l1 : Word
  l2 : Word
  l3 : Word
  deriving DecidableEq, Repr

/-- The state inside an operation (10_state.md R16, R22). Counters are naturals, as in the pseudocode
(00_scope.md R8, 92_eei_decisions.md D7; log entry 8). After a command it keeps what the engine left;
no rule reads it before the next command has set it (log entry 2). -/
structure Hidden where
  i : Nat
  ccur : Nat
  dcur : Nat
  acc : Byte
  cb : Byte
  carry : Word
  zig : Bool
  delta : Bool
  dir : Bool
  vec : Bool
  window : BitVec 128
  lanes : Lanes
  deriving DecidableEq, Repr

/-- The operand registers the host has written since reset (92_eei_decisions.md D30). The MODEL's own
field: no command reads it, Safety.lean does (log entry 1). -/
structure Written where
  n : Bool
  prev : Bool
  encLen : Bool
  deriving DecidableEq, Repr

/-- One move of the host: a line of a host program (30_encoding.md R62), a register read
(10_state.md R11) or a reset (70_reset_and_hazards.md R170). -/
inductive HostMove where
  /-- Write a register; a write of `OP` issues a command. -/
  | write (r : Reg) (v : Cw)
  /-- Read a register. -/
  | read (r : Reg)
  /-- `ENC <- [b0, b1, ...]`: bytes to offsets 0, 1, ... -/
  | fillEnc (bytes : List Byte)
  /-- `VAL <- [v0, v1, ...]`: words to indexes 0, 1, ... -/
  | fillVal (words : List Word)
  /-- `VEC <0|1>`: drive the input `VEC_AVAIL`. -/
  | driveVec (b : Bool)
  /-- Assert the reset input. -/
  | reset
  deriving DecidableEq, Repr

/-- The whole state. -/
structure State where
  /-- Register `N` (10_state.md R13). -/
  n : Word
  /-- Register `PREV` (10_state.md R14). -/
  prev : Word
  /-- Register `ENC_LEN` (10_state.md R15). -/
  encLen : Cw
  /-- Register `STATUS` (10_state.md R19). -/
  status : Byte
  /-- Register `RESULT` (10_state.md R21). -/
  result : Cw
  /-- Register `FINFO` (60_exceptions.md R150). -/
  finfo : Cw
  /-- The hidden state (10_state.md R22). -/
  hidden : Hidden
  /-- The ENC space (20_memory.md R31): canonical cells, an unlisted offset reads 0 (log entry 3). -/
  enc : List Host.Cell
  /-- The VAL space (20_memory.md R32): canonical cells, an unlisted index reads 0 (log entry 3). -/
  val : List (Nat × Word)
  /-- The input `VEC_AVAIL` (10_state.md R18; log entry 5). -/
  vecAvail : Bool
  /-- The host moves still to come (the MODEL's own field, log entry 6). -/
  host : List HostMove
  /-- What the last register read returned (the MODEL's own field, log entry 6). -/
  readData : Cw
  /-- See `Written` (the MODEL's own field, log entry 1). -/
  written : Written
  /-- How many times free values were drawn (the MODEL's own field, log entry 7). -/
  draws : Nat
  /-- The parameters (00_scope.md R6; log entry 4). -/
  cfg : Config
  deriving DecidableEq, Repr

/-- Why the model stops. No command of the block does: its own three faults are next states
(60_exceptions.md R156). -/
inductive Fault where
  /-- A host fill of the ENC space runs past offset 2^35 - 2, the last that any `ENC_LEN` hands over
  (20_memory.md R31, 00_scope.md R6). Raised by `fillEnc` alone. Safe: the model stops. -/
  | encFillOutsideSpace
  /-- A host fill of the VAL space runs past index 2^32 - 2, the last that any `N` hands over
  (20_memory.md R32). Raised by `fillVal` alone. Safe: the model stops. -/
  | valFillOutsideSpace
  deriving DecidableEq, Repr

/-- Why the model has no meaning for a command. -/
inductive Refusal where
  /-- An arm of `exec` that has no meaning yet; no arm raises it. Safe: the model stops. -/
  | notModelled (mnemonic : String)
  deriving DecidableEq, Repr

/-- How a piece of an operation ends: with a result, or with a `raise` (60_exceptions.md R156). -/
inductive Run (α : Type) where
  /-- It ended normally, with a result and the state it leaves. -/
  | done (a : α) (s : State)
  /-- `raise cause(info)` in the state `s`. -/
  | raised (cause : Cause) (info : Nat) (s : State)
  deriving DecidableEq, Repr

/-- Hidden state at reset: R24 gives none, so zeros (DESIGN CHOICE, safe, log entry 2). -/
def Hidden.reset : Hidden :=
  { i := 0, ccur := 0, dcur := 0, acc := 0, cb := 0, carry := 0,
    zig := false, delta := false, dir := false, vec := false,
    window := 0, lanes := { l0 := 0, l1 := 0, l2 := 0, l3 := 0 } }

/-- The block at power on with given parameters. `STATUS` is the spec's (10_state.md R24); the other
registers' zeros are DESIGN CHOICE, unsafe, log entry 1; the empty spaces are log entry 3. -/
def State.resetWith (c : Config) : State :=
  { n := 0, prev := 0, encLen := 0, status := 0x00, result := 0, finfo := 0,
    hidden := Hidden.reset, enc := [], val := [], vecAvail := false, host := [],
    readData := 0, written := { n := false, prev := false, encLen := false }, draws := 0,
    cfg := c }

/-- The machine right after reset, with the standard parameters (10_state.md R24). -/
def State.reset : State := State.resetWith Config.standard

end Sys2Proof.Machine
end

