-- ==== Sys2Proof/Machine/Codec.lean ====
section
/-! DEFINITION. The pure primitives: the width classifier (40_width_control_data.md R70), the codes of a
control byte (30_encoding.md R51), the zigzag map (41_delta_zigzag.md R94, R95) and the sizes
(00_scope.md R8, 44_dispatch_sizing.md R143). -/

namespace Sys2Proof.Machine

/-- `ceil4(n)`, the number of control bytes (00_scope.md R8). -/
def ceil4 (n : Nat) : Nat := (n + 3) / 4

/-- `MaxEncodedSize(n)` (44_dispatch_sizing.md R143). -/
def maxEncodedSize (n : Nat) : Nat := ceil4 n + 4 * n

/-- `WIDTH(v)` (40_width_control_data.md R70). -/
def width (v : Word) : Nat :=
  if v.toNat < 2 ^ 8 then 1
  else if v.toNat < 2 ^ 16 then 2
  else if v.toNat < 2 ^ 24 then 3
  else 4

/-- `CODE(v)` = `WIDTH(v) - 1` (40_width_control_data.md R70). -/
def code (v : Word) : WidthCode := BitVec.ofNat 2 (width v - 1)

/-- `ZigEnc(s)` (41_delta_zigzag.md R94); the first shift is arithmetic. -/
def zigEnc (s : Word) : Word := s.sshiftRight 31 ^^^ (s <<< 1)

/-- `ZigDec(v)` (41_delta_zigzag.md R95); the shift is logical. -/
def zigDec (v : Word) : Word := (v >>> 1) ^^^ -(v &&& 1#32)

/-- The code of slot `j` of a control byte, `(cb >>u 2j) & 3` (30_encoding.md R51, R55). -/
def slotCode (cb : Byte) (j : Nat) : WidthCode := (cb >>> (2 * j)).setWidth 2

end Sys2Proof.Machine
end

