-- ==== Sys2Proof/WellFormed.lean ====
section
/-! DEFINITION. Well-formedness of commands and command words (30_encoding.md R59, R61). -/

namespace Sys2Proof

/-- Every command is well-formed: the command word has no operand field that could be out of range
(30_encoding.md R59, "The command has no immediates"). -/
def Instr.wf : Instr → Bool
  | .enc => true
  | .dec => true
  | .encd => true
  | .decd => true
  | .encz => true
  | .decz => true
  | .encdz => true
  | .decdz => true
  | .size => true

/-- A command word names an operation when `SZ` = 1 comes with `ZIG` = `DELTA` = `DIR` = 0
(30_encoding.md R59); the words this refuses are the reserved codes of R61. -/
def CommandWord.wf (c : OpCode) : Bool :=
  !(c.getLsbD 3 && (c.getLsbD 2 || c.getLsbD 1 || c.getLsbD 0))

end Sys2Proof
end

