-- ==== Sys2Proof/Decode.lean ====
section
/-! DEFINITION. The command word: decoder and encoder (30_encoding.md R59 to R61). -/

namespace Sys2Proof

/-- Why a value written to `OP` is no command. -/
inductive Reject where
  /-- The codes 9 to 15 (30_encoding.md R61). -/
  | reservedCode (c : OpCode)
  /-- No byte was given at all. -/
  | noCommand
  deriving DecidableEq, Repr

/-- Bit 3 of the command word (30_encoding.md R59). -/
def CommandWord.sz (c : OpCode) : Bool := c.getLsbD 3

/-- Bit 2 of the command word (30_encoding.md R59). -/
def CommandWord.zig (c : OpCode) : Bool := c.getLsbD 2

/-- Bit 1 of the command word (30_encoding.md R59). -/
def CommandWord.delta (c : OpCode) : Bool := c.getLsbD 1

/-- Bit 0 of the command word (30_encoding.md R59). -/
def CommandWord.dir (c : OpCode) : Bool := c.getLsbD 0

/-- The codes 9 to 15: `SZ` = 1 with any other bit set (30_encoding.md R61, the test of
42_scalar_operations.md R100). -/
def CommandWord.reserved (c : OpCode) : Bool :=
  c.getLsbD 3 && c.extractLsb' 0 3 != 0#3

/-- The command a 4-bit code names, read from its fields (30_encoding.md R59). -/
def decodeCode (c : OpCode) : Except Reject Instr :=
  if CommandWord.reserved c then .error (.reservedCode c)
  else if CommandWord.sz c then .ok .size
  else if CommandWord.dir c then .ok (Instr.decoder (CommandWord.zig c) (CommandWord.delta c))
  else .ok (Instr.encoder (CommandWord.zig c) (CommandWord.delta c))

/-- The low four bits of the written byte; "Bits of the written value above bit 3 are ignored"
(30_encoding.md R59). -/
def decodeByte (b : Byte) : Except Reject Instr :=
  decodeCode (b.setWidth 4)

/-- One command off the front of a list of bytes. -/
def decodeBytes : List Byte → Except Reject (Instr × List Byte)
  | [] => .error .noCommand
  | b :: rest =>
    match decodeByte b with
    | .ok i => .ok (i, rest)
    | .error r => .error r

/-- The lowest byte of a value the host writes to `OP`: all the block looks at (30_encoding.md R59). -/
def commandBytes (v : Cw) : List Byte := [v.setWidth 8]

/-- The value written to `OP` for an opcode-table word of `nbits` bits. -/
def tableWordValue (nbits w : Nat) : Cw := BitVec.ofNat 35 (w % 2 ^ nbits)

/-- The command the decoder reads from an opcode-table word. -/
def decodeTableWord (nbits w : Nat) : Option Instr :=
  match decodeBytes (commandBytes (tableWordValue nbits w)) with
  | .ok (i, _) => some i
  | .error _ => none

/-- The command codes, from the table of 30_encoding.md R60. -/
def encode : Instr → OpCode
  | .enc => 0b0000#4
  | .dec => 0b0001#4
  | .encd => 0b0010#4
  | .decd => 0b0011#4
  | .encz => 0b0100#4
  | .decz => 0b0101#4
  | .encdz => 0b0110#4
  | .decdz => 0b0111#4
  | .size => 0b1000#4

/-- The bytes of a command: the code in the low four bits of one byte. -/
def encodeBytes (i : Instr) : List Byte := [(encode i).setWidth 8]

end Sys2Proof
end

