-- ==== Sys2Proof/Machine/Flags.lean ====
section
/-! DEFINITION. The fields of `STATUS` (10_state.md R19). The block has no condition flags: `STATUS` is its
only status state. -/

namespace Sys2Proof.Machine

/-- The code of a `STATE` (10_state.md R19). -/
def RunState.code : RunState → BitVec 2
  | .idle => 0#2
  | .busy => 1#2
  | .done => 2#2
  | .fault => 3#2

/-- The code of a `CAUSE`, 0 for none (10_state.md R19, 60_exceptions.md R150). -/
def Cause.code : Option Cause → BitVec 2
  | none => 0#2
  | some .illegalCommand => 1#2
  | some .encBounds => 2#2
  | some .contractCheck => 3#2

/-- `STATUS.STATE`, bits [1:0]. -/
def Status.state (v : Byte) : RunState :=
  if v.extractLsb' 0 2 = 0#2 then .idle
  else if v.extractLsb' 0 2 = 1#2 then .busy
  else if v.extractLsb' 0 2 = 2#2 then .done
  else .fault

/-- `STATUS.CAUSE`, bits [3:2]. -/
def Status.cause (v : Byte) : Option Cause :=
  if v.extractLsb' 2 2 = 0#2 then none
  else if v.extractLsb' 2 2 = 1#2 then some .illegalCommand
  else if v.extractLsb' 2 2 = 2#2 then some .encBounds
  else some .contractCheck

/-- `STATUS` with `STATE` replaced, the other bits kept. -/
def Status.withState (v : Byte) (st : RunState) : Byte :=
  (v &&& 0xFC#8) ||| st.code.setWidth 8

/-- `STATUS` with `CAUSE` replaced, the other bits kept. -/
def Status.withCause (v : Byte) (c : Option Cause) : Byte :=
  (v &&& 0xF3#8) ||| ((Cause.code c).setWidth 8 <<< 2)

/-- `STATUS` as a command issues: `STATE` <- `BUSY` (42_scalar_operations.md R100). -/
def Status.issued (v : Byte) : Byte := Status.withState v .busy

/-- `STATUS` at normal completion: `CAUSE` <- 0, `STATE` <- `DONE` (42_scalar_operations.md R100). -/
def Status.completed (v : Byte) : Byte := Status.withState (Status.withCause v none) .done

/-- `STATUS` at a fault: `CAUSE` <- its code, `STATE` <- `FAULT` (60_exceptions.md R156). -/
def Status.faulted (v : Byte) (c : Cause) : Byte :=
  Status.withState (Status.withCause v (some c)) .fault

/-- `STATUS` as the host reads it: bits [7:4] read as zero (10_state.md R19). -/
def Status.visible (v : Byte) : Byte := v &&& 0x0F#8

end Sys2Proof.Machine
end

