-- ==== Sys2Proof/Machine/Memory.lean ====
section
/-! DEFINITION. The two spaces as canonical lists of cells (20_memory.md R31, R32). One set of operations
serves both: bytes at offsets for ENC, words at indexes for VAL. -/

namespace Sys2Proof.Machine

/-- The value of the cell at `a`; a cell not listed holds 0 (DESIGN CHOICE, unsafe, log entry 3). -/
def Memory.read {w : Nat} (m : List (Nat × BitVec w)) (a : Nat) : BitVec w :=
  match m with
  | [] => 0#w
  | (k, v) :: rest => if k = a then v else Memory.read rest a

/-- Drop the cell at `a`. -/
def Memory.erase {w : Nat} (m : List (Nat × BitVec w)) (a : Nat) : List (Nat × BitVec w) :=
  m.filter fun c => c.1 != a

/-- Put a cell in its place by address. -/
def Memory.insert {w : Nat} (m : List (Nat × BitVec w)) (a : Nat) (v : BitVec w) :
    List (Nat × BitVec w) :=
  match m with
  | [] => [(a, v)]
  | (k, x) :: rest => if a < k then (a, v) :: (k, x) :: rest else (k, x) :: Memory.insert rest a v

/-- Write a cell, keeping the canonical form: the value an unlisted cell reads as is not listed. -/
def Memory.write {w : Nat} (m : List (Nat × BitVec w)) (a : Nat) (v : BitVec w) :
    List (Nat × BitVec w) :=
  if v = 0#w then Memory.erase m a else Memory.insert (Memory.erase m a) a v

/-- The canonical form: addresses strictly rising, no cell equal to what an unlisted one reads as. -/
abbrev Memory.wf {w : Nat} (m : List (Nat × BitVec w)) : Prop :=
  m.Pairwise (fun c d => c.1 < d.1) ∧ ∀ c ∈ m, c.2 ≠ 0#w

/-- Every listed cell lies below `n`. -/
abbrev Memory.below {w : Nat} (m : List (Nat × BitVec w)) (n : Nat) : Prop :=
  ∀ c ∈ m, c.1 < n

/-- Write `f 0`, `f 1`, ... to the cells 0 .. `n - 1`. -/
def Memory.fill {w : Nat} (m : List (Nat × BitVec w)) (n : Nat) (f : Nat → BitVec w) :
    List (Nat × BitVec w) :=
  match n with
  | 0 => m
  | k + 1 => Memory.write (Memory.fill m k f) k (f k)

/-- Write the listed values to the cells `a`, `a + 1`, ... -/
def Memory.writeList {w : Nat} (m : List (Nat × BitVec w)) (a : Nat) (vs : List (BitVec w)) :
    List (Nat × BitVec w) :=
  match vs with
  | [] => m
  | v :: rest => Memory.writeList (Memory.write m a v) (a + 1) rest

/-- The `k` bytes at `a` .. `a + k - 1` as one little-endian number: the byte at `a` is bits [7:0]
(00_scope.md R8, 20_memory.md R33). -/
def Memory.readLE (m : List (Nat × Byte)) (a k : Nat) : Nat :=
  match k with
  | 0 => 0
  | j + 1 => (Memory.read m a).toNat + 256 * Memory.readLE m (a + 1) j

/-- Write the low `8k` bits of `v` to `a` .. `a + k - 1`, bits [7:0] at `a` (00_scope.md R8,
20_memory.md R33). -/
def Memory.writeLE (m : List (Nat × Byte)) (a k : Nat) (v : Word) : List (Nat × Byte) :=
  match k with
  | 0 => m
  | j + 1 => Memory.writeLE (Memory.write m a (v.setWidth 8)) (a + 1) j (v >>> 8)

/-- How many ENC cells exist: `ENC_LEN` is 35 bits, so offsets run to 2^35 - 2 (20_memory.md R31). -/
def Memory.encSize : Nat := 2 ^ 35 - 1

/-- How many VAL cells exist: `N` is 32 bits, so indexes run to 2^32 - 2 (20_memory.md R32). -/
def Memory.valSize : Nat := 2 ^ 32 - 1

end Sys2Proof.Machine
end

