-- ==== Sys2Proof/Machine/Operands.lean ====
section
/-! DEFINITION. How operands reach the block: the host's register accesses (10_state.md R11) and the
latching of a command's options at issue (42_scalar_operations.md R100). -/

namespace Sys2Proof.Machine

/-- A host write of a register other than `OP`: `N`, `PREV` and `ENC_LEN` take the low bits of the value
(DESIGN CHOICE for `N` and `PREV`, unsafe, log entry 12), in any state of the block (60_exceptions.md
R158); a write of a read-only register has no effect (10_state.md R11). The write of `OP` is `fetch`. -/
def writeReg (r : Reg) (v : Cw) (s : State) : State :=
  match r with
  | .op => s
  | .n => { s with n := v.setWidth 32, written := { s.written with n := true } }
  | .prev => { s with prev := v.setWidth 32, written := { s.written with prev := true } }
  | .encLen => { s with encLen := v, written := { s.written with encLen := true } }
  | .status => s
  | .result => s
  | .finfo => s

/-- What a host read of a register returns, zero-extended; of `OP`, a free value
(10_state.md R11, U8, log entry 7). -/
def regValue (r : Reg) (s : State) : Cw :=
  match r with
  | .op => Config.freeOpRead s.draws
  | .n => s.n.setWidth 35
  | .prev => s.prev.setWidth 35
  | .encLen => s.encLen
  | .status => (Status.visible s.status).setWidth 35
  | .result => s.result
  | .finfo => s.finfo

/-- A host read of a register: the value goes to `readData`; a read of `OP` draws a free value. -/
def readReg (r : Reg) (s : State) : State :=
  match r with
  | .op => { s with readData := regValue .op s, draws := s.draws + 1 }
  | .n => { s with readData := regValue .n s }
  | .prev => { s with readData := regValue .prev s }
  | .encLen => { s with readData := regValue .encLen s }
  | .status => { s with readData := regValue .status s }
  | .result => { s with readData := regValue .result s }
  | .finfo => { s with readData := regValue .finfo s }

/-- Latch the option bits of the command word and sample `VEC_AVAIL` (42_scalar_operations.md R100,
10_state.md R18, 44_dispatch_sizing.md R140). -/
def latchOptions (c : OpCode) (s : State) : State :=
  { s with hidden := { s.hidden with
      zig := CommandWord.zig c
      delta := CommandWord.delta c
      dir := CommandWord.dir c
      vec := s.cfg.hasVec && s.vecAvail } }

end Sys2Proof.Machine
end

