-- ==== Sys2Proof/Machine/Ops.lean ====
section
/-! DEFINITION. The operations every command shares: sequencing, the checked accesses to the ENC space
(20_memory.md R36), taking a fault (60_exceptions.md R156, R157), normal completion
(42_scalar_operations.md R100) and reset, the only way out of a fault (60_exceptions.md R158). -/

namespace Sys2Proof.Machine

/-- Do `f` after `r`; a `raise` ends the operation at once (42_scalar_operations.md R100). -/
def Run.bind {α β : Type} (r : Run α) (f : α → State → Run β) : Run β :=
  match r with
  | .done a s => f a s
  | .raised c info s => .raised c info s

/-- `MemRead(a, k)`: the little-endian number in `a` .. `a + k - 1`, or `EncBounds` with the offset of
the access (00_scope.md R8, 20_memory.md R36, 60_exceptions.md R153). -/
def memRead (a k : Nat) (s : State) : Run Nat :=
  if a + k ≤ s.encLen.toNat then .done (Memory.readLE s.enc a k) s
  else .raised .encBounds a s

/-- `MemWrite(a, k, v)`, or `EncBounds` with no byte written (00_scope.md R8, 20_memory.md R36). -/
def memWrite (a k : Nat) (v : Word) (s : State) : Run Unit :=
  if a + k ≤ s.encLen.toNat then .done () { s with enc := Memory.writeLE s.enc a k v }
  else .raised .encBounds a s

/-- What a fault leaves in the destination space (60_exceptions.md R157): after `EncBounds` every cell
of the range handed over is a free value; the other two faults touch neither space. -/
def faultedSpaces (c : Cause) (s : State) : State :=
  match c with
  | .illegalCommand => s
  | .contractCheck => s
  | .encBounds =>
    if s.hidden.dir then { s with val := Memory.fill s.val s.n.toNat (Config.freeWord s.draws) }
    else { s with enc := Memory.fill s.enc s.encLen.toNat (Config.freeByte s.draws) }

/-- TAKING A FAULT, `raise F(info)` (60_exceptions.md R156): `CAUSE`, `FINFO` and `STATE` are written;
`RESULT` and `PREV` become free values (U4); the spaces are as R157 says; nothing else changes. -/
def raiseFault (c : Cause) (info : Nat) (s : State) : State :=
  { faultedSpaces c s with
      status := Status.faulted s.status c
      finfo := BitVec.ofNat 35 info
      result := Config.freeResult s.draws
      prev := Config.freePrev s.draws
      draws := s.draws + 1 }

/-- Normal completion: `STATUS.CAUSE` <- 0, `STATUS.STATE` <- `DONE` (42_scalar_operations.md R100). -/
def complete (s : State) : State := { s with status := Status.completed s.status }

/-- How a command ends: in `DONE`, or in `FAULT`. Both are next states (10_state.md R12). -/
def finish (r : Run Unit) : Host.Outcome State Fault Refusal :=
  match r with
  | .done _ s => .next (complete s)
  | .raised c info s => .next (raiseFault c info s)

/-- The reset event (70_reset_and_hazards.md R170): the registers and the hidden state as after power on
(10_state.md R24; log entries 1, 2 and 13); the spaces, the inputs and the parameters are not touched. The
only way out of `FAULT` (60_exceptions.md R158): there is no return from a fault. -/
def resetBlock (s : State) : State :=
  { s with
      n := (State.resetWith s.cfg).n
      prev := (State.resetWith s.cfg).prev
      encLen := (State.resetWith s.cfg).encLen
      status := (State.resetWith s.cfg).status
      result := (State.resetWith s.cfg).result
      finfo := (State.resetWith s.cfg).finfo
      hidden := (State.resetWith s.cfg).hidden
      written := (State.resetWith s.cfg).written }

/-- Put a host move in front of those still to come. -/
def pushMove (m : HostMove) (s : State) : State := { s with host := m :: s.host }

end Sys2Proof.Machine
end

