-- ==== Sys2Proof/Machine/Scalar.lean ====
section
/-! DEFINITION. The scalar engine (42_scalar_operations.md R101, R102) and its primitives over the hidden
state: the control stream (40_width_control_data.md R72 to R75), the data stream (R76, R77) and the
delta transform (41_delta_zigzag.md R90, R91). -/

namespace Sys2Proof.Machine

/-- `CtlPut(c)` (40_width_control_data.md R72). -/
def ctlPut (c : WidthCode) (s : State) : Run Unit :=
  let acc := s.hidden.acc ||| (c.setWidth 8 <<< (2 * (s.hidden.i % 4)))
  if s.hidden.i % 4 = 3 then
    (memWrite s.hidden.ccur 1 (acc.setWidth 32) { s with hidden := { s.hidden with acc := acc } }).bind
      fun _ t => .done () { t with hidden := { t.hidden with ccur := t.hidden.ccur + 1, acc := 0 } }
  else .done () { s with hidden := { s.hidden with acc := acc } }

/-- `CtlFlush()` (40_width_control_data.md R73). -/
def ctlFlush (s : State) : Run Unit :=
  if s.n.toNat % 4 ≠ 0 then
    (memWrite s.hidden.ccur 1 (s.hidden.acc.setWidth 32) s).bind
      fun _ t => .done () { t with hidden := { t.hidden with ccur := t.hidden.ccur + 1 } }
  else .done () s

/-- The first half of `CtlGet()`: a fresh control byte at the start of a group
(40_width_control_data.md R74). -/
def ctlFetch (s : State) : Run Unit :=
  if s.hidden.i % 4 = 0 then
    (memRead s.hidden.ccur 1 s).bind fun b t =>
      .done () { t with hidden := { t.hidden with cb := BitVec.ofNat 8 b, ccur := t.hidden.ccur + 1 } }
  else .done () s

/-- `CtlGet()` (40_width_control_data.md R74): `c <- cb & 3; cb <- cb >>u 2`. -/
def ctlGet (s : State) : Run WidthCode :=
  (ctlFetch s).bind fun _ t =>
    .done (t.hidden.cb.setWidth 2) { t with hidden := { t.hidden with cb := t.hidden.cb >>> 2 } }

/-- `DataPut(u, w)` (40_width_control_data.md R76). -/
def dataPut (u : Word) (w : Nat) (s : State) : Run Unit :=
  (memWrite s.hidden.dcur w u s).bind fun _ t =>
    .done () { t with hidden := { t.hidden with dcur := t.hidden.dcur + w } }

/-- `DataGet(w)` (40_width_control_data.md R77): zero-extended to 32 bits. -/
def dataGet (w : Nat) (s : State) : Run Word :=
  (memRead s.hidden.dcur w s).bind fun u t =>
    .done (BitVec.ofNat 32 u) { t with hidden := { t.hidden with dcur := t.hidden.dcur + w } }

/-- The state with another carry. -/
def withCarry (k : Word) (s : State) : State := { s with hidden := { s.hidden with carry := k } }

/-- `DeltaEnc(x)` (41_delta_zigzag.md R90). -/
def deltaEnc (x : Word) (s : State) : Word × State := (x - s.hidden.carry, withCarry x s)

/-- `DeltaDec(d)` (41_delta_zigzag.md R91). -/
def deltaDec (d : Word) (s : State) : Word × State :=
  (s.hidden.carry + d, withCarry (s.hidden.carry + d) s)

/-- Delta, if the command has it, then zigzag, if it has it (42_scalar_operations.md R101). -/
def encodeTransform (x : Word) (s : State) : Word × State :=
  let d := if s.hidden.delta then deltaEnc x s else (x, s)
  (if s.hidden.zig then zigEnc d.1 else d.1, d.2)

/-- The zigzag inverse, if the command has it, then delta, if it has it (42_scalar_operations.md R102). -/
def decodeTransform (u : Word) (s : State) : Word × State :=
  let d := if s.hidden.zig then zigDec u else u
  if s.hidden.delta then deltaDec d s else (d, s)

/-- `i <- i + 1`. -/
def nextIndex (s : State) : State := { s with hidden := { s.hidden with i := s.hidden.i + 1 } }

/-- `RESULT <- dcur; if delta: PREV <- carry` (42_scalar_operations.md R101, R102). -/
def publish (s : State) : State :=
  { s with
      result := BitVec.ofNat 35 s.hidden.dcur
      prev := if s.hidden.delta then s.hidden.carry else s.prev }

/-- One iteration of the encode loop (42_scalar_operations.md R101). -/
def encodeOne (s : State) : Run Unit :=
  let u := encodeTransform (Memory.read s.val s.hidden.i) s
  (dataPut u.1 (width u.1) u.2).bind fun _ t =>
    (ctlPut (code u.1) t).bind fun _ t => .done () (nextIndex t)

/-- `k` iterations of the encode loop (log entry 17). -/
def encodeLoop (k : Nat) (s : State) : Run Unit :=
  match k with
  | 0 => .done () s
  | j + 1 => (encodeOne s).bind fun _ t => encodeLoop j t

/-- The counters as the encode loop starts (42_scalar_operations.md R101). -/
def startEncode (s : State) : State :=
  { s with hidden := { s.hidden with
      i := 0, ccur := 0, dcur := ceil4 s.n.toNat, acc := 0, carry := s.prev } }

/-- `EncodeSeq` (42_scalar_operations.md R101): the loop "runs exactly `N` times", then the flush. -/
def encodeSeq (s : State) : Run Unit :=
  (encodeLoop s.n.toNat (startEncode s)).bind fun _ t =>
    (ctlFlush t).bind fun _ t => .done () (publish t)

/-- `VAL[i] <- y` (20_memory.md R32). -/
def storeValue (y : Word) (s : State) : State :=
  { s with val := Memory.write s.val s.hidden.i y }

/-- One iteration of the decode loop (42_scalar_operations.md R102). -/
def decodeOne (s : State) : Run Unit :=
  (ctlGet s).bind fun c t =>
    (dataGet (c.toNat + 1) t).bind fun u t =>
      let y := decodeTransform u t
      .done () (nextIndex (storeValue y.1 y.2))

/-- `k` iterations of the decode loop (log entry 17). -/
def decodeLoop (k : Nat) (s : State) : Run Unit :=
  match k with
  | 0 => .done () s
  | j + 1 => (decodeOne s).bind fun _ t => decodeLoop j t

/-- The counters as a decode starts (42_scalar_operations.md R100, 43_vector_decode.md R127). -/
def startDecode (s : State) : State :=
  { s with hidden := { s.hidden with
      i := 0, ccur := 0, dcur := ceil4 s.n.toNat, carry := s.prev } }

/-- `ScalarDecodeFrom` (42_scalar_operations.md R102), from the counters and the carry the state holds:
it runs while `i < N`, that is `N - i` times. -/
def scalarDecodeFrom (s : State) : Run Unit :=
  (decodeLoop (s.n.toNat - s.hidden.i) s).bind fun _ t => .done () (publish t)

end Sys2Proof.Machine
end

