-- ==== Sys2Proof/Machine/Tables.lean ====
section
/-! DEFINITION. The vector engine's tables and lane operations (43_vector_decode.md R120 to R122, R125).
The tables are constants, written as functions of the control byte (10_state.md R20). -/

namespace Sys2Proof.Machine

/-- `ByteCount[cb]` (43_vector_decode.md R120). -/
def byteCount (cb : Byte) : Nat :=
  ((slotCode cb 0).toNat + 1) + ((slotCode cb 1).toNat + 1) +
    ((slotCode cb 2).toNat + 1) + ((slotCode cb 3).toNat + 1)

/-- `o_j`: the offset of slot `j`'s first byte in the window (43_vector_decode.md R121). -/
def slotOffset (cb : Byte) (j : Nat) : Nat :=
  match j with
  | 0 => 0
  | k + 1 => slotOffset cb k + ((slotCode cb k).toNat + 1)

/-- `ShuffleMask[cb][p]` (43_vector_decode.md R121): a byte offset in the window, or `none`, the
sentinel that means "write zero" (`ZERO_SENTINEL`, 92_eei_decisions.md D21; log entry 11). -/
def shuffleMask (cb : Byte) (p : Nat) : Option Nat :=
  if p % 4 < (slotCode cb (p / 4)).toNat + 1 then some (slotOffset cb (p / 4) + p % 4) else none

/-- `W[k]` = `window[8k+7:8k]` (43_vector_decode.md R124). -/
def windowByte (w : BitVec 128) (k : Nat) : Byte := w.extractLsb' (8 * k) 8

/-- `L[p]` of `Permute` (43_vector_decode.md R122). -/
def permuteByte (w : BitVec 128) (m : Nat → Option Nat) (p : Nat) : Byte :=
  match m p with
  | none => 0x00#8
  | some k => windowByte w k

/-- Lane `j`: `L[4j+3] : L[4j+2] : L[4j+1] : L[4j]` (43_vector_decode.md R122). -/
def permuteLane (w : BitVec 128) (m : Nat → Option Nat) (j : Nat) : Word :=
  permuteByte w m (4 * j + 3) ++ permuteByte w m (4 * j + 2) ++
    permuteByte w m (4 * j + 1) ++ permuteByte w m (4 * j)

/-- `Permute(W, m)` (43_vector_decode.md R122). -/
def permute (w : BitVec 128) (m : Nat → Option Nat) : Lanes :=
  { l0 := permuteLane w m 0, l1 := permuteLane w m 1,
    l2 := permuteLane w m 2, l3 := permuteLane w m 3 }

/-- A function applied to each lane. -/
def mapLanes (f : Word → Word) (v : Lanes) : Lanes :=
  { l0 := f v.l0, l1 := f v.l1, l2 := f v.l2, l3 := f v.l3 }

/-- Lane by lane addition modulo 2^32 (43_vector_decode.md R125). -/
def addLanes (a b : Lanes) : Lanes :=
  { l0 := a.l0 + b.l0, l1 := a.l1 + b.l1, l2 := a.l2 + b.l2, l3 := a.l3 + b.l3 }

/-- `ShiftLanes(v, 1)`: toward the higher lane index (43_vector_decode.md R125, 92 D26). -/
def shiftLanes1 (v : Lanes) : Lanes := { l0 := 0, l1 := v.l0, l2 := v.l1, l3 := v.l2 }

/-- `ShiftLanes(v, 2)` (43_vector_decode.md R125, 92 D26). -/
def shiftLanes2 (v : Lanes) : Lanes := { l0 := 0, l1 := 0, l2 := v.l0, l3 := v.l1 }

/-- `PrefixSum(lanes)` from a carry: the new lanes; the new carry is their lane 3
(43_vector_decode.md R125). -/
def prefixSum (carry : Word) (v : Lanes) : Lanes :=
  let t := addLanes v (shiftLanes2 v)
  let t := addLanes t (shiftLanes1 t)
  mapLanes (fun x => x + carry) t

end Sys2Proof.Machine
end

