-- ==== Sys2Proof/Machine/VectorEngine.lean ====
section
/-! DEFINITION. The 4-lane decode engine (43_vector_decode.md R124 to R128). -/

namespace Sys2Proof.Machine

/-- The guard: 16 readable bytes at the data cursor and four values left (43_vector_decode.md R126). -/
def vecGuard (s : State) : Bool :=
  decide (s.hidden.dcur + 16 ≤ s.encLen.toNat) && decide (s.hidden.i + 4 ≤ s.n.toNat)

/-- Steps 4 to 6 of `GroupStep` on the window: permute, zigzag inverse per lane, prefix sum
(43_vector_decode.md R124). -/
def groupLanes (s : State) : Lanes :=
  let lanes := permute s.hidden.window (shuffleMask s.hidden.cb)
  let lanes := if s.hidden.zig then mapLanes zigDec lanes else lanes
  if s.hidden.delta then prefixSum s.hidden.carry lanes else lanes

/-- Step 7: the four lanes to VAL[`i` .. `i + 3`] (43_vector_decode.md R124). -/
def storeLanes (v : Lanes) (s : State) : State :=
  { s with val := Memory.writeList s.val s.hidden.i [v.l0, v.l1, v.l2, v.l3] }

/-- The hidden state after a group: lanes kept, carry-out if delta, cursors advanced
(43_vector_decode.md R124, R125). -/
def advanceGroup (v : Lanes) (s : State) : State :=
  { s with hidden := { s.hidden with
      lanes := v
      carry := if s.hidden.delta then v.l3 else s.hidden.carry
      dcur := s.hidden.dcur + byteCount s.hidden.cb
      i := s.hidden.i + 4 } }

/-- `GroupStep` (43_vector_decode.md R124). -/
def groupStep (s : State) : Run Unit :=
  (memRead s.hidden.ccur 1 s).bind fun b t =>
    let t := { t with hidden := { t.hidden with cb := BitVec.ofNat 8 b, ccur := t.hidden.ccur + 1 } }
    (memRead t.hidden.dcur 16 t).bind fun w t =>
      let t := { t with hidden := { t.hidden with window := BitVec.ofNat 128 w } }
      .done () (advanceGroup (groupLanes t) (storeLanes (groupLanes t) t))

/-- Group steps while the guard holds, at most `k` of them (43_vector_decode.md R127; log entry 17). -/
def groupLoop (k : Nat) (s : State) : Run Unit :=
  match k with
  | 0 => .done () s
  | j + 1 => if vecGuard s then (groupStep s).bind fun _ t => groupLoop j t else .done () s

/-- `VecDecode` (43_vector_decode.md R127): `N div 4` group steps are the most there can be, since each
takes four values; then the hand-off to the scalar engine (R128). -/
def vecDecode (s : State) : Run Unit :=
  (groupLoop (s.n.toNat / 4) (startDecode s)).bind fun _ t => scalarDecodeFrom t

end Sys2Proof.Machine
end

