-- ==== Sys2Proof/Machine/Issue.lean ====
section
/-! DEFINITION. The command frame `Exec(c)` (42_scalar_operations.md R100). -/

namespace Sys2Proof.Machine

/-- The sizing command: `RESULT <- MaxEncodedSize(N)` (44_dispatch_sizing.md R144). -/
def sizeCommand (s : State) : Run Unit :=
  .done () { s with result := BitVec.ofNat 35 (maxEncodedSize s.n.toNat) }

/-- The contract check, then the encode; an encode always uses the scalar engine
(42_scalar_operations.md R100, 60_exceptions.md R159, 44_dispatch_sizing.md R140). -/
def encodeCommand (s : State) : Run Unit :=
  if s.cfg.strictContract && decide (s.encLen.toNat < maxEncodedSize s.n.toNat) then
    .raised .contractCheck s.encLen.toNat s
  else encodeSeq s

/-- The engine choice for a decode (44_dispatch_sizing.md R140, R142). -/
def decodeCommand (s : State) : Run Unit :=
  if s.hidden.vec then vecDecode s else scalarDecodeFrom (startDecode s)

/-- The command body once its options are latched (42_scalar_operations.md R100). -/
def commandBody (c : OpCode) (s : State) : Run Unit :=
  if CommandWord.sz c then sizeCommand s
  else if s.hidden.dir then decodeCommand s
  else encodeCommand s

/-- `Exec(c)` between `BUSY` and the end: the two `IllegalCommand` checks in the order of
60_exceptions.md R155, then the body (42_scalar_operations.md R100). -/
def runCommand (c : OpCode) (s : State) : Run Unit :=
  if CommandWord.reserved c then .raised .illegalCommand c.toNat s
  else if s.cfg.nMax < s.n.toNat then .raised .illegalCommand c.toNat s
  else commandBody c (latchOptions c s)

/-- `Exec(c)` (42_scalar_operations.md R100): ignored in `FAULT`, else run to `DONE` or `FAULT`, one
atomic transition for the host (10_state.md R12; DEDUCED, safe, log entries 15 and 16). -/
def execCode (c : OpCode) (s : State) : Host.Outcome State Fault Refusal :=
  if Status.state s.status = .fault then .next s
  else finish (runCommand c { s with status := Status.issued s.status })

end Sys2Proof.Machine
end

