-- ==== Sys2Proof/Machine/DecodeFamily.lean ====
section
/-! DEFINITION. The four decode commands (42_scalar_operations.md R104, R106, R108, R110). -/

namespace Sys2Proof.Machine

/-- `SVB.DEC`: `Exec(1)` (42_scalar_operations.md R104). -/
def execDec (s : State) : Host.Outcome State Fault Refusal := execCode 0b0001#4 s

/-- `SVB.DECD`: `Exec(3)`; dispatched like the other three (42_scalar_operations.md R106,
44_dispatch_sizing.md R142, 90_conflicts.md C2). -/
def execDecd (s : State) : Host.Outcome State Fault Refusal := execCode 0b0011#4 s

/-- `SVB.DECZ`: `Exec(5)` (42_scalar_operations.md R108). -/
def execDecz (s : State) : Host.Outcome State Fault Refusal := execCode 0b0101#4 s

/-- `SVB.DECDZ`: `Exec(7)` (42_scalar_operations.md R110). -/
def execDecdz (s : State) : Host.Outcome State Fault Refusal := execCode 0b0111#4 s

end Sys2Proof.Machine
end

