-- ==== Sys2Proof/Machine/EncodeFamily.lean ====
section
/-! DEFINITION. The four encode commands (42_scalar_operations.md R103, R105, R107, R109). -/

namespace Sys2Proof.Machine

/-- `SVB.ENC`: `Exec(0)`, each value stored as it stands (42_scalar_operations.md R103). -/
def execEnc (s : State) : Host.Outcome State Fault Refusal := execCode 0b0000#4 s

/-- `SVB.ENCD`: `Exec(2)`, the difference to the value before it stored (42_scalar_operations.md R105). -/
def execEncd (s : State) : Host.Outcome State Fault Refusal := execCode 0b0010#4 s

/-- `SVB.ENCZ`: `Exec(4)`, the zigzag of each value stored (42_scalar_operations.md R107). -/
def execEncz (s : State) : Host.Outcome State Fault Refusal := execCode 0b0100#4 s

/-- `SVB.ENCDZ`: `Exec(6)`, the zigzag of the difference stored (42_scalar_operations.md R109). -/
def execEncdz (s : State) : Host.Outcome State Fault Refusal := execCode 0b0110#4 s

end Sys2Proof.Machine
end

