-- ==== Sys2Proof/Machine/SizeFamily.lean ====
section
/-! DEFINITION. The sizing command (44_dispatch_sizing.md R144). -/

namespace Sys2Proof.Machine

/-- `SVB.SIZE`: `Exec(8)` (44_dispatch_sizing.md R144). -/
def execSize (s : State) : Host.Outcome State Fault Refusal := execCode 0b1000#4 s

end Sys2Proof.Machine
end

