-- ==== Sys2Proof/Machine/Dispatch.lean ====
section
/-! DEFINITION. The meaning of every command, one arm each. -/

namespace Sys2Proof.Machine

def exec (i : Instr) (s : State) : Host.Outcome State Fault Refusal :=
  match i with
  | .enc => Sys2Proof.Machine.execEnc s
  | .dec => Sys2Proof.Machine.execDec s
  | .encd => Sys2Proof.Machine.execEncd s
  | .decd => Sys2Proof.Machine.execDecd s
  | .encz => Sys2Proof.Machine.execEncz s
  | .decz => Sys2Proof.Machine.execDecz s
  | .encdz => Sys2Proof.Machine.execEncdz s
  | .decdz => Sys2Proof.Machine.execDecdz s
  | .size => Sys2Proof.Machine.execSize s

end Sys2Proof.Machine
end

