-- ==== Sys2Proof/Machine/HostMoves.lean ====
section
/-! DEFINITION. The host's moves (30_encoding.md R62, 10_state.md R11, 70_reset_and_hazards.md R170) and
where the next command comes from: the block fetches nothing (20_memory.md R44), a command is a write of
`OP` (10_state.md R12). -/

namespace Sys2Proof.Machine

/-- What the next host move asks for. -/
inductive Fetched where
  /-- No move is left: the block waits (10_state.md R24). -/
  | idle
  /-- A write of `OP` that names a command. -/
  | command (i : Instr) (s : State)
  /-- Any other move, with its outcome. -/
  | other (o : Host.Outcome State Fault Refusal)

/-- `ENC <- [b0, b1, ...]` (30_encoding.md R62): cells not listed keep their values (log entry 14). -/
def fillEnc (bytes : List Byte) (s : State) : Host.Outcome State Fault Refusal :=
  if bytes.length ≤ Memory.encSize then .next { s with enc := Memory.writeList s.enc 0 bytes }
  else .fault .encFillOutsideSpace

/-- `VAL <- [v0, v1, ...]` (30_encoding.md R62; log entry 14). -/
def fillVal (words : List Word) (s : State) : Host.Outcome State Fault Refusal :=
  if words.length ≤ Memory.valSize then .next { s with val := Memory.writeList s.val 0 words }
  else .fault .valFillOutsideSpace

/-- A write of `OP` (10_state.md R12): a command, or a reserved code for the frame `Exec(c)` to turn
away (30_encoding.md R61, 42_scalar_operations.md R100). -/
def fetchCommand (v : Cw) (s : State) : Fetched :=
  match decodeBytes (commandBytes v) with
  | .ok (i, _) => .command i s
  | .error (.reservedCode c) => .other (execCode c s)
  | .error .noCommand => .idle

/-- What a host move asks for, in the state the move before it left. -/
def fetchMove (m : HostMove) (s : State) : Fetched :=
  match m with
  | .write .op v => fetchCommand v s
  | .write r v => .other (.next (writeReg r v s))
  | .read r => .other (.next (readReg r s))
  | .fillEnc bytes => .other (fillEnc bytes s)
  | .fillVal words => .other (fillVal words s)
  | .driveVec b => .other (.next { s with vecAvail := b })
  | .reset => .other (.next (resetBlock s))

/-- Take the next host move off the list (log entry 6). -/
def fetch (s : State) : Fetched :=
  match s.host with
  | [] => .idle
  | m :: rest => fetchMove m { s with host := rest }

end Sys2Proof.Machine
end

