-- ==== Sys2Proof/Machine/Step.lean ====
section
/-! DEFINITION. One step of the machine: the next host move, and the whole command if it issues one
(10_state.md R12). With no move left the block waits (10_state.md R24). -/

namespace Sys2Proof.Machine

/-- One step. -/
def step (s : State) : Host.Outcome State Fault Refusal :=
  match fetch s with
  | .idle => .next s
  | .command i t => exec i t
  | .other o => o

/-- The state with an opcode-table word as the host's next move: the write of it to `OP` (log entry 6). -/
def State.withFetchWord (s : State) (nbits w : Nat) : State :=
  pushMove (.write .op (tableWordValue nbits w)) s

end Sys2Proof.Machine
end

