-- ==== Sys2Proof/Safety.lean ====
section
/-! DEFINITION. What claims are stated in: when a command can be issued, the host's duties
(70_reset_and_hazards.md R172 to R175), how commands end, and the invariant of the machine. -/

namespace Sys2Proof.Safety

open Sys2Proof.Machine

/-- A write of `OP` issues a command: the block is not in `FAULT` (10_state.md R12,
60_exceptions.md R158). -/
abbrev Issuable (s : State) : Prop := Status.state s.status ≠ .fault

/-- A command passes the `IllegalCommand` checks (60_exceptions.md R152). -/
abbrev Admitted (s : State) : Prop := Issuable s ∧ s.n.toNat ≤ s.cfg.nMax

/-- An encode passes the contract check too (60_exceptions.md R159). -/
abbrev EncodeAdmitted (s : State) : Prop :=
  Admitted s ∧ (s.cfg.strictContract = true → maxEncodedSize s.n.toNat ≤ s.encLen.toNat)

/-- The operand registers a command reads have been written since reset: the host's duty of
70_reset_and_hazards.md R172, which 92_eei_decisions.md D30 would refuse a command for (log entry 1). -/
def OperandsWritten (i : Instr) (s : State) : Prop :=
  s.written.n = true ∧
    (i ≠ .size → s.written.encLen = true) ∧
    (i = .encd ∨ i = .decd ∨ i = .encdz ∨ i = .decdz → s.written.prev = true)

/-- The encode contract (70_reset_and_hazards.md R174, 44_dispatch_sizing.md R145). -/
abbrev EncodeCapacity (s : State) : Prop := maxEncodedSize s.n.toNat ≤ s.encLen.toNat

/-- A good end of a run: the block is not in `FAULT` (70_reset_and_hazards.md R181). -/
abbrev GoodEnd (s : State) : Prop := Status.state s.status ≠ .fault

/-- The block reports the fault `c` with information `info` (60_exceptions.md R150, R156). -/
abbrev Faulted (c : Cause) (info : Nat) (t : State) : Prop :=
  Status.state t.status = .fault ∧ Status.cause t.status = some c ∧ t.finfo.toNat = info

/-- The block reports normal completion (42_scalar_operations.md R100). -/
abbrev Completed (t : State) : Prop :=
  Status.state t.status = .done ∧ Status.cause t.status = none

/-- `STATUS` is a legal word between commands (10_state.md R19): `BUSY` is never visible, `CAUSE` is
non-zero exactly in `FAULT`, bits [7:4] are zero. -/
abbrev StatusLegal (v : Byte) : Prop :=
  Status.state v ≠ .busy ∧ (Status.cause v ≠ none ↔ Status.state v = .fault) ∧ v.extractLsb' 4 4 = 0#4

/-- The invariant of the machine between host moves. -/
structure Inv (s : State) : Prop where
  /-- `STATUS` is legal (10_state.md R19). -/
  status : StatusLegal s.status
  /-- ENC is in canonical form and lists only offsets that exist (20_memory.md R31). -/
  enc : Memory.wf s.enc ∧ Memory.below s.enc Memory.encSize
  /-- VAL is in canonical form and lists only indexes that exist (20_memory.md R32). -/
  val : Memory.wf s.val ∧ Memory.below s.val Memory.valSize
  /-- The parameters are admitted ones (00_scope.md R6). -/
  cfg : Config.wf s.cfg

end Sys2Proof.Safety
end

