-- ==== Sys2Proof/Safety/Wire.lean ====
section
/-! DEFINITION. The wire format of the encoded buffer, stated without cursors or engines
(20_memory.md R31, 30_encoding.md R51 to R57): what the bytes of a buffer mean, and what an encode of a
value sequence is. Claims about the engines are stated in these terms. -/

namespace Sys2Proof.Wire

open Sys2Proof.Machine

/-- The width code of value `i`: bits [2j+1:2j], `j = i mod 4`, of control byte `i div 4`
(30_encoding.md R51). -/
def codeAt (enc : Nat → Byte) (i : Nat) : Nat := (enc (i / 4)).toNat / 4 ^ (i % 4) % 4

/-- The width of value `i`: its code plus 1 (30_encoding.md R52). -/
def widthAt (enc : Nat → Byte) (i : Nat) : Nat := codeAt enc i + 1

/-- The offset of element `i`: `ceil4(n)` plus the widths before it (20_memory.md R31). -/
def offsetAt (enc : Nat → Byte) (n i : Nat) : Nat :=
  match i with
  | 0 => ceil4 n
  | j + 1 => offsetAt enc n j + widthAt enc j

/-- `w` bytes at `a` as a number, least significant byte first (30_encoding.md R53, R55). -/
def number (enc : Nat → Byte) (a w : Nat) : Nat :=
  match w with
  | 0 => 0
  | k + 1 => number enc a k + (enc (a + k)).toNat * 256 ^ k

/-- Stored number `i` of a buffer of `n` values (30_encoding.md R55). -/
def storedAt (enc : Nat → Byte) (n i : Nat) : Word :=
  BitVec.ofNat 32 (number enc (offsetAt enc n i) (widthAt enc i))

/-- A stored number with the zigzag inverse applied if the command has it (41_delta_zigzag.md R92). -/
def differenceAt (zig : Bool) (enc : Nat → Byte) (n i : Nat) : Word :=
  if zig then zigDec (storedAt enc n i) else storedAt enc n i

/-- Value `i` of the decode of a buffer of `n` values (42_scalar_operations.md R104, R106, R108, R110):
with delta, the value before it (`prev` for the first) plus the difference. -/
def valueAt (zig delta : Bool) (enc : Nat → Byte) (n : Nat) (prev : Word) (i : Nat) : Word :=
  match i with
  | 0 => if delta then prev + differenceAt zig enc n 0 else differenceAt zig enc n 0
  | j + 1 =>
    if delta then valueAt zig delta enc n prev j + differenceAt zig enc n (j + 1)
    else differenceAt zig enc n (j + 1)

/-- The value before value `i`: `VAL[i-1]`, or `PREV` for the first (42_scalar_operations.md R105). -/
def valueBefore (val : Nat → Word) (prev : Word) (i : Nat) : Word :=
  match i with
  | 0 => prev
  | j + 1 => val j

/-- The number an encode stores for value `i`: `VAL[i]`, `VAL[i] -32 VAL[i-1]`, or the zigzag of one of
them (42_scalar_operations.md R103, R105, R107, R109). -/
def toStore (zig delta : Bool) (val : Nat → Word) (prev : Word) (i : Nat) : Word :=
  let d := if delta then val i - valueBefore val prev i else val i
  if zig then zigEnc d else d

/-- Where an encode of `n` values puts element `i` (20_memory.md R31); for `i = n`, the size of the
encoding (42_scalar_operations.md R111). -/
def encodedOffset (zig delta : Bool) (val : Nat → Word) (prev : Word) (n i : Nat) : Nat :=
  match i with
  | 0 => ceil4 n
  | j + 1 => encodedOffset zig delta val prev n j + width (toStore zig delta val prev j)

/-- What value `4g + j` adds to control byte `g`: its code in slot `j`, nothing for a value that does
not exist (30_encoding.md R51, R56). -/
def slotValue (zig delta : Bool) (val : Nat → Word) (prev : Word) (n g j : Nat) : Nat :=
  if 4 * g + j < n then (width (toStore zig delta val prev (4 * g + j)) - 1) * 4 ^ j else 0

/-- Control byte `g` of an encode of `n` values: `c0 + 4*c1 + 16*c2 + 64*c3` (30_encoding.md R51). -/
def controlByte (zig delta : Bool) (val : Nat → Word) (prev : Word) (n g : Nat) : Nat :=
  slotValue zig delta val prev n g 0 + slotValue zig delta val prev n g 1 +
    slotValue zig delta val prev n g 2 + slotValue zig delta val prev n g 3

/-- The carry after `n` values: the last of them, or what it was (10_state.md R14). -/
def lastValue (val : Nat → Word) (prev : Word) (n : Nat) : Word := valueBefore val prev n

/-- The control byte of value `i`, if value `i` is the first of its group, and the data element of value
`i` lie below `len`: both its reads are admitted (20_memory.md R36). -/
abbrev Readable (enc : Nat → Byte) (n len i : Nat) : Prop :=
  (i % 4 = 0 → i / 4 + 1 ≤ len) ∧ offsetAt enc n i + widthAt enc i ≤ len

/-- The offset of the first of value `i`'s reads that is not admitted (60_exceptions.md R155). -/
def failingOffset (enc : Nat → Byte) (n len i : Nat) : Nat :=
  if i % 4 = 0 ∧ len < i / 4 + 1 then i / 4 else offsetAt enc n i

/-- The bytes of the ENC space, as a function of the offset. -/
abbrev encBytes (s : State) : Nat → Byte := Memory.read s.enc

/-- The words of the VAL space, as a function of the index. -/
abbrev valWords (s : State) : Nat → Word := Memory.read s.val

/-- The size of the encoding an encode command would write from `s`. -/
abbrev encodedSize (zig delta : Bool) (s : State) : Nat :=
  encodedOffset zig delta (valWords s) s.prev s.n.toNat s.n.toNat

/-- How many bytes a decode command from `s` asks for (42_scalar_operations.md R102). -/
abbrev decodedSize (s : State) : Nat :=
  offsetAt (encBytes s) s.n.toNat s.n.toNat

/-- Two states alike in all a host can see, that is in all but the hidden state (10_state.md R22). -/
abbrev SameButHidden (t u : State) : Prop := t = { u with hidden := t.hidden }

/-- The state a command ends in when it faults at issue with both spaces untouched
(60_exceptions.md R156, R157): `RESULT` and `PREV` are free values. -/
abbrev issueFault (c : Cause) (info : Nat) (s : State) : State :=
  { s with
      status := Status.faulted s.status c
      finfo := BitVec.ofNat 35 info
      result := Config.freeResult s.draws
      prev := Config.freePrev s.draws
      draws := s.draws + 1 }

end Sys2Proof.Wire
end

