-- ==== Sys2Proof/Certificates/Slice0/Obligations.lean ====
section
/-! DEFINITION. The statements about the model. Each docstring names the rule of spec/ it formalises.
`exec` answers a next state for every command in every state, so statements say which one. -/

open Sys2Proof Sys2Proof.Machine Sys2Proof.Safety

/-! ### The command word -/

/-- 30_encoding.md R60: the code of each command, and the reserved codes. -/
def Obligations.CommandCodesNameTheCommands : Prop :=
  decodeCode 0b0000#4 = .ok .enc ∧ decodeCode 0b0001#4 = .ok .dec ∧
  decodeCode 0b0010#4 = .ok .encd ∧ decodeCode 0b0011#4 = .ok .decd ∧
  decodeCode 0b0100#4 = .ok .encz ∧ decodeCode 0b0101#4 = .ok .decz ∧
  decodeCode 0b0110#4 = .ok .encdz ∧ decodeCode 0b0111#4 = .ok .decdz ∧
  decodeCode 0b1000#4 = .ok .size ∧
  ∀ c : OpCode, 9 ≤ c.toNat → decodeCode c = .error (.reservedCode c)

/-- 30_encoding.md R59, R60: a written value names the command whose code its low four bits are, and no
other; so every command is named by its own code, and the bits above bit 3 do not count. -/
def Obligations.WrittenValueNamesItsCode : Prop :=
  ∀ (v : Cw) (i : Instr),
    (∃ rest, decodeBytes (commandBytes v) = .ok (i, rest)) ↔ v.setWidth 4 = encode i

/-- 10_state.md R12: a write of `OP` that names the command `i` makes the step run `i`, on the state with
that move taken off the host's list. -/
def Obligations.StepRunsTheDecodedCommand : Prop :=
  ∀ (s : State) (v : Cw) (rest : List HostMove) (i : Instr) (more : List Byte),
    s.host = .write .op v :: rest →
    decodeBytes (commandBytes v) = .ok (i, more) →
    Machine.step s = exec i { s with host := rest }

/-- 30_encoding.md R61: a write of a reserved code while the block is not in `FAULT` ends in
`IllegalCommand`, with no access to either space. -/
def Obligations.ReservedCodeIsIllegal : Prop :=
  ∀ (s : State) (v : Cw) (rest : List HostMove),
    s.host = .write .op v :: rest → 9 ≤ (v.setWidth 4).toNat → Issuable s →
    decodeBytes (commandBytes v) = .error (.reservedCode (v.setWidth 4)) ∧
    ∃ t, Machine.step s = .next t ∧ Faulted .illegalCommand (v.setWidth 4).toNat t ∧
      t.enc = s.enc ∧ t.val = s.val ∧ t.n = s.n ∧ t.encLen = s.encLen

/-- 30_encoding.md R59, 10_state.md R18: an admitted command latches its option bits and the sampled
`VEC_AVAIL`, and holds them to its end, however it ends. It is read in the state after the command, where
10_state.md R22 and R24 leave the hidden state unspecified: that it still holds what the command latched
is the model's choice (log entry 2). -/
def Obligations.OptionsAreLatched : Prop :=
  ∀ (i : Instr) (s : State), Admitted s →
    ∃ t, exec i s = .next t ∧
      t.hidden.zig = (encode i).getLsbD 2 ∧ t.hidden.delta = (encode i).getLsbD 1 ∧
      t.hidden.dir = (encode i).getLsbD 0 ∧ t.hidden.vec = (s.cfg.hasVec && s.vecAvail)

/-! ### Faults -/

/-- 60_exceptions.md R152: `IllegalCommand` for a reserved code, and for `N` > `N_MAX` with any of the
nine commands; nothing but the fault's own registers changes; with the default `N_MAX` the second
cannot arise. -/
def Obligations.IllegalCommandAtIssue : Prop :=
  (∀ (c : OpCode) (s : State), 9 ≤ c.toNat → Issuable s →
    execCode c s = .next (Wire.issueFault .illegalCommand c.toNat s)) ∧
  (∀ (i : Instr) (s : State), s.cfg.nMax < s.n.toNat → Issuable s →
    exec i s = .next (Wire.issueFault .illegalCommand (encode i).toNat s)) ∧
  (∀ s : State, s.cfg.nMax = Config.standard.nMax → s.n.toNat ≤ s.cfg.nMax)

/-- 60_exceptions.md R158: in `FAULT` a command, and a reserved code, is ignored; writes of `N`, `PREV`
and `ENC_LEN` take effect (a value the register can hold) and every register can be read; and only a
reset leaves the state. -/
def Obligations.FaultStateIsSticky : Prop :=
  (∀ (i : Instr) (s : State), ¬ Issuable s → exec i s = .next s) ∧
  (∀ (c : OpCode) (s : State), ¬ Issuable s → execCode c s = .next s) ∧
  (∀ (s : State) (v : Cw) (rest : List HostMove), ¬ Issuable s →
    (s.host = .write .n v :: rest →
      ∃ t, Machine.step s = .next t ∧ (v.toNat < 2 ^ 32 → t.n.toNat = v.toNat) ∧ ¬ Issuable t) ∧
    (s.host = .write .prev v :: rest →
      ∃ t, Machine.step s = .next t ∧ (v.toNat < 2 ^ 32 → t.prev.toNat = v.toNat) ∧ ¬ Issuable t) ∧
    (s.host = .write .encLen v :: rest →
      ∃ t, Machine.step s = .next t ∧ t.encLen = v ∧ ¬ Issuable t)) ∧
  (∀ (s : State) (r : Reg) (rest : List HostMove), ¬ Issuable s → s.host = .read r :: rest →
    ∃ t, Machine.step s = .next t ∧ t.readData = regValue r s ∧ ¬ Issuable t) ∧
  (∀ (s t : State) (m : HostMove) (rest : List HostMove), ¬ Issuable s → s.host = m :: rest →
    m ≠ .reset → Machine.step s = .next t → t.status = s.status) ∧
  (∀ (s : State) (rest : List HostMove), s.host = .reset :: rest →
    ∃ t, Machine.step s = .next t ∧ Issuable t)

/-- 60_exceptions.md R159: with `STRICT_CONTRACT`, an encode with less than `MaxEncodedSize(N)` bytes
faults at issue with no access; without it the check is not made and an encode that fits completes; no
decode is checked; and the two settings differ in whether an encode completes only where the encoding
fits below that size. -/
def Obligations.ContractCheckAtIssue : Prop :=
  (∀ (zig delta : Bool) (s : State), Admitted s → s.cfg.strictContract = true →
    s.encLen.toNat < maxEncodedSize s.n.toNat →
    ∃ h, exec (.encoder zig delta) s =
      .next { Wire.issueFault .contractCheck s.encLen.toNat s with hidden := h }) ∧
  (∀ (i : Instr) (s t : State), Issuable s → exec i s = .next t →
    Status.cause t.status = some .contractCheck →
    s.cfg.strictContract = true ∧ ∃ zig delta, i = .encoder zig delta) ∧
  (∀ (zig delta : Bool) (s : State), Admitted s → s.cfg.strictContract = false →
    Wire.encodedSize zig delta s ≤ s.encLen.toNat →
    ∃ t, exec (.encoder zig delta) s = .next t ∧ Completed t) ∧
  (∀ (zig delta : Bool) (s : State), Admitted s →
    ¬ (Wire.encodedSize zig delta s ≤ s.encLen.toNat ∧ s.encLen.toNat < maxEncodedSize s.n.toNat) →
    ∃ t u,
      exec (.encoder zig delta) { s with cfg := { s.cfg with strictContract := true } } = .next t ∧
      exec (.encoder zig delta) { s with cfg := { s.cfg with strictContract := false } } = .next u ∧
      (Completed t ↔ Completed u))

/-- 60_exceptions.md R156: what a fault leaves: `CAUSE`, `FINFO` and `STATE` written, `N` and `ENC_LEN`
kept, `RESULT` and `PREV` free values (log entry 7), the host's inputs untouched. -/
def Obligations.FaultWritesOnlyItsRegisters : Prop :=
  ∀ (i : Instr) (s t : State), Issuable s → exec i s = .next t → ¬ Issuable t →
    ∃ c info, Faulted c info t ∧ t.status = Status.faulted s.status c ∧
      t = { s with
              status := t.status
              finfo := BitVec.ofNat 35 info
              result := Config.freeResult s.draws
              prev := Config.freePrev s.draws
              draws := s.draws + 1
              hidden := t.hidden
              enc := t.enc
              val := t.val }

/-- 60_exceptions.md R150: which command can raise which fault, and what `FINFO` records. -/
def Obligations.FaultCausesAndInformation : Prop :=
  ∀ (i : Instr) (s t : State), Issuable s → exec i s = .next t → ¬ Issuable t →
    (Status.cause t.status = some .illegalCommand ∧ t.finfo = (encode i).setWidth 35 ∧
        s.cfg.nMax < s.n.toNat) ∨
    (Status.cause t.status = some .contractCheck ∧ t.finfo = s.encLen ∧
        s.cfg.strictContract = true ∧ s.encLen.toNat < maxEncodedSize s.n.toNat ∧
        ∃ zig delta, i = .encoder zig delta) ∨
    (Status.cause t.status = some .encBounds ∧ i ≠ .size ∧
        ∃ k, 1 ≤ k ∧ k ≤ 4 ∧ s.encLen.toNat < t.finfo.toNat + k)

/-- 60_exceptions.md R157: the spaces after a fault. After `EncBounds` the destination cells of the range
handed over are free values (log entry 7) and everything else is as it was; after the other two both
spaces are as they were. -/
def Obligations.SpacesAfterFault : Prop :=
  ∀ (i : Instr) (s t : State), Issuable s → exec i s = .next t → ¬ Issuable t →
    (Status.cause t.status ≠ some .encBounds → t.enc = s.enc ∧ t.val = s.val) ∧
    (Status.cause t.status = some .encBounds →
      (∀ zig delta, i = .encoder zig delta →
        t.val = s.val ∧
        (∀ a, a < s.encLen.toNat → Memory.read t.enc a = Config.freeByte s.draws a) ∧
        (∀ a, s.encLen.toNat ≤ a → Memory.read t.enc a = Memory.read s.enc a)) ∧
      (∀ zig delta, i = .decoder zig delta →
        t.enc = s.enc ∧
        (∀ a, a < s.n.toNat → Memory.read t.val a = Config.freeWord s.draws a) ∧
        (∀ a, s.n.toNat ≤ a → Memory.read t.val a = Memory.read s.val a)))

/-- 60_exceptions.md R153, R155: an encode past its capacity faults `EncBounds` at the first data put
that does not fit, and `FINFO` is the offset of that element. -/
def Obligations.EncodeRunsOutOfSpace : Prop :=
  ∀ (zig delta : Bool) (s : State) (i : Nat), EncodeAdmitted s → i < s.n.toNat →
    (∀ j, j < i →
      Wire.encodedOffset zig delta (Wire.valWords s) s.prev s.n.toNat (j + 1) ≤ s.encLen.toNat) →
    s.encLen.toNat <
      Wire.encodedOffset zig delta (Wire.valWords s) s.prev s.n.toNat (i + 1) →
    ∃ t, exec (.encoder zig delta) s = .next t ∧
      Faulted .encBounds (Wire.encodedOffset zig delta (Wire.valWords s) s.prev s.n.toNat i) t

/-- 60_exceptions.md R153, R155: a decode whose source is too short faults `EncBounds` at the first
control or data read that reaches `ENC_LEN`, under either engine. -/
def Obligations.DecodeRunsOutOfBytes : Prop :=
  ∀ (zig delta : Bool) (s : State) (i : Nat), Admitted s → i < s.n.toNat →
    (∀ j, j < i → Wire.Readable (Wire.encBytes s) s.n.toNat s.encLen.toNat j) →
    ¬ Wire.Readable (Wire.encBytes s) s.n.toNat s.encLen.toNat i →
    ∃ t, exec (.decoder zig delta) s = .next t ∧
      Faulted .encBounds (Wire.failingOffset (Wire.encBytes s) s.n.toNat s.encLen.toNat i) t

/-! ### Whole commands -/

/-- 70_reset_and_hazards.md R181, 10_state.md R12: every command, in every state, ends at once in a next
state, in `DONE` or in `FAULT`, and never in `BUSY`. -/
def Obligations.EveryCommandEnds : Prop :=
  ∀ (i : Instr) (s : State), ∃ t, exec i s = .next t ∧
    (Issuable s → Completed t ∨ Status.state t.status = .fault) ∧ (¬ Issuable s → t = s)

/-- 42_scalar_operations.md section 3, 10_state.md R13, R15: no command writes `N`, `ENC_LEN`, the inputs,
the parameters or what is left of the host's list; one that completes leaves `FINFO` and the free-value
counter alone too. -/
def Obligations.CommandsLeaveTheHostsRegisters : Prop :=
  ∀ (i : Instr) (s : State), ∃ t, exec i s = .next t ∧
    t.n = s.n ∧ t.encLen = s.encLen ∧ t.vecAvail = s.vecAvail ∧ t.cfg = s.cfg ∧ t.host = s.host ∧
    t.readData = s.readData ∧ t.written = s.written ∧
    (Completed t → Issuable s → t.finfo = s.finfo ∧ t.draws = s.draws)

/-- 44_dispatch_sizing.md R144: `SVB.SIZE` writes `RESULT` and `STATUS` only; its one fault is `N` above
`N_MAX`. -/
def Obligations.SizeCommandResult : Prop :=
  ∀ s : State,
    (Admitted s → ∃ h,
      exec .size s = .next { s with
        status := Status.completed s.status
        result := BitVec.ofNat 35 (maxEncodedSize s.n.toNat)
        hidden := h } ∧
      (BitVec.ofNat 35 (maxEncodedSize s.n.toNat)).toNat = (s.n.toNat + 3) / 4 + 4 * s.n.toNat) ∧
    (Issuable s → s.cfg.nMax < s.n.toNat →
      ∃ t, exec .size s = .next t ∧ Faulted .illegalCommand 8 t)

/-- 42_scalar_operations.md R113: with `N` = 0 a codec command touches neither space, writes 0 to
`RESULT`, leaves `PREV` and completes, whatever `ENC_LEN` is. -/
def Obligations.EmptySequence : Prop :=
  ∀ (i : Instr) (s : State), i ≠ .size → Issuable s → s.n = 0#32 →
    ∃ h, exec i s = .next { s with status := Status.completed s.status, result := 0#35, hidden := h }

/-- 42_scalar_operations.md R101, R103, R105, R107, R109, 20_memory.md R31: an encode that has room writes
exactly the wire format of its input: every element at its offset, every control byte, nothing else;
`RESULT` is the size and, with delta, `PREV` the last value. -/
def Obligations.EncodeWritesTheWireFormat : Prop :=
  ∀ (zig delta : Bool) (s : State), EncodeAdmitted s →
    Wire.encodedSize zig delta s ≤ s.encLen.toNat →
    ∃ t, exec (.encoder zig delta) s = .next t ∧
      t.status = Status.completed s.status ∧
      t.result.toNat = Wire.encodedSize zig delta s ∧
      t.prev = (if delta then Wire.lastValue (Wire.valWords s) s.prev s.n.toNat else s.prev) ∧
      (∀ i, i < s.n.toNat →
        ∀ k, k < width (Wire.toStore zig delta (Wire.valWords s) s.prev i) →
          Memory.read t.enc
              (Wire.encodedOffset zig delta (Wire.valWords s) s.prev s.n.toNat i + k) =
            (Wire.toStore zig delta (Wire.valWords s) s.prev i).extractLsb' (8 * k) 8) ∧
      (∀ g, g < ceil4 s.n.toNat →
        (Memory.read t.enc g).toNat =
          Wire.controlByte zig delta (Wire.valWords s) s.prev s.n.toNat g) ∧
      (∀ a, Wire.encodedSize zig delta s ≤ a → Memory.read t.enc a = Memory.read s.enc a) ∧
      t = { s with status := t.status, result := t.result, prev := t.prev, enc := t.enc,
                   hidden := t.hidden }

/-- 42_scalar_operations.md R102, R104, R106, R108, R110, 30_encoding.md R55: a decode that has all its
bytes writes exactly the values the wire format gives them, whatever the bytes are and under either
engine; `RESULT` is the number of bytes used and, with delta, `PREV` the last value. -/
def Obligations.DecodeReadsTheWireFormat : Prop :=
  ∀ (zig delta : Bool) (s : State), Admitted s → Wire.decodedSize s ≤ s.encLen.toNat →
    ∃ t, exec (.decoder zig delta) s = .next t ∧
      t.status = Status.completed s.status ∧
      t.result.toNat = Wire.decodedSize s ∧
      t.prev = (if delta then
          Wire.lastValue (Wire.valueAt zig delta (Wire.encBytes s) s.n.toNat s.prev) s.prev s.n.toNat
        else s.prev) ∧
      (∀ i, i < s.n.toNat →
        Memory.read t.val i = Wire.valueAt zig delta (Wire.encBytes s) s.n.toNat s.prev i) ∧
      (∀ a, s.n.toNat ≤ a → Memory.read t.val a = Memory.read s.val a) ∧
      t = { s with status := t.status, result := t.result, prev := t.prev, val := t.val,
                   hidden := t.hidden }

/-- 42_scalar_operations.md R112: an encode with `MaxEncodedSize(N)` bytes of room, then the decode with
the same options, the same `N`, the same initial `PREV` and at least `RESULT` bytes, restores the
values, returns the same `RESULT` and leaves the same `PREV`, whatever `VEC_AVAIL` is. -/
def Obligations.EncodeThenDecodeRestores : Prop :=
  ∀ (zig delta : Bool) (s : State), Admitted s → EncodeCapacity s →
    ∃ t, exec (.encoder zig delta) s = .next t ∧ Completed t ∧
      ∀ u : State, Admitted u → u.n = s.n → u.prev = s.prev →
        t.result.toNat ≤ u.encLen.toNat →
        (∀ a, a < t.result.toNat → Memory.read u.enc a = Memory.read t.enc a) →
        ∃ r, exec (.decoder zig delta) u = .next r ∧ Completed r ∧ r.result = t.result ∧
          r.prev = t.prev ∧
          ∀ i, i < s.n.toNat → Memory.read r.val i = Memory.read s.val i

/-- 43_vector_decode.md R129: the two engines end alike, and a group step leaves what four scalar
iterations leave, but for the registers of the vector engine and the spent control byte. -/
def Obligations.VectorEngineEqualsScalarEngine : Prop :=
  (∀ s : State,
    (∃ t u, vecDecode s = .done () t ∧ scalarDecodeFrom (startDecode s) = .done () u ∧
      Wire.SameButHidden t u) ∨
    (∃ info t u, vecDecode s = .raised .encBounds info t ∧
      scalarDecodeFrom (startDecode s) = .raised .encBounds info u ∧ Wire.SameButHidden t u)) ∧
  (∀ s : State, vecGuard s = true → s.hidden.i % 4 = 0 → s.hidden.ccur < s.encLen.toNat →
    ∃ t u, groupStep s = .done () t ∧ decodeLoop 4 s = .done () u ∧ Wire.SameButHidden t u ∧
      t.hidden.i = u.hidden.i ∧ t.hidden.ccur = u.hidden.ccur ∧ t.hidden.dcur = u.hidden.dcur ∧
      t.hidden.carry = u.hidden.carry)

/-- 43_vector_decode.md R127, R128: the group loop never faults, takes none or up to `N div 4` steps, and
stops only because the guard has failed; the scalar engine then goes on from the counters and the carry it
left, at the start of a group, and it alone writes `RESULT` and `PREV`. -/
def Obligations.GroupLoopHandsOverAtTheGuard : Prop :=
  ∀ s : State, ∃ t, groupLoop (s.n.toNat / 4) (startDecode s) = .done () t ∧
    vecGuard t = false ∧ t.hidden.i % 4 = 0 ∧ t.hidden.ccur = t.hidden.i / 4 ∧
    t.hidden.i ≤ s.n.toNat ∧
    vecDecode s = scalarDecodeFrom t ∧ t.result = s.result ∧ t.prev = s.prev ∧
    (t.hidden.i = s.n.toNat → s.n.toNat % 4 = 0) ∧
    (s.encLen.toNat < ceil4 s.n.toNat + 16 → t = startDecode s)

/-- 10_state.md R22, R24: no command reads a piece of the hidden state before setting it: whatever the
hidden state holds at issue, the host sees the same end. -/
def Obligations.HiddenStateIsSetBeforeItIsRead : Prop :=
  ∀ (i : Instr) (s : State) (h : Hidden),
    ∃ t u, exec i s = .next t ∧ exec i { s with hidden := h } = .next u ∧
      u = { t with hidden := u.hidden }

/-- 44_dispatch_sizing.md R141: no result of any command depends on `VEC_AVAIL` (nor on `HAS_VEC`). -/
def Obligations.ResultsDoNotDependOnVecAvail : Prop :=
  ∀ (i : Instr) (s : State) (avail built : Bool),
    ∃ t u, exec i s = .next t ∧
      exec i { s with vecAvail := avail, cfg := { s.cfg with hasVec := built } } = .next u ∧
      u = { t with vecAvail := avail, cfg := { s.cfg with hasVec := built }, hidden := u.hidden }

/-- 10_state.md R14: a delta command that completes leaves the last absolute value in `PREV`, or what
it read if `N` = 0; the other five neither read nor write it; after a fault it is a free value. -/
def Obligations.CarryRegister : Prop :=
  (∀ (i : Instr) (s t : State), i = .encd ∨ i = .decd ∨ i = .encdz ∨ i = .decdz →
    Issuable s → exec i s = .next t → Completed t →
    t.prev = if s.n.toNat = 0 then s.prev else Memory.read t.val (s.n.toNat - 1)) ∧
  (∀ (i : Instr) (s t : State) (p : Word), i = .enc ∨ i = .dec ∨ i = .encz ∨ i = .decz ∨ i = .size →
    Issuable s → exec i s = .next t →
    (Completed t → t.prev = s.prev ∧
      ∃ h, exec i { s with prev := p } = .next { t with prev := p, hidden := h }) ∧
    (¬ Completed t → ∃ h, exec i { s with prev := p } = .next { t with hidden := h })) ∧
  (∀ (i : Instr) (s t : State), Issuable s → exec i s = .next t → ¬ Issuable t →
    t.prev = Config.freePrev s.draws)

/-- 20_memory.md R37: an encode never reads the ENC space and never writes the VAL space: run on any
other ENC contents it ends the same and writes the same bytes. That the hidden state after the two runs
is the same too rests on the model's choice that it keeps what the engine left (log entry 2). -/
def Obligations.EncodeDoesNotReadEnc : Prop :=
  ∀ (zig delta : Bool) (s : State) (other : List Host.Cell),
    ∃ t u, exec (.encoder zig delta) s = .next t ∧
      exec (.encoder zig delta) { s with enc := other } = .next u ∧
      u = { t with enc := u.enc } ∧ t.val = s.val ∧
      (Completed t → Issuable s → ∀ a, a < t.result.toNat → Memory.read u.enc a = Memory.read t.enc a)

/-- 20_memory.md R37: a decode never reads the VAL space and never writes the ENC space. That the hidden
state after the two runs is the same too rests on the model's choice that it keeps what the engine left
(log entry 2). -/
def Obligations.DecodeDoesNotReadVal : Prop :=
  ∀ (zig delta : Bool) (s : State) (other : List (Nat × Word)),
    ∃ t u, exec (.decoder zig delta) s = .next t ∧
      exec (.decoder zig delta) { s with val := other } = .next u ∧
      u = { t with val := u.val } ∧ t.enc = s.enc ∧
      (Completed t → Issuable s → ∀ i, i < s.n.toNat → Memory.read u.val i = Memory.read t.val i)

/-- 70_reset_and_hazards.md R175: a decode uses the bytes below its final `RESULT` and no others: with
other bytes behind them and any `ENC_LEN` that still covers them it ends the same; with an `ENC_LEN`
that does not, it faults `EncBounds`. -/
def Obligations.LongerSourceChangesNothing : Prop :=
  ∀ (zig delta : Bool) (s : State), Admitted s → Wire.decodedSize s ≤ s.encLen.toNat →
    (∀ (len : Cw) (bytes : List Host.Cell), Wire.decodedSize s ≤ len.toNat →
      (∀ a, a < Wire.decodedSize s → Memory.read bytes a = Memory.read s.enc a) →
      ∃ t u, exec (.decoder zig delta) s = .next t ∧ Completed t ∧
        exec (.decoder zig delta) { s with encLen := len, enc := bytes } = .next u ∧
        u = { t with encLen := len, enc := bytes, hidden := u.hidden }) ∧
    (∀ len : Cw, len.toNat < Wire.decodedSize s →
      ∃ u, exec (.decoder zig delta) { s with encLen := len } = .next u ∧
        Status.state u.status = .fault ∧ Status.cause u.status = some .encBounds)

/-- 30_encoding.md R56: with `r` = `N mod 4` not 0, an encode leaves bits [7:2r] of the last control byte
zero, and a decode ignores them: with any others there it ends the same. -/
def Obligations.UnusedControlBits : Prop :=
  ∀ (zig delta : Bool) (s : State), s.n.toNat % 4 ≠ 0 →
    (EncodeAdmitted s → Wire.encodedSize zig delta s ≤ s.encLen.toNat →
      ∃ t, exec (.encoder zig delta) s = .next t ∧ Completed t ∧
        (Memory.read t.enc (s.n.toNat / 4)).toNat < 4 ^ (s.n.toNat % 4)) ∧
    (∀ b : Byte,
      b.toNat % 4 ^ (s.n.toNat % 4) =
        (Memory.read s.enc (s.n.toNat / 4)).toNat % 4 ^ (s.n.toNat % 4) →
      ∃ t u, exec (.decoder zig delta) s = .next t ∧
        exec (.decoder zig delta) { s with enc := Memory.write s.enc (s.n.toNat / 4) b } = .next u ∧
        u = { t with enc := u.enc, hidden := u.hidden })

/-- 42_scalar_operations.md R111: `RESULT` of an encode is `ceil4(N)` plus the sum of the widths, lies
between `ceil4(N) + N` and `MaxEncodedSize(N)`, is `ceil4(N) + w*N` for values of one width, and is the
same whenever the input is. -/
def Obligations.EncodedSizes : Prop :=
  ∀ (zig delta : Bool) (s : State), EncodeAdmitted s →
    Wire.encodedSize zig delta s ≤ s.encLen.toNat →
    ∃ t, exec (.encoder zig delta) s = .next t ∧ Completed t ∧
      t.result.toNat = ceil4 s.n.toNat +
        ∑ i ∈ Finset.range s.n.toNat, width (Wire.toStore zig delta (Wire.valWords s) s.prev i) ∧
      ceil4 s.n.toNat + s.n.toNat ≤ t.result.toNat ∧
      t.result.toNat ≤ maxEncodedSize s.n.toNat ∧
      (∀ w, (∀ i, i < s.n.toNat →
          width (Wire.toStore zig delta (Wire.valWords s) s.prev i) = w) →
        t.result.toNat = ceil4 s.n.toNat + w * s.n.toNat) ∧
      (∀ u v : State, EncodeAdmitted u → u.n = s.n → (delta = true → u.prev = s.prev) →
        (∀ i, i < s.n.toNat → Memory.read u.val i = Memory.read s.val i) →
        exec (.encoder zig delta) u = .next v → Completed v → v.result = t.result)

/-- 44_dispatch_sizing.md R143: `MaxEncodedSize`: the formula, the listed values, strict growth, and the
bound it is for: no encode of `n` values is larger, and one is that large exactly when every stored
number has width 4. -/
def Obligations.MaxEncodedSizeIsTheBound : Prop :=
  (∀ n, maxEncodedSize n = (n + 3) / 4 + 4 * n) ∧
  maxEncodedSize 0 = 0 ∧ maxEncodedSize 1 = 5 ∧ maxEncodedSize 2 = 9 ∧ maxEncodedSize 3 = 13 ∧
  maxEncodedSize 4 = 17 ∧ maxEncodedSize 5 = 22 ∧ maxEncodedSize 8 = 34 ∧
  maxEncodedSize 1024 = 4352 ∧ maxEncodedSize 1000000 = 4250000 ∧
  maxEncodedSize (2 ^ 32 - 1) = 18253611004 ∧
  (∀ n, n < 2 ^ 32 → maxEncodedSize n < 2 ^ 35) ∧
  (∀ m n, m < n → maxEncodedSize m < maxEncodedSize n) ∧
  (∀ (zig delta : Bool) (val : Nat → Word) (prev : Word) (n : Nat),
    Wire.encodedOffset zig delta val prev n n ≤ maxEncodedSize n ∧
    (Wire.encodedOffset zig delta val prev n n = maxEncodedSize n ↔
      ∀ i, i < n → width (Wire.toStore zig delta val prev i) = 4))

/-- 10_state.md R17: the counters of every operation stay in bounds at every iteration, so a counter of
35 bits never wraps; after the flush the control cursor is at `ceil4(N)` (40_width_control_data.md R73). -/
def Obligations.CountersStayInBounds : Prop :=
  (∀ (s t : State) (k : Nat), k ≤ s.n.toNat → encodeLoop k (startEncode s) = .done () t →
    t.hidden.i = k ∧ t.hidden.ccur ≤ ceil4 s.n.toNat ∧ ceil4 s.n.toNat ≤ t.hidden.dcur ∧
      t.hidden.dcur ≤ ceil4 s.n.toNat + 4 * s.n.toNat ∧ t.hidden.dcur < 2 ^ 35) ∧
  (∀ (s t u : State), encodeLoop s.n.toNat (startEncode s) = .done () t →
    ctlFlush t = .done () u → u.hidden.ccur = ceil4 s.n.toNat ∧ u.hidden.dcur = t.hidden.dcur) ∧
  (∀ (s t u : State) (g k : Nat), groupLoop g (startDecode s) = .done () t →
    t.hidden.i + k ≤ s.n.toNat → decodeLoop k t = .done () u →
    u.hidden.i = t.hidden.i + k ∧ u.hidden.ccur ≤ ceil4 s.n.toNat ∧
      ceil4 s.n.toNat ≤ u.hidden.dcur ∧
      u.hidden.dcur ≤ ceil4 s.n.toNat + 4 * s.n.toNat ∧ u.hidden.dcur < 2 ^ 35)

/-! ### Primitives -/

/-- 40_width_control_data.md R70, R71: the classifier, as ranges and as the most significant non-zero
byte; its boundary values; that it is monotone. -/
def Obligations.WidthClassifier : Prop :=
  (∀ v : Word,
    (width v = 1 ↔ v.toNat < 2 ^ 8) ∧
    (width v = 2 ↔ 2 ^ 8 ≤ v.toNat ∧ v.toNat < 2 ^ 16) ∧
    (width v = 3 ↔ 2 ^ 16 ≤ v.toNat ∧ v.toNat < 2 ^ 24) ∧
    (width v = 4 ↔ 2 ^ 24 ≤ v.toNat) ∧
    (code v).toNat = width v - 1 ∧
    v.toNat < 2 ^ (8 * width v) ∧
    (v ≠ 0#32 → v.toNat / 256 ^ (width v - 1) % 256 ≠ 0)) ∧
  (∀ a b : Word, a.toNat ≤ b.toNat → width a ≤ width b) ∧
  (width 0x00000000#32 = 1 ∧ width 0x000000FF#32 = 1 ∧ width 0x00000100#32 = 2 ∧
    width 0x0000FFFF#32 = 2 ∧ width 0x00010000#32 = 3 ∧ width 0x00FFFFFF#32 = 3 ∧
    width 0x01000000#32 = 4 ∧ width 0xFFFFFFFF#32 = 4)

/-- 41_delta_zigzag.md R94 to R96: the zigzag map and its inverse as numbers, that they are inverse to each
other, and that a value of `k` bytes stays within width `k`. -/
def Obligations.ZigzagIsABijection : Prop :=
  (∀ s : Word, ((zigEnc s).toNat : Int) = if 0 ≤ s.toInt then 2 * s.toInt else -2 * s.toInt - 1) ∧
  (∀ v : Word, (zigDec v).toInt =
    if v.toNat % 2 = 0 then ((v.toNat / 2 : Nat) : Int) else -(((v.toNat + 1) / 2 : Nat) : Int)) ∧
  (∀ s : Word, zigDec (zigEnc s) = s) ∧
  (∀ v : Word, zigEnc (zigDec v) = v) ∧
  (∀ (s : Word) (k : Nat), 1 ≤ k → k ≤ 4 → -(2 : Int) ^ (8 * k - 1) ≤ s.toInt →
    s.toInt < (2 : Int) ^ (8 * k - 1) → width (zigEnc s) ≤ k)

/-- 41_delta_zigzag.md R90, R91: the delta transform modulo 2^32, what it leaves in the carry, and that it
changes nothing else. -/
def Obligations.DeltaTransform : Prop :=
  ∀ (x : Word) (s : State),
    ((deltaEnc x s).1.toNat : Int) = ((x.toNat : Int) - s.hidden.carry.toNat) % 2 ^ 32 ∧
    (deltaEnc x s).2 = { s with hidden := { s.hidden with carry := x } } ∧
    (deltaDec x s).1.toNat = (s.hidden.carry.toNat + x.toNat) % 2 ^ 32 ∧
    (deltaDec x s).2 = { s with hidden := { s.hidden with carry := (deltaDec x s).1 } }

/-- 41_delta_zigzag.md R92, R93, R97: undoing a stored number from the carry it was made with gives back
the value and leaves it as the carry, under every option. -/
def Obligations.TransformsUndoEachOther : Prop :=
  ∀ (x : Word) (s t : State), t.hidden.carry = s.hidden.carry → t.hidden.zig = s.hidden.zig →
    t.hidden.delta = s.hidden.delta →
    (decodeTransform (encodeTransform x s).1 t).1 = x ∧
    (decodeTransform (encodeTransform x s).1 t).2.hidden.carry =
      (encodeTransform x s).2.hidden.carry ∧
    (encodeTransform x s).2.hidden.carry = if s.hidden.delta then x else s.hidden.carry

/-- 30_encoding.md R51: a control byte is `c0 + 4*c1 + 16*c2 + 64*c3`, and its four codes determine it. -/
def Obligations.ControlByteLayout : Prop :=
  (∀ cb : Byte, cb.toNat = (slotCode cb 0).toNat + 4 * (slotCode cb 1).toNat +
    16 * (slotCode cb 2).toNat + 64 * (slotCode cb 3).toNat) ∧
  (∀ (cb : Byte) (j : Nat), j < 4 → slotCode cb j = cb.extractLsb' (2 * j) 2)

/-- 20_memory.md R36: an access is admitted exactly when it ends at or below `ENC_LEN`; otherwise no byte
moves and the fault is `EncBounds` with the offset of the access; under the guard the window read is
always admitted. -/
def Obligations.EncAccessesAreChecked : Prop :=
  (∀ (a k : Nat) (s : State),
    (a + k ≤ s.encLen.toNat → memRead a k s = .done (Memory.readLE s.enc a k) s) ∧
    (s.encLen.toNat < a + k → memRead a k s = .raised .encBounds a s)) ∧
  (∀ (a k : Nat) (v : Word) (s : State),
    (a + k ≤ s.encLen.toNat →
      memWrite a k v s = .done () { s with enc := Memory.writeLE s.enc a k v }) ∧
    (s.encLen.toNat < a + k → memWrite a k v s = .raised .encBounds a s)) ∧
  (∀ s : State, vecGuard s = true → ∃ w, memRead s.hidden.dcur 16 s = .done w s)

/-- 40_width_control_data.md R76, R77, 20_memory.md R33: a data put writes exactly `w` bytes, least
significant first, and advances the cursor; a data get reads exactly `w`, zero-extended, and advances
it; either faults `EncBounds` at the cursor, with nothing written, when they do not fit. -/
def Obligations.DataStreamAccesses : Prop :=
  ∀ (u : Word) (w : Nat) (s : State), 1 ≤ w → w ≤ 4 →
    (s.hidden.dcur + w ≤ s.encLen.toNat →
      (∃ t, dataPut u w s = .done () t ∧
        t = { s with enc := t.enc, hidden := { s.hidden with dcur := s.hidden.dcur + w } } ∧
        (∀ k, k < w → Memory.read t.enc (s.hidden.dcur + k) = u.extractLsb' (8 * k) 8) ∧
        (∀ a, a < s.hidden.dcur ∨ s.hidden.dcur + w ≤ a →
          Memory.read t.enc a = Memory.read s.enc a)) ∧
      (∃ v, dataGet w s =
          .done v { s with hidden := { s.hidden with dcur := s.hidden.dcur + w } } ∧
        (∀ k, k < w → v.extractLsb' (8 * k) 8 = Memory.read s.enc (s.hidden.dcur + k)) ∧
        v.toNat < 2 ^ (8 * w))) ∧
    (s.encLen.toNat < s.hidden.dcur + w →
      dataPut u w s = .raised .encBounds s.hidden.dcur s ∧
      dataGet w s = .raised .encBounds s.hidden.dcur s)

/-- 40_width_control_data.md R72: `CtlPut` gathers the code in slot `i mod 4` of `acc` and writes the byte
when the group is full. -/
def Obligations.ControlPut : Prop :=
  ∀ (c : WidthCode) (s : State),
    (s.hidden.i % 4 ≠ 3 →
      ctlPut c s = .done () { s with hidden := { s.hidden with
        acc := s.hidden.acc ||| (c.setWidth 8 <<< (2 * (s.hidden.i % 4))) } }) ∧
    (s.hidden.i % 4 = 3 → s.hidden.ccur < s.encLen.toNat →
      ∃ t, ctlPut c s = .done () t ∧
        Memory.read t.enc s.hidden.ccur = s.hidden.acc ||| (c.setWidth 8 <<< 6) ∧
        (∀ a, a ≠ s.hidden.ccur → Memory.read t.enc a = Memory.read s.enc a) ∧
        t = { s with enc := t.enc,
                     hidden := { s.hidden with ccur := s.hidden.ccur + 1, acc := 0#8 } }) ∧
    (s.hidden.i % 4 = 3 → s.encLen.toNat ≤ s.hidden.ccur →
      ∃ t, ctlPut c s = .raised .encBounds s.hidden.ccur t)

/-- 40_width_control_data.md R74: `CtlGet` reads a control byte at the start of a group and hands out the
codes from the low end. -/
def Obligations.ControlGet : Prop :=
  ∀ s : State,
    (s.hidden.i % 4 ≠ 0 →
      ctlGet s = .done (s.hidden.cb.extractLsb' 0 2)
        { s with hidden := { s.hidden with cb := s.hidden.cb >>> 2 } }) ∧
    (s.hidden.i % 4 = 0 → s.hidden.ccur < s.encLen.toNat →
      ctlGet s = .done (slotCode (Memory.read s.enc s.hidden.ccur) 0)
        { s with hidden := { s.hidden with
            cb := Memory.read s.enc s.hidden.ccur >>> 2
            ccur := s.hidden.ccur + 1 } }) ∧
    (s.hidden.i % 4 = 0 → s.encLen.toNat ≤ s.hidden.ccur →
      ctlGet s = .raised .encBounds s.hidden.ccur s)

/-- 43_vector_decode.md R120: `ByteCount`. -/
def Obligations.ByteCountTable : Prop :=
  ∀ cb : Byte,
    byteCount cb = 4 + (cb.extractLsb' 0 2).toNat + (cb.extractLsb' 2 2).toNat +
      (cb.extractLsb' 4 2).toNat + (cb.extractLsb' 6 2).toNat ∧
    4 ≤ byteCount cb ∧ byteCount cb ≤ 16

/-- 43_vector_decode.md R121: a row of `ShuffleMask`: its entries by lane and byte, and that those that
are not the sentinel are, in order, exactly 0, 1, ..., `ByteCount - 1`. -/
def Obligations.ShuffleMaskTable : Prop :=
  (∀ (cb : Byte) (j b : Nat), j < 4 → b < 4 →
    shuffleMask cb (4 * j + b) =
      if b < (cb.extractLsb' (2 * j) 2).toNat + 1 then
        some ((∑ k ∈ Finset.range j, ((cb.extractLsb' (2 * k) 2).toNat + 1)) + b)
      else none) ∧
  (∀ cb : Byte, (List.range 16).filterMap (shuffleMask cb) = List.range (byteCount cb)) ∧
  (∀ (cb : Byte) (p k : Nat), p < 16 → shuffleMask cb p = some k → k < 16)

/-- 43_vector_decode.md R123: lane `j` of the permuted window is what the scalar engine's `j`-th data get
of the group returns, and `ByteCount` is what the four of them add to the cursor. -/
def Obligations.PermuteAgreesWithDataGet : Prop :=
  ∀ (s : State) (cb : Byte), s.hidden.dcur + 16 ≤ s.encLen.toNat →
    ∃ t0 t1 t2 t3,
      dataGet ((slotCode cb 0).toNat + 1) s =
        .done (permute (BitVec.ofNat 128 (Memory.readLE s.enc s.hidden.dcur 16))
          (shuffleMask cb)).l0 t0 ∧
      dataGet ((slotCode cb 1).toNat + 1) t0 =
        .done (permute (BitVec.ofNat 128 (Memory.readLE s.enc s.hidden.dcur 16))
          (shuffleMask cb)).l1 t1 ∧
      dataGet ((slotCode cb 2).toNat + 1) t1 =
        .done (permute (BitVec.ofNat 128 (Memory.readLE s.enc s.hidden.dcur 16))
          (shuffleMask cb)).l2 t2 ∧
      dataGet ((slotCode cb 3).toNat + 1) t2 =
        .done (permute (BitVec.ofNat 128 (Memory.readLE s.enc s.hidden.dcur 16))
          (shuffleMask cb)).l3 t3 ∧
      t3.hidden.dcur = s.hidden.dcur + byteCount cb

/-- 43_vector_decode.md R125: the prefix sum gives the inclusive running sums from the carry, its last
lane being the carry-out. -/
def Obligations.PrefixSumIsTheRunningSum : Prop :=
  ∀ (carry : Word) (v : Lanes),
    (prefixSum carry v).l0 = carry + v.l0 ∧
    (prefixSum carry v).l1 = carry + v.l0 + v.l1 ∧
    (prefixSum carry v).l2 = carry + v.l0 + v.l1 + v.l2 ∧
    (prefixSum carry v).l3 = carry + v.l0 + v.l1 + v.l2 + v.l3

/-! ### The machine between commands -/

/-- The invariant holds at reset (10_state.md R24; the empty spaces are log entry 3). -/
def Obligations.InvariantHoldsAtReset : Prop := Inv State.reset

/-- Every step keeps the invariant: `STATUS` stays a legal word (10_state.md R19), both spaces stay in
canonical form within their ranges, the parameters stay admitted. -/
def Obligations.EveryStepKeepsTheInvariant : Prop :=
  ∀ s t : State, Inv s → Machine.step s = .next t → Inv t

/-- Two spaces in canonical form that read alike are equal, so equality of states is equality of what
can be read. -/
def Obligations.CanonicalSpacesAreEqualWhenTheyReadAlike : Prop :=
  ∀ (w : Nat) (m m' : List (Nat × BitVec w)), Memory.wf m → Memory.wf m' →
    (∀ a, Memory.read m a = Memory.read m' a) → m = m'

/-- 10_state.md R24: after reset the block is in `IDLE` with no cause and `STATUS` reads 0. That the other
registers read 0 is the model's choice (log entry 1), as are the empty spaces (log entry 3). -/
def Obligations.ResetState : Prop :=
  State.reset.status = 0x00#8 ∧ Status.state State.reset.status = .idle ∧
  Status.cause State.reset.status = none ∧
  State.reset.n = 0#32 ∧ State.reset.prev = 0#32 ∧ State.reset.encLen = 0#35 ∧
  State.reset.result = 0#35 ∧ State.reset.finfo = 0#35 ∧
  (∀ a, Memory.read State.reset.enc a = 0#8) ∧ (∀ i, Memory.read State.reset.val i = 0#32)

/-- 70_reset_and_hazards.md R170: the reset event puts the registers where they are after power on, in
every state, and touches neither the spaces nor the inputs nor the parameters. The registers' values
but for `STATUS` are the model's choice (log entries 1 and 2). -/
def Obligations.ResetEvent : Prop :=
  ∀ (s : State) (rest : List HostMove), s.host = .reset :: rest →
    ∃ t, Machine.step s = .next t ∧ t.status = 0x00#8 ∧
      t = { State.resetWith s.cfg with
              enc := s.enc, val := s.val, vecAvail := s.vecAvail, host := rest,
              readData := s.readData, draws := s.draws }

/-- 10_state.md R11, R24: the host's register writes and reads, and that the block waits when no move is
left. That a write drops the bits above the register's width is the model's choice (log entry 12). -/
def Obligations.HostRegisterAccess : Prop :=
  (∀ s : State, s.host = [] → Machine.step s = .next s) ∧
  (∀ (s : State) (v : Cw) (rest : List HostMove),
    (s.host = .write .n v :: rest → Machine.step s = .next { s with
      n := v.setWidth 32, written := { s.written with n := true }, host := rest }) ∧
    (s.host = .write .prev v :: rest → Machine.step s = .next { s with
      prev := v.setWidth 32, written := { s.written with prev := true }, host := rest }) ∧
    (s.host = .write .encLen v :: rest → Machine.step s = .next { s with
      encLen := v, written := { s.written with encLen := true }, host := rest }) ∧
    (s.host = .write .status v :: rest → Machine.step s = .next { s with host := rest }) ∧
    (s.host = .write .result v :: rest → Machine.step s = .next { s with host := rest }) ∧
    (s.host = .write .finfo v :: rest → Machine.step s = .next { s with host := rest })) ∧
  (∀ (s : State) (rest : List HostMove),
    (s.host = .read .n :: rest →
      ∃ t, Machine.step s = .next t ∧ t = { s with host := rest, readData := t.readData } ∧
        t.readData.toNat = s.n.toNat) ∧
    (s.host = .read .prev :: rest →
      ∃ t, Machine.step s = .next t ∧ t = { s with host := rest, readData := t.readData } ∧
        t.readData.toNat = s.prev.toNat) ∧
    (s.host = .read .encLen :: rest →
      Machine.step s = .next { s with host := rest, readData := s.encLen }) ∧
    (s.host = .read .status :: rest →
      ∃ t, Machine.step s = .next t ∧ t = { s with host := rest, readData := t.readData } ∧
        t.readData.toNat = s.status.toNat % 16) ∧
    (s.host = .read .result :: rest →
      Machine.step s = .next { s with host := rest, readData := s.result }) ∧
    (s.host = .read .finfo :: rest →
      Machine.step s = .next { s with host := rest, readData := s.finfo }) ∧
    (s.host = .read .op :: rest →
      ∃ t, Machine.step s = .next t ∧
        t = { s with host := rest, readData := t.readData, draws := s.draws + 1 }))

/-- 30_encoding.md R62: the host fills a space from cell 0 on; cells past the list keep what they held;
driving `VEC_AVAIL` changes nothing else. -/
def Obligations.HostFillsTheSpaces : Prop :=
  (∀ (s : State) (bytes : List Byte) (rest : List HostMove),
    s.host = .fillEnc bytes :: rest → bytes.length ≤ Memory.encSize →
    ∃ t, Machine.step s = .next t ∧ t = { s with host := rest, enc := t.enc } ∧
      ∀ a, Memory.read t.enc a = bytes.getD a (Memory.read s.enc a)) ∧
  (∀ (s : State) (words : List Word) (rest : List HostMove),
    s.host = .fillVal words :: rest → words.length ≤ Memory.valSize →
    ∃ t, Machine.step s = .next t ∧ t = { s with host := rest, val := t.val } ∧
      ∀ i, Memory.read t.val i = words.getD i (Memory.read s.val i)) ∧
  (∀ (s : State) (b : Bool) (rest : List HostMove),
    s.host = .driveVec b :: rest → Machine.step s = .next { s with vecAvail := b, host := rest })
end

