-- ==== Sys2Proof/Laws/Codec.lean ====
section
/-! SUPPORT. Bounds of the sizes and of the classifier, and how the codes of a control byte sit in it. -/

namespace Sys2Proof.Machine

theorem width_pos (v : Word) : 1 ≤ width v := by
  unfold width; split_ifs <;> omega

theorem width_le (v : Word) : width v ≤ 4 := by
  unfold width; split_ifs <;> omega

/-- A value fits its width. -/
theorem toNat_lt_of_width (v : Word) : v.toNat < 256 ^ width v := by
  have := v.isLt
  unfold width; split_ifs <;> omega

theorem ceil4_le (n : Nat) : ceil4 n ≤ n := by
  unfold ceil4; omega

theorem ceil4_mono {m n : Nat} (h : m ≤ n) : ceil4 m ≤ ceil4 n := by
  unfold ceil4; omega

/-- The control byte of value `i` is one of the `ceil4 n`. -/
theorem div_lt_ceil4 {i n : Nat} (h : i < n) : i / 4 < ceil4 n := by
  unfold ceil4; omega

theorem slotCode_le (cb : Byte) (j : Nat) : (slotCode cb j).toNat ≤ 3 := by
  have := (slotCode cb j).isLt; omega

/-- `ByteCount` is where a fifth slot would start. -/
theorem byteCount_eq_slotOffset (cb : Byte) : byteCount cb = slotOffset cb 4 := by
  simp [byteCount, slotOffset]

/-- The slots of a group end at or before the window does. -/
theorem slotOffset_le (cb : Byte) (j : Nat) : slotOffset cb j ≤ 4 * j := by
  induction j with
  | zero => simp [slotOffset]
  | succ j ih => have := slotCode_le cb j; simp only [slotOffset]; omega

end Sys2Proof.Machine
end

