-- ==== Sys2Proof/Laws/Memory.lean ====
section
/-! SUPPORT. The laws of the spaces: read after write, what the wider operations leave, and that every
operation keeps the canonical form and the range. -/

namespace Sys2Proof.Machine

variable {w : Nat}

@[simp] theorem Memory.read_nil (a : Nat) : Memory.read ([] : List (Nat × BitVec w)) a = 0#w := rfl

theorem Memory.read_cons (c : Nat × BitVec w) (m : List (Nat × BitVec w)) (a : Nat) :
    Memory.read (c :: m) a = if c.1 = a then c.2 else Memory.read m a := rfl

theorem Memory.read_erase_self (m : List (Nat × BitVec w)) (a : Nat) :
    Memory.read (Memory.erase m a) a = 0#w := by
  induction m with
  | nil => rfl
  | cons c m ih =>
    by_cases h : c.1 = a
    · simpa [Memory.erase, h] using ih
    · have : Memory.erase (c :: m) a = c :: Memory.erase m a := by simp [Memory.erase, h]
      rw [this, Memory.read_cons, if_neg h, ih]

theorem Memory.read_erase_ne (m : List (Nat × BitVec w)) {a b : Nat} (hab : b ≠ a) :
    Memory.read (Memory.erase m a) b = Memory.read m b := by
  induction m with
  | nil => rfl
  | cons c m ih =>
    by_cases h : c.1 = a
    · have : Memory.erase (c :: m) a = Memory.erase m a := by simp [Memory.erase, h]
      rw [this, ih, Memory.read_cons, if_neg (by omega)]
    · have : Memory.erase (c :: m) a = c :: Memory.erase m a := by simp [Memory.erase, h]
      rw [this, Memory.read_cons, Memory.read_cons, ih]

theorem Memory.not_mem_erase (m : List (Nat × BitVec w)) (a : Nat) :
    ∀ c ∈ Memory.erase m a, c.1 ≠ a := by
  simp [Memory.erase]

theorem Memory.read_insert (m : List (Nat × BitVec w)) (a b : Nat) (v : BitVec w)
    (hm : ∀ c ∈ m, c.1 ≠ a) :
    Memory.read (Memory.insert m a v) b = if b = a then v else Memory.read m b := by
  induction m with
  | nil => simp [Memory.insert, Memory.read, eq_comm]
  | cons c m ih =>
    have hc : c.1 ≠ a := hm c (by simp)
    have ih := ih fun d hd => hm d (by simp [hd])
    unfold Memory.insert
    split
    · simp [Memory.read, eq_comm]
    · rw [Memory.read_cons, ih, Memory.read_cons]
      by_cases hb : b = a <;> simp [hb, hc]

/-- Read after write. -/
theorem Memory.read_write (m : List (Nat × BitVec w)) (a b : Nat) (v : BitVec w) :
    Memory.read (Memory.write m a v) b = if b = a then v else Memory.read m b := by
  unfold Memory.write
  split
  · next hv =>
    by_cases hb : b = a
    · subst hb; simp [Memory.read_erase_self, hv]
    · simp [hb, Memory.read_erase_ne m hb]
  · rw [Memory.read_insert _ _ _ _ (Memory.not_mem_erase m a)]
    by_cases hb : b = a
    · simp [hb]
    · simp [hb, Memory.read_erase_ne m hb]

@[simp] theorem Memory.read_write_self (m : List (Nat × BitVec w)) (a : Nat) (v : BitVec w) :
    Memory.read (Memory.write m a v) a = v := by simp [Memory.read_write]

theorem Memory.read_write_ne (m : List (Nat × BitVec w)) {a b : Nat} (v : BitVec w) (h : b ≠ a) :
    Memory.read (Memory.write m a v) b = Memory.read m b := by simp [Memory.read_write, h]

/-- What a fill leaves. -/
theorem Memory.read_fill (m : List (Nat × BitVec w)) (n : Nat) (f : Nat → BitVec w) (a : Nat) :
    Memory.read (Memory.fill m n f) a = if a < n then f a else Memory.read m a := by
  induction n with
  | zero => simp [Memory.fill]
  | succ n ih =>
    rw [Memory.fill, Memory.read_write, ih]
    by_cases h : a = n
    · simp [h]
    · by_cases h' : a < n
      · simp [h, h', Nat.lt_succ_of_lt h']
      · simp [h, h', show ¬ a < n + 1 by omega]

/-- What a list write leaves. -/
theorem Memory.read_writeList (vs : List (BitVec w)) (m : List (Nat × BitVec w)) (a b : Nat) :
    Memory.read (Memory.writeList m a vs) b =
      if b < a then Memory.read m b else vs.getD (b - a) (Memory.read m b) := by
  induction vs generalizing m a with
  | nil => simp [Memory.writeList]
  | cons v vs ih =>
    rw [Memory.writeList, ih, Memory.read_write]
    rcases Nat.lt_trichotomy b a with h | h | h
    · simp [h, Nat.lt_succ_of_lt h, Nat.ne_of_lt h]
    · simp [h]
    · rw [if_neg (by omega), if_neg (by omega), if_neg (by omega),
        show b - a = (b - (a + 1)) + 1 by omega, List.getD_cons_succ]

/-- What a wide write leaves: byte `j` of the value at `a + j`. -/
theorem Memory.read_writeLE (m : List (Nat × Byte)) (a k : Nat) (v : Word) (b : Nat) :
    Memory.read (Memory.writeLE m a k v) b =
      if a ≤ b ∧ b < a + k then (v >>> (8 * (b - a))).setWidth 8 else Memory.read m b := by
  induction k generalizing m a v with
  | zero => simp [Memory.writeLE, show ¬ (a ≤ b ∧ b < a) by omega]
  | succ k ih =>
    rw [Memory.writeLE, ih, Memory.read_write]
    by_cases h : a + 1 ≤ b ∧ b < a + 1 + k
    · rw [if_pos h, if_pos (by omega), ← BitVec.shiftRight_add]
      congr 2; omega
    · rw [if_neg h]
      by_cases hb : b = a
      · subst hb; simp
      · rw [if_neg hb, if_neg (by omega)]

/-- A wide read depends only on the bytes it covers. -/
theorem Memory.readLE_congr (m m' : List (Nat × Byte)) (a k : Nat)
    (h : ∀ b, a ≤ b → b < a + k → Memory.read m b = Memory.read m' b) :
    Memory.readLE m a k = Memory.readLE m' a k := by
  induction k generalizing a with
  | zero => rfl
  | succ k ih =>
    rw [Memory.readLE, Memory.readLE, h a (by omega) (by omega),
      ih (a + 1) fun b h1 h2 => h b (by omega) (by omega)]

theorem Memory.readLE_lt (m : List (Nat × Byte)) (a k : Nat) : Memory.readLE m a k < 256 ^ k := by
  induction k generalizing a with
  | zero => simp [Memory.readLE]
  | succ k ih =>
    have := ih (a + 1)
    have hb := (Memory.read m a).isLt
    rw [Memory.readLE, Nat.pow_succ]
    omega

/-- Byte `j` of a wide read is the byte at `a + j`. -/
theorem Memory.readLE_byte (m : List (Nat × Byte)) (a k j : Nat) (h : j < k) :
    Memory.readLE m a k / 256 ^ j % 256 = (Memory.read m (a + j)).toNat := by
  induction k generalizing a j with
  | zero => omega
  | succ k ih =>
    have hb := (Memory.read m a).isLt
    rw [Memory.readLE]
    cases j with
    | zero => simp; omega
    | succ j =>
      rw [Nat.pow_succ', ← Nat.div_div_eq_div_mul,
        show ((Memory.read m a).toNat + 256 * Memory.readLE m (a + 1) k) / 256 =
          Memory.readLE m (a + 1) k by omega, ih (a + 1) j (by omega)]
      congr 2; omega

/-! ### The canonical form -/

theorem Memory.wf_erase {m : List (Nat × BitVec w)} (a : Nat) (h : Memory.wf m) :
    Memory.wf (Memory.erase m a) :=
  ⟨h.1.filter _, fun c hc => h.2 c (List.mem_of_mem_filter hc)⟩

theorem Memory.mem_insert {m : List (Nat × BitVec w)} {a : Nat} {v : BitVec w} {c : Nat × BitVec w} :
    c ∈ Memory.insert m a v ↔ c = (a, v) ∨ c ∈ m := by
  induction m with
  | nil => simp [Memory.insert]
  | cons d m ih =>
    unfold Memory.insert
    split
    · simp
    · simp [ih]; tauto

theorem Memory.wf_insert {m : List (Nat × BitVec w)} {a : Nat} {v : BitVec w} (h : Memory.wf m)
    (hm : ∀ c ∈ m, c.1 ≠ a) (hv : v ≠ 0#w) : Memory.wf (Memory.insert m a v) := by
  refine ⟨?_, fun c hc => ?_⟩
  · induction m with
    | nil => simp [Memory.insert]
    | cons d m ih =>
      obtain ⟨h1, h2⟩ := h
      rw [List.pairwise_cons] at h1
      unfold Memory.insert
      split
      · next hlt =>
        refine List.pairwise_cons.2 ⟨fun c hc => ?_, List.pairwise_cons.2 h1⟩
        rcases List.mem_cons.1 hc with rfl | hc
        · exact hlt
        · exact Nat.lt_trans hlt (h1.1 c hc)
      · next hge =>
        have hd := hm d (by simp)
        refine List.pairwise_cons.2 ⟨fun c hc => ?_,
          ih ⟨h1.2, fun c hc => h2 c (by simp [hc])⟩ fun c hc => hm c (by simp [hc])⟩
        rcases Memory.mem_insert.1 hc with rfl | hc
        · simp only at hge ⊢; omega
        · exact h1.1 c hc
  · rcases Memory.mem_insert.1 hc with rfl | hc
    · exact hv
    · exact h.2 c hc

theorem Memory.wf_write {m : List (Nat × BitVec w)} (a : Nat) (v : BitVec w) (h : Memory.wf m) :
    Memory.wf (Memory.write m a v) := by
  unfold Memory.write
  split
  · exact Memory.wf_erase a h
  · next hv => exact Memory.wf_insert (Memory.wf_erase a h) (Memory.not_mem_erase m a) hv

theorem Memory.wf_fill {m : List (Nat × BitVec w)} (n : Nat) (f : Nat → BitVec w) (h : Memory.wf m) :
    Memory.wf (Memory.fill m n f) := by
  induction n with
  | zero => exact h
  | succ n ih => exact Memory.wf_write n (f n) ih

theorem Memory.wf_writeList (vs : List (BitVec w)) {m : List (Nat × BitVec w)} (a : Nat)
    (h : Memory.wf m) : Memory.wf (Memory.writeList m a vs) := by
  induction vs generalizing m a with
  | nil => exact h
  | cons v vs ih => exact ih (a + 1) (Memory.wf_write a v h)

theorem Memory.wf_writeLE {m : List (Nat × Byte)} (a k : Nat) (v : Word) (h : Memory.wf m) :
    Memory.wf (Memory.writeLE m a k v) := by
  induction k generalizing m a v with
  | zero => exact h
  | succ k ih => exact ih (a + 1) (v >>> 8) (Memory.wf_write a _ h)

/-! ### The range -/

theorem Memory.below_write {m : List (Nat × BitVec w)} {a n : Nat} (v : BitVec w)
    (h : Memory.below m n) (ha : a < n) : Memory.below (Memory.write m a v) n := by
  have he : Memory.below (Memory.erase m a) n := fun c hc => h c (List.mem_of_mem_filter hc)
  unfold Memory.write
  split
  · exact he
  · intro c hc
    rcases Memory.mem_insert.1 hc with rfl | hc
    · exact ha
    · exact he c hc

theorem Memory.below_fill {m : List (Nat × BitVec w)} {k n : Nat} (f : Nat → BitVec w)
    (h : Memory.below m n) (hk : k ≤ n) : Memory.below (Memory.fill m k f) n := by
  induction k with
  | zero => exact h
  | succ k ih => exact Memory.below_write (f k) (ih (by omega)) (by omega)

theorem Memory.below_writeList (vs : List (BitVec w)) {m : List (Nat × BitVec w)} {a n : Nat}
    (h : Memory.below m n) (hk : a + vs.length ≤ n) : Memory.below (Memory.writeList m a vs) n := by
  induction vs generalizing m a with
  | nil => exact h
  | cons v vs ih =>
    simp only [List.length_cons] at hk
    exact ih (Memory.below_write v h (by omega)) (by omega)

theorem Memory.below_writeLE {m : List (Nat × Byte)} {a k n : Nat} (v : Word)
    (h : Memory.below m n) (hk : a + k ≤ n) : Memory.below (Memory.writeLE m a k v) n := by
  induction k generalizing m a v with
  | zero => exact h
  | succ k ih => exact ih (v >>> 8) (Memory.below_write _ h (by omega)) (by omega)

/-- Reset's spaces are in canonical form. -/
theorem Memory.wf_reset : Memory.wf State.reset.enc ∧ Memory.wf State.reset.val := by
  simp [State.reset, State.resetWith, Memory.wf]

end Sys2Proof.Machine
end

