-- ==== Sys2Proof/Laws/Flags.lean ====
section
/-! SUPPORT. The fields of `STATUS`: what a write of one leaves of the others. -/

namespace Sys2Proof.Machine

@[simp] theorem Status.state_withState (v : Byte) (st : RunState) :
    Status.state (Status.withState v st) = st := by
  revert v; cases st <;> decide

@[simp] theorem Status.cause_withState (v : Byte) (st : RunState) :
    Status.cause (Status.withState v st) = Status.cause v := by
  revert v; cases st <;> decide

@[simp] theorem Status.state_withCause (v : Byte) (c : Option Cause) :
    Status.state (Status.withCause v c) = Status.state v := by
  revert v; rcases c with _ | (_ | _ | _) <;> decide

@[simp] theorem Status.cause_withCause (v : Byte) (c : Option Cause) :
    Status.cause (Status.withCause v c) = c := by
  revert v; rcases c with _ | (_ | _ | _) <;> decide

theorem Status.reserved_withState (v : Byte) (st : RunState) :
    (Status.withState v st).extractLsb' 4 4 = v.extractLsb' 4 4 := by
  revert v; cases st <;> decide

theorem Status.reserved_withCause (v : Byte) (c : Option Cause) :
    (Status.withCause v c).extractLsb' 4 4 = v.extractLsb' 4 4 := by
  revert v; rcases c with _ | (_ | _ | _) <;> decide

/-- Normal completion forgets that the command was issued. -/
@[simp] theorem Status.completed_issued (v : Byte) :
    Status.completed (Status.issued v) = Status.completed v := by
  revert v; decide

/-- So does a fault. -/
@[simp] theorem Status.faulted_issued (v : Byte) (c : Cause) :
    Status.faulted (Status.issued v) c = Status.faulted v c := by
  revert v; cases c <;> decide

@[simp] theorem Status.state_completed (v : Byte) : Status.state (Status.completed v) = .done := by
  simp [Status.completed]

@[simp] theorem Status.cause_completed (v : Byte) : Status.cause (Status.completed v) = none := by
  simp [Status.completed]

@[simp] theorem Status.state_faulted (v : Byte) (c : Cause) :
    Status.state (Status.faulted v c) = .fault := by
  simp [Status.faulted]

@[simp] theorem Status.cause_faulted (v : Byte) (c : Cause) :
    Status.cause (Status.faulted v c) = some c := by
  simp [Status.faulted]

@[simp] theorem Status.reserved_completed (v : Byte) :
    (Status.completed v).extractLsb' 4 4 = v.extractLsb' 4 4 := by
  rw [Status.completed, Status.reserved_withState, Status.reserved_withCause]

@[simp] theorem Status.reserved_faulted (v : Byte) (c : Cause) :
    (Status.faulted v c).extractLsb' 4 4 = v.extractLsb' 4 4 := by
  rw [Status.faulted, Status.reserved_withState, Status.reserved_withCause]

end Sys2Proof.Machine
end

