-- ==== Sys2Proof/Laws/Ops.lean ====
section
/-! SUPPORT. What each shared operation can do, said once. -/

namespace Sys2Proof.Machine

@[simp] theorem Run.bind_done {α β : Type} (a : α) (s : State) (f : α → State → Run β) :
    (Run.done a s).bind f = f a s := rfl

@[simp] theorem Run.bind_raised {α β : Type} (c : Cause) (i : Nat) (s : State)
    (f : α → State → Run β) : (Run.raised c i s : Run α).bind f = Run.raised c i s := rfl

/-- A sequence ends normally exactly when both parts do. -/
theorem Run.bind_eq_done {α β : Type} {r : Run α} {f : α → State → Run β} {b : β} {t : State} :
    r.bind f = .done b t ↔ ∃ a s, r = .done a s ∧ f a s = .done b t := by
  cases r <;> simp

/-- A sequence raises in its first part or in its second. -/
theorem Run.bind_eq_raised {α β : Type} {r : Run α} {f : α → State → Run β} {c : Cause} {i : Nat}
    {t : State} :
    r.bind f = .raised c i t ↔
      r = .raised c i t ∨ ∃ a s, r = .done a s ∧ f a s = .raised c i t := by
  cases r <;> simp

theorem Run.bind_assoc {α β γ : Type} (r : Run α) (f : α → State → Run β) (g : β → State → Run γ) :
    (r.bind f).bind g = r.bind fun a s => (f a s).bind g := by
  cases r <;> rfl

theorem memRead_eq_done {a k v : Nat} {s t : State} :
    memRead a k s = .done v t ↔
      a + k ≤ s.encLen.toNat ∧ v = Memory.readLE s.enc a k ∧ t = s := by
  unfold memRead; split <;> simp_all [eq_comm]

theorem memRead_eq_raised {a k info : Nat} {c : Cause} {s t : State} :
    memRead a k s = .raised c info t ↔
      s.encLen.toNat < a + k ∧ c = .encBounds ∧ info = a ∧ t = s := by
  unfold memRead; split <;> simp_all [eq_comm]

theorem memWrite_eq_done {a k : Nat} {v : Word} {s t : State} :
    memWrite a k v s = .done () t ↔
      a + k ≤ s.encLen.toNat ∧ t = { s with enc := Memory.writeLE s.enc a k v } := by
  unfold memWrite; split <;> simp_all [eq_comm]

theorem memWrite_eq_raised {a k info : Nat} {v : Word} {c : Cause} {s t : State} :
    memWrite a k v s = .raised c info t ↔
      s.encLen.toNat < a + k ∧ c = .encBounds ∧ info = a ∧ t = s := by
  unfold memWrite; split <;> simp_all [eq_comm]

/-- What taking a fault leaves: everything but the fault's registers and, after `EncBounds`, the
destination space. -/
theorem raiseFault_eq (c : Cause) (info : Nat) (s : State) :
    raiseFault c info s = { s with
      status := Status.faulted s.status c
      finfo := BitVec.ofNat 35 info
      result := Config.freeResult s.draws
      prev := Config.freePrev s.draws
      draws := s.draws + 1
      enc := (raiseFault c info s).enc
      val := (raiseFault c info s).val } := by
  cases c <;> simp only [raiseFault, faultedSpaces]
  split <;> rfl

/-- A fault at issue touches neither space. -/
theorem raiseFault_spaces {c : Cause} (h : c ≠ .encBounds) (info : Nat) (s : State) :
    (raiseFault c info s).enc = s.enc ∧ (raiseFault c info s).val = s.val := by
  cases c <;> simp_all [raiseFault, faultedSpaces]

/-- `EncBounds` in a decode frees the VAL cells handed over and leaves ENC. -/
theorem raiseFault_decode {s : State} (h : s.hidden.dir = true) (info : Nat) :
    (raiseFault .encBounds info s).enc = s.enc ∧
      (raiseFault .encBounds info s).val =
        Memory.fill s.val s.n.toNat (Config.freeWord s.draws) := by
  simp [raiseFault, faultedSpaces, h]

/-- `EncBounds` in an encode frees the ENC cells handed over and leaves VAL. -/
theorem raiseFault_encode {s : State} (h : s.hidden.dir = false) (info : Nat) :
    (raiseFault .encBounds info s).val = s.val ∧
      (raiseFault .encBounds info s).enc =
        Memory.fill s.enc s.encLen.toNat (Config.freeByte s.draws) := by
  simp [raiseFault, faultedSpaces, h]

/-- The frame `Exec(c)`: ignored in `FAULT`, else the run of the command and its end. -/
theorem execCode_cases (c : OpCode) (s : State) :
    (Status.state s.status = .fault ∧ execCode c s = .next s) ∨
    (Status.state s.status ≠ .fault ∧
      ((∃ t, runCommand c { s with status := Status.issued s.status } = .done () t ∧
          execCode c s = .next (complete t)) ∨
        (∃ f info t, runCommand c { s with status := Status.issued s.status } = .raised f info t ∧
          execCode c s = .next (raiseFault f info t)))) := by
  unfold execCode
  split
  · next h => exact .inl ⟨h, rfl⟩
  · next h =>
    refine .inr ⟨h, ?_⟩
    cases hr : runCommand c { s with status := Status.issued s.status } with
    | done a t => exact .inl ⟨t, rfl, rfl⟩
    | raised f info t => exact .inr ⟨f, info, t, rfl, rfl⟩

/-- A command of the block outside `FAULT` is the end of its run. -/
theorem execCode_of_issuable {c : OpCode} {s : State} (h : Status.state s.status ≠ .fault) :
    execCode c s = finish (runCommand c { s with status := Status.issued s.status }) := by
  simp [execCode, h]

/-- Every command is the frame on its own code. -/
theorem exec_eq_execCode (i : Instr) (s : State) : exec i s = execCode (encode i) s := by
  cases i <;> rfl

/-- The body of an admitted encode command. -/
theorem runCommand_encoder {zig delta : Bool} {s : State} (h : s.n.toNat ≤ s.cfg.nMax) :
    runCommand (encode (.encoder zig delta)) s =
      encodeCommand (latchOptions (encode (.encoder zig delta)) s) := by
  cases zig <;> cases delta <;>
    simp [runCommand, encode, Instr.encoder, CommandWord.reserved, CommandWord.sz, CommandWord.dir,
      commandBody, latchOptions, Nat.not_lt.2 h]

/-- The body of an admitted decode command. -/
theorem runCommand_decoder {zig delta : Bool} {s : State} (h : s.n.toNat ≤ s.cfg.nMax) :
    runCommand (encode (.decoder zig delta)) s =
      decodeCommand (latchOptions (encode (.decoder zig delta)) s) := by
  cases zig <;> cases delta <;>
    simp [runCommand, encode, Instr.decoder, CommandWord.reserved, CommandWord.sz, CommandWord.dir,
      commandBody, latchOptions, Nat.not_lt.2 h]

/-- The body of an admitted sizing command. -/
theorem runCommand_size {s : State} (h : s.n.toNat ≤ s.cfg.nMax) :
    runCommand (encode .size) s = sizeCommand (latchOptions (encode .size) s) := by
  simp [runCommand, encode, CommandWord.reserved, CommandWord.sz, commandBody, Nat.not_lt.2 h]

/-- Every command is an encode, a decode or the sizing command. -/
theorem Instr.cases_by_kind (i : Instr) :
    (∃ zig delta, i = .encoder zig delta) ∨ (∃ zig delta, i = .decoder zig delta) ∨ i = .size := by
  cases i
  · exact .inl ⟨false, false, rfl⟩
  · exact .inr (.inl ⟨false, false, rfl⟩)
  · exact .inl ⟨false, true, rfl⟩
  · exact .inr (.inl ⟨false, true, rfl⟩)
  · exact .inl ⟨true, false, rfl⟩
  · exact .inr (.inl ⟨true, false, rfl⟩)
  · exact .inl ⟨true, true, rfl⟩
  · exact .inr (.inl ⟨true, true, rfl⟩)
  · exact .inr (.inr rfl)

end Sys2Proof.Machine
end

