-- ==== Sys2Proof/Laws/Engines.lean ====
section
/-! SUPPORT. What each piece of the engines can do, said once: how it ends normally, that it can only
raise `EncBounds`, and what it leaves alone. -/

namespace Sys2Proof.Machine

/-! ### Control and data streams -/

theorem dataPut_eq_done {u : Word} {k : Nat} {s t : State} :
    dataPut u k s = .done () t ↔ s.hidden.dcur + k ≤ s.encLen.toNat ∧
      t = { s with enc := Memory.writeLE s.enc s.hidden.dcur k u,
                   hidden := { s.hidden with dcur := s.hidden.dcur + k } } := by
  unfold dataPut memWrite; split <;> simp_all [eq_comm]

theorem dataPut_eq_raised {u : Word} {k info : Nat} {c : Cause} {s t : State} :
    dataPut u k s = .raised c info t ↔
      s.encLen.toNat < s.hidden.dcur + k ∧ c = .encBounds ∧ info = s.hidden.dcur ∧ t = s := by
  unfold dataPut memWrite; split <;> simp_all [eq_comm]

theorem dataGet_eq_done {u : Word} {k : Nat} {s t : State} :
    dataGet k s = .done u t ↔ s.hidden.dcur + k ≤ s.encLen.toNat ∧
      u = BitVec.ofNat 32 (Memory.readLE s.enc s.hidden.dcur k) ∧
      t = { s with hidden := { s.hidden with dcur := s.hidden.dcur + k } } := by
  unfold dataGet memRead; split <;> simp_all [eq_comm]

theorem dataGet_eq_raised {k info : Nat} {c : Cause} {s t : State} :
    dataGet k s = .raised c info t ↔
      s.encLen.toNat < s.hidden.dcur + k ∧ c = .encBounds ∧ info = s.hidden.dcur ∧ t = s := by
  unfold dataGet memRead; split <;> simp_all [eq_comm]

/-- A byte read as a one-byte number is that byte. -/
theorem ofNat_readLE_one (m : List (Nat × Byte)) (a : Nat) :
    BitVec.ofNat 8 (Memory.readLE m a 1) = Memory.read m a := by
  simp [Memory.readLE]

/-- A one-byte write is a write of the low byte. -/
theorem writeLE_one (m : List (Nat × Byte)) (a : Nat) (v : Byte) :
    Memory.writeLE m a 1 (v.setWidth 32) = Memory.write m a v := by
  simp [Memory.writeLE]

/-- The control byte `CtlGet` works on: the held one, or a fresh one at the start of a group. -/
def ctlByte (s : State) : Byte :=
  if s.hidden.i % 4 = 0 then Memory.read s.enc s.hidden.ccur else s.hidden.cb

/-- The control cursor after `CtlGet`. -/
def ctlNext (s : State) : Nat := if s.hidden.i % 4 = 0 then s.hidden.ccur + 1 else s.hidden.ccur

theorem ctlGet_eq_done {c : WidthCode} {s t : State} :
    ctlGet s = .done c t ↔ (s.hidden.i % 4 = 0 → s.hidden.ccur < s.encLen.toNat) ∧
      c = (ctlByte s).setWidth 2 ∧
      t = { s with hidden := { s.hidden with cb := ctlByte s >>> 2, ccur := ctlNext s } } := by
  unfold ctlGet ctlFetch memRead ctlByte ctlNext
  by_cases h : s.hidden.i % 4 = 0
  · by_cases hb : s.hidden.ccur + 1 ≤ s.encLen.toNat
    · simp [h, hb, ofNat_readLE_one, Nat.lt_of_succ_le hb, eq_comm]
    · simp [h, hb, show ¬ s.hidden.ccur < s.encLen.toNat by omega]
  · simp [h, eq_comm]

theorem ctlGet_eq_raised {info : Nat} {c : Cause} {s t : State} :
    ctlGet s = .raised c info t ↔ s.hidden.i % 4 = 0 ∧ s.encLen.toNat ≤ s.hidden.ccur ∧
      c = .encBounds ∧ info = s.hidden.ccur ∧ t = s := by
  unfold ctlGet ctlFetch memRead
  by_cases h : s.hidden.i % 4 = 0
  · by_cases hb : s.hidden.ccur + 1 ≤ s.encLen.toNat
    · simp [h, hb, show ¬ s.encLen.toNat ≤ s.hidden.ccur by omega]
    · simp [h, hb, show s.encLen.toNat ≤ s.hidden.ccur by omega, eq_comm]
  · simp [h]

/-- `acc` with a code put in its slot. -/
def accWith (c : WidthCode) (s : State) : Byte :=
  s.hidden.acc ||| (c.setWidth 8 <<< (2 * (s.hidden.i % 4)))

theorem ctlPut_eq_done {c : WidthCode} {s t : State} :
    ctlPut c s = .done () t ↔
      (s.hidden.i % 4 ≠ 3 ∧ t = { s with hidden := { s.hidden with acc := accWith c s } }) ∨
      (s.hidden.i % 4 = 3 ∧ s.hidden.ccur < s.encLen.toNat ∧
        t = { s with enc := Memory.write s.enc s.hidden.ccur (accWith c s),
                     hidden := { s.hidden with ccur := s.hidden.ccur + 1, acc := 0 } }) := by
  unfold ctlPut memWrite accWith
  by_cases h : s.hidden.i % 4 = 3
  · by_cases hb : s.hidden.ccur + 1 ≤ s.encLen.toNat
    · simp only [h, hb, if_true, Run.bind_done, writeLE_one]
      simp [Nat.lt_of_succ_le hb, eq_comm]
    · simp [h, hb, show ¬ s.hidden.ccur < s.encLen.toNat by omega]
  · simp [h, eq_comm]

theorem ctlPut_eq_raised {c : WidthCode} {info : Nat} {f : Cause} {s t : State} :
    ctlPut c s = .raised f info t ↔ s.hidden.i % 4 = 3 ∧ s.encLen.toNat ≤ s.hidden.ccur ∧
      f = .encBounds ∧ info = s.hidden.ccur ∧
      t = { s with hidden := { s.hidden with acc := accWith c s } } := by
  unfold ctlPut memWrite accWith
  by_cases h : s.hidden.i % 4 = 3
  · by_cases hb : s.hidden.ccur + 1 ≤ s.encLen.toNat
    · simp [h, hb, show ¬ s.encLen.toNat ≤ s.hidden.ccur by omega]
    · simp [h, hb, show s.encLen.toNat ≤ s.hidden.ccur by omega, eq_comm]
  · simp [h]

theorem ctlFlush_eq_done {s t : State} :
    ctlFlush s = .done () t ↔
      (s.n.toNat % 4 = 0 ∧ t = s) ∨
      (s.n.toNat % 4 ≠ 0 ∧ s.hidden.ccur < s.encLen.toNat ∧
        t = { s with enc := Memory.write s.enc s.hidden.ccur s.hidden.acc,
                     hidden := { s.hidden with ccur := s.hidden.ccur + 1 } }) := by
  unfold ctlFlush memWrite
  by_cases h : s.n.toNat % 4 = 0
  · simp [h, eq_comm]
  · by_cases hb : s.hidden.ccur + 1 ≤ s.encLen.toNat
    · simp only [ne_eq, h, not_false_eq_true, hb, if_true, Run.bind_done, writeLE_one]
      simp [Nat.lt_of_succ_le hb, eq_comm]
    · simp [h, hb, show ¬ s.hidden.ccur < s.encLen.toNat by omega]

theorem ctlFlush_eq_raised {info : Nat} {f : Cause} {s t : State} :
    ctlFlush s = .raised f info t ↔ s.n.toNat % 4 ≠ 0 ∧ s.encLen.toNat ≤ s.hidden.ccur ∧
      f = .encBounds ∧ info = s.hidden.ccur ∧ t = s := by
  unfold ctlFlush memWrite
  by_cases h : s.n.toNat % 4 = 0
  · simp [h]
  · by_cases hb : s.hidden.ccur + 1 ≤ s.encLen.toNat
    · simp [h, hb, show ¬ s.encLen.toNat ≤ s.hidden.ccur by omega]
    · simp [h, hb, show s.encLen.toNat ≤ s.hidden.ccur by omega, eq_comm]

/-! ### Transforms -/

/-- The encode transform changes the carry and nothing else. -/
theorem encodeTransform_snd (x : Word) (s : State) :
    (encodeTransform x s).2 = withCarry (if s.hidden.delta then x else s.hidden.carry) s := by
  unfold encodeTransform; cases s.hidden.delta <;> rfl

/-- The decode transform changes the carry and nothing else. -/
theorem decodeTransform_snd (u : Word) (s : State) :
    (decodeTransform u s).2 =
      withCarry (if s.hidden.delta then (decodeTransform u s).1 else s.hidden.carry) s := by
  unfold decodeTransform; cases s.hidden.delta <;> rfl

/-! ### Frames -/

/-- What an encode can change while it runs: ENC and the hidden state, less the latched bits. -/
def EncodeFrame (s t : State) : Prop :=
  t = { s with enc := t.enc, hidden := { t.hidden with
          zig := s.hidden.zig, delta := s.hidden.delta, dir := s.hidden.dir, vec := s.hidden.vec } }

/-- What a decode can change while it runs: VAL and the hidden state, less the latched bits. -/
def DecodeFrame (s t : State) : Prop :=
  t = { s with val := t.val, hidden := { t.hidden with
          zig := s.hidden.zig, delta := s.hidden.delta, dir := s.hidden.dir, vec := s.hidden.vec } }

theorem EncodeFrame.refl (s : State) : EncodeFrame s s := rfl

theorem DecodeFrame.refl (s : State) : DecodeFrame s s := rfl

theorem EncodeFrame.trans {s t u : State} (h : EncodeFrame s t) (h' : EncodeFrame t u) :
    EncodeFrame s u := by
  unfold EncodeFrame at *; rw [h', h]

theorem DecodeFrame.trans {s t u : State} (h : DecodeFrame s t) (h' : DecodeFrame t u) :
    DecodeFrame s u := by
  unfold DecodeFrame at *; rw [h', h]

/-- One encode iteration that ends normally. -/
theorem encodeOne_eq_done {s t : State} :
    encodeOne s = .done () t ↔ ∃ p q,
      dataPut (encodeTransform (Memory.read s.val s.hidden.i) s).1
        (width (encodeTransform (Memory.read s.val s.hidden.i) s).1)
        (encodeTransform (Memory.read s.val s.hidden.i) s).2 = .done () p ∧
      ctlPut (code (encodeTransform (Memory.read s.val s.hidden.i) s).1) p = .done () q ∧
      t = nextIndex q := by
  simp only [encodeOne, Run.bind_eq_done]
  constructor
  · rintro ⟨_, p, hp, _, q, hq, h⟩; cases h; exact ⟨p, q, hp, hq, rfl⟩
  · rintro ⟨p, q, hp, hq, rfl⟩; exact ⟨(), p, hp, (), q, hq, rfl⟩

theorem encodeOne_frame {s t : State} (h : encodeOne s = .done () t) : EncodeFrame s t := by
  obtain ⟨p, q, hp, hq, rfl⟩ := encodeOne_eq_done.1 h
  rw [encodeTransform_snd] at hp
  obtain ⟨-, rfl⟩ := dataPut_eq_done.1 hp
  rcases ctlPut_eq_done.1 hq with ⟨-, rfl⟩ | ⟨-, -, rfl⟩ <;> rfl

/-- One encode iteration raises nothing but `EncBounds`. -/
theorem encodeOne_raised {s t : State} {c : Cause} {info : Nat}
    (h : encodeOne s = .raised c info t) : c = .encBounds ∧ EncodeFrame s t := by
  simp only [encodeOne, Run.bind_eq_raised] at h
  rw [encodeTransform_snd] at h
  rcases h with h | ⟨_, p, hp, h | ⟨_, _, _, h⟩⟩
  · obtain ⟨-, rfl, -, rfl⟩ := dataPut_eq_raised.1 h; exact ⟨rfl, rfl⟩
  · obtain ⟨-, rfl⟩ := dataPut_eq_done.1 hp
    obtain ⟨-, -, rfl, -, rfl⟩ := ctlPut_eq_raised.1 h; exact ⟨rfl, rfl⟩
  · cases h

theorem encodeLoop_frame {k : Nat} {s t : State} (h : encodeLoop k s = .done () t) :
    EncodeFrame s t := by
  induction k generalizing s with
  | zero => cases h; rfl
  | succ k ih =>
    obtain ⟨_, p, hp, h⟩ := Run.bind_eq_done.1 h
    exact (encodeOne_frame hp).trans (ih h)

theorem encodeLoop_raised {k : Nat} {s t : State} {c : Cause} {info : Nat}
    (h : encodeLoop k s = .raised c info t) : c = .encBounds ∧ EncodeFrame s t := by
  induction k generalizing s with
  | zero => cases h
  | succ k ih =>
    rcases Run.bind_eq_raised.1 h with h | ⟨_, p, hp, h⟩
    · exact encodeOne_raised h
    · exact ⟨(ih h).1, (encodeOne_frame hp).trans (ih h).2⟩

/-- The last `k` iterations can be split off a loop. -/
theorem encodeLoop_add (j k : Nat) (s : State) :
    encodeLoop (j + k) s = (encodeLoop j s).bind fun _ t => encodeLoop k t := by
  induction j generalizing s with
  | zero => rw [Nat.zero_add]; rfl
  | succ j ih =>
    rw [Nat.add_right_comm, encodeLoop, encodeLoop, Run.bind_assoc]
    congr 1; funext _ t; exact ih t

/-- One decode iteration that ends normally. -/
theorem decodeOne_eq_done {s t : State} :
    decodeOne s = .done () t ↔ ∃ c p u q, ctlGet s = .done c p ∧
      dataGet (c.toNat + 1) p = .done u q ∧
      t = nextIndex (storeValue (decodeTransform u q).1 (decodeTransform u q).2) := by
  simp only [decodeOne, Run.bind_eq_done]
  constructor
  · rintro ⟨c, p, hp, u, q, hq, h⟩; cases h; exact ⟨c, p, u, q, hp, hq, rfl⟩
  · rintro ⟨c, p, u, q, hp, hq, rfl⟩; exact ⟨c, p, hp, u, q, hq, rfl⟩

theorem decodeOne_frame {s t : State} (h : decodeOne s = .done () t) : DecodeFrame s t := by
  obtain ⟨c, p, u, q, hp, hq, rfl⟩ := decodeOne_eq_done.1 h
  obtain ⟨-, -, rfl⟩ := ctlGet_eq_done.1 hp
  obtain ⟨-, -, rfl⟩ := dataGet_eq_done.1 hq
  rw [decodeTransform_snd]; rfl

/-- One decode iteration raises nothing but `EncBounds`. -/
theorem decodeOne_raised {s t : State} {c : Cause} {info : Nat}
    (h : decodeOne s = .raised c info t) : c = .encBounds ∧ DecodeFrame s t := by
  simp only [decodeOne, Run.bind_eq_raised] at h
  rcases h with h | ⟨_, p, hp, h | ⟨_, _, _, h⟩⟩
  · obtain ⟨-, -, rfl, -, rfl⟩ := ctlGet_eq_raised.1 h; exact ⟨rfl, rfl⟩
  · obtain ⟨-, -, rfl⟩ := ctlGet_eq_done.1 hp
    obtain ⟨-, rfl, -, rfl⟩ := dataGet_eq_raised.1 h; exact ⟨rfl, rfl⟩
  · cases h

theorem decodeLoop_frame {k : Nat} {s t : State} (h : decodeLoop k s = .done () t) :
    DecodeFrame s t := by
  induction k generalizing s with
  | zero => cases h; rfl
  | succ k ih =>
    obtain ⟨_, p, hp, h⟩ := Run.bind_eq_done.1 h
    exact (decodeOne_frame hp).trans (ih h)

theorem decodeLoop_raised {k : Nat} {s t : State} {c : Cause} {info : Nat}
    (h : decodeLoop k s = .raised c info t) : c = .encBounds ∧ DecodeFrame s t := by
  induction k generalizing s with
  | zero => cases h
  | succ k ih =>
    rcases Run.bind_eq_raised.1 h with h | ⟨_, p, hp, h⟩
    · exact decodeOne_raised h
    · exact ⟨(ih h).1, (decodeOne_frame hp).trans (ih h).2⟩

/-- The last `k` iterations can be split off a loop. -/
theorem decodeLoop_add (j k : Nat) (s : State) :
    decodeLoop (j + k) s = (decodeLoop j s).bind fun _ t => decodeLoop k t := by
  induction j generalizing s with
  | zero => rw [Nat.zero_add]; rfl
  | succ j ih =>
    rw [Nat.add_right_comm, decodeLoop, decodeLoop, Run.bind_assoc]
    congr 1; funext _ t; exact ih t

/-- The vector engine's registers loaded for one group: control byte, then window. -/
def loadGroup (s : State) : State :=
  { s with hidden := { s.hidden with
      cb := Memory.read s.enc s.hidden.ccur
      ccur := s.hidden.ccur + 1
      window := BitVec.ofNat 128 (Memory.readLE s.enc s.hidden.dcur 16) } }

theorem groupStep_eq_done {s t : State} :
    groupStep s = .done () t ↔
      s.hidden.ccur < s.encLen.toNat ∧ s.hidden.dcur + 16 ≤ s.encLen.toNat ∧
      t = advanceGroup (groupLanes (loadGroup s)) (storeLanes (groupLanes (loadGroup s)) (loadGroup s)) := by
  unfold groupStep memRead loadGroup
  by_cases h : s.hidden.ccur + 1 ≤ s.encLen.toNat
  · by_cases hb : s.hidden.dcur + 16 ≤ s.encLen.toNat
    · simp [h, hb, ofNat_readLE_one, Nat.lt_of_succ_le h, eq_comm]
    · simp [h, hb]
  · simp [h, show ¬ s.hidden.ccur < s.encLen.toNat by omega]

theorem groupStep_frame {s t : State} (h : groupStep s = .done () t) : DecodeFrame s t := by
  obtain ⟨-, -, rfl⟩ := groupStep_eq_done.1 h; rfl

theorem groupStep_raised {s t : State} {c : Cause} {info : Nat}
    (h : groupStep s = .raised c info t) : c = .encBounds ∧ DecodeFrame s t := by
  unfold groupStep memRead at h
  by_cases h1 : s.hidden.ccur + 1 ≤ s.encLen.toNat
  · by_cases hb : s.hidden.dcur + 16 ≤ s.encLen.toNat
    · simp [h1, hb] at h
    · simp only [h1, hb, if_true, if_false, Run.bind_done, Run.bind_raised] at h
      cases h; exact ⟨rfl, rfl⟩
  · simp only [h1, if_false, Run.bind_raised] at h
    cases h; exact ⟨rfl, rfl⟩

theorem groupLoop_frame {k : Nat} {s t : State} (h : groupLoop k s = .done () t) :
    DecodeFrame s t := by
  induction k generalizing s with
  | zero => cases h; rfl
  | succ k ih =>
    unfold groupLoop at h
    split at h
    · obtain ⟨_, p, hp, h⟩ := Run.bind_eq_done.1 h
      exact (groupStep_frame hp).trans (ih h)
    · cases h; rfl

theorem groupLoop_raised {k : Nat} {s t : State} {c : Cause} {info : Nat}
    (h : groupLoop k s = .raised c info t) : c = .encBounds ∧ DecodeFrame s t := by
  induction k generalizing s with
  | zero => cases h
  | succ k ih =>
    unfold groupLoop at h
    split at h
    · rcases Run.bind_eq_raised.1 h with h | ⟨_, p, hp, h⟩
      · exact groupStep_raised h
      · exact ⟨(ih h).1, (groupStep_frame hp).trans (ih h).2⟩
    · cases h

end Sys2Proof.Machine
end

