-- ==== Sys2Proof/Laws/PerInstr.lean ====
section
/-! SUPPORT. Facts about every command as syntax, one lemma per constructor. -/

namespace Sys2Proof.Laws

/-- A command is well-formed and its code is a well-formed, unreserved command word of at most 8
(30_encoding.md R59 to R61). -/
def CodeFields.Statement (i : Instr) : Prop :=
  i.wf = true ∧ CommandWord.wf (encode i) = true ∧ CommandWord.reserved (encode i) = false ∧
    (encode i).toNat ≤ 8

theorem CodeFields.enc : CodeFields.Statement .enc := by unfold CodeFields.Statement; decide
theorem CodeFields.dec : CodeFields.Statement .dec := by unfold CodeFields.Statement; decide
theorem CodeFields.encd : CodeFields.Statement .encd := by unfold CodeFields.Statement; decide
theorem CodeFields.decd : CodeFields.Statement .decd := by unfold CodeFields.Statement; decide
theorem CodeFields.encz : CodeFields.Statement .encz := by unfold CodeFields.Statement; decide
theorem CodeFields.decz : CodeFields.Statement .decz := by unfold CodeFields.Statement; decide
theorem CodeFields.encdz : CodeFields.Statement .encdz := by unfold CodeFields.Statement; decide
theorem CodeFields.decdz : CodeFields.Statement .decdz := by unfold CodeFields.Statement; decide
theorem CodeFields.size : CodeFields.Statement .size := by unfold CodeFields.Statement; decide

end Sys2Proof.Laws
end

