-- ==== Sys2Proof/Laws/State.lean ====
section
/-! SUPPORT. What each named update of the state leaves in each field, so that no proof unfolds a record
update: one lemma per field per update, true by unfolding. -/

namespace Sys2Proof.Machine

/-! ### complete -/

@[simp] theorem complete_n (s : State) : (complete s).n = s.n := rfl
@[simp] theorem complete_prev (s : State) : (complete s).prev = s.prev := rfl
@[simp] theorem complete_encLen (s : State) : (complete s).encLen = s.encLen := rfl
@[simp] theorem complete_status (s : State) : (complete s).status = Status.completed s.status := rfl
@[simp] theorem complete_result (s : State) : (complete s).result = s.result := rfl
@[simp] theorem complete_finfo (s : State) : (complete s).finfo = s.finfo := rfl
@[simp] theorem complete_hidden (s : State) : (complete s).hidden = s.hidden := rfl
@[simp] theorem complete_enc (s : State) : (complete s).enc = s.enc := rfl
@[simp] theorem complete_val (s : State) : (complete s).val = s.val := rfl
@[simp] theorem complete_vecAvail (s : State) : (complete s).vecAvail = s.vecAvail := rfl
@[simp] theorem complete_host (s : State) : (complete s).host = s.host := rfl
@[simp] theorem complete_readData (s : State) : (complete s).readData = s.readData := rfl
@[simp] theorem complete_written (s : State) : (complete s).written = s.written := rfl
@[simp] theorem complete_draws (s : State) : (complete s).draws = s.draws := rfl
@[simp] theorem complete_cfg (s : State) : (complete s).cfg = s.cfg := rfl

/-! ### latchOptions -/

@[simp] theorem latchOptions_n (c : OpCode) (s : State) : (latchOptions c s).n = s.n := rfl
@[simp] theorem latchOptions_prev (c : OpCode) (s : State) : (latchOptions c s).prev = s.prev := rfl
@[simp] theorem latchOptions_encLen (c : OpCode) (s : State) :
    (latchOptions c s).encLen = s.encLen := rfl
@[simp] theorem latchOptions_status (c : OpCode) (s : State) :
    (latchOptions c s).status = s.status := rfl
@[simp] theorem latchOptions_result (c : OpCode) (s : State) :
    (latchOptions c s).result = s.result := rfl
@[simp] theorem latchOptions_finfo (c : OpCode) (s : State) :
    (latchOptions c s).finfo = s.finfo := rfl
@[simp] theorem latchOptions_hidden_i (c : OpCode) (s : State) :
    (latchOptions c s).hidden.i = s.hidden.i := rfl
@[simp] theorem latchOptions_hidden_ccur (c : OpCode) (s : State) :
    (latchOptions c s).hidden.ccur = s.hidden.ccur := rfl
@[simp] theorem latchOptions_hidden_dcur (c : OpCode) (s : State) :
    (latchOptions c s).hidden.dcur = s.hidden.dcur := rfl
@[simp] theorem latchOptions_hidden_acc (c : OpCode) (s : State) :
    (latchOptions c s).hidden.acc = s.hidden.acc := rfl
@[simp] theorem latchOptions_hidden_cb (c : OpCode) (s : State) :
    (latchOptions c s).hidden.cb = s.hidden.cb := rfl
@[simp] theorem latchOptions_hidden_carry (c : OpCode) (s : State) :
    (latchOptions c s).hidden.carry = s.hidden.carry := rfl
@[simp] theorem latchOptions_hidden_zig (c : OpCode) (s : State) :
    (latchOptions c s).hidden.zig = CommandWord.zig c := rfl
@[simp] theorem latchOptions_hidden_delta (c : OpCode) (s : State) :
    (latchOptions c s).hidden.delta = CommandWord.delta c := rfl
@[simp] theorem latchOptions_hidden_dir (c : OpCode) (s : State) :
    (latchOptions c s).hidden.dir = CommandWord.dir c := rfl
@[simp] theorem latchOptions_hidden_vec (c : OpCode) (s : State) :
    (latchOptions c s).hidden.vec = (s.cfg.hasVec && s.vecAvail) := rfl
@[simp] theorem latchOptions_hidden_window (c : OpCode) (s : State) :
    (latchOptions c s).hidden.window = s.hidden.window := rfl
@[simp] theorem latchOptions_hidden_lanes (c : OpCode) (s : State) :
    (latchOptions c s).hidden.lanes = s.hidden.lanes := rfl
@[simp] theorem latchOptions_enc (c : OpCode) (s : State) : (latchOptions c s).enc = s.enc := rfl
@[simp] theorem latchOptions_val (c : OpCode) (s : State) : (latchOptions c s).val = s.val := rfl
@[simp] theorem latchOptions_vecAvail (c : OpCode) (s : State) :
    (latchOptions c s).vecAvail = s.vecAvail := rfl
@[simp] theorem latchOptions_host (c : OpCode) (s : State) : (latchOptions c s).host = s.host := rfl
@[simp] theorem latchOptions_readData (c : OpCode) (s : State) :
    (latchOptions c s).readData = s.readData := rfl
@[simp] theorem latchOptions_written (c : OpCode) (s : State) :
    (latchOptions c s).written = s.written := rfl
@[simp] theorem latchOptions_draws (c : OpCode) (s : State) :
    (latchOptions c s).draws = s.draws := rfl
@[simp] theorem latchOptions_cfg (c : OpCode) (s : State) : (latchOptions c s).cfg = s.cfg := rfl

/-! ### withCarry -/

@[simp] theorem withCarry_n (k : Word) (s : State) : (withCarry k s).n = s.n := rfl
@[simp] theorem withCarry_prev (k : Word) (s : State) : (withCarry k s).prev = s.prev := rfl
@[simp] theorem withCarry_encLen (k : Word) (s : State) : (withCarry k s).encLen = s.encLen := rfl
@[simp] theorem withCarry_status (k : Word) (s : State) : (withCarry k s).status = s.status := rfl
@[simp] theorem withCarry_result (k : Word) (s : State) : (withCarry k s).result = s.result := rfl
@[simp] theorem withCarry_finfo (k : Word) (s : State) : (withCarry k s).finfo = s.finfo := rfl
@[simp] theorem withCarry_hidden_i (k : Word) (s : State) :
    (withCarry k s).hidden.i = s.hidden.i := rfl
@[simp] theorem withCarry_hidden_ccur (k : Word) (s : State) :
    (withCarry k s).hidden.ccur = s.hidden.ccur := rfl
@[simp] theorem withCarry_hidden_dcur (k : Word) (s : State) :
    (withCarry k s).hidden.dcur = s.hidden.dcur := rfl
@[simp] theorem withCarry_hidden_acc (k : Word) (s : State) :
    (withCarry k s).hidden.acc = s.hidden.acc := rfl
@[simp] theorem withCarry_hidden_cb (k : Word) (s : State) :
    (withCarry k s).hidden.cb = s.hidden.cb := rfl
@[simp] theorem withCarry_hidden_carry (k : Word) (s : State) :
    (withCarry k s).hidden.carry = k := rfl
@[simp] theorem withCarry_hidden_zig (k : Word) (s : State) :
    (withCarry k s).hidden.zig = s.hidden.zig := rfl
@[simp] theorem withCarry_hidden_delta (k : Word) (s : State) :
    (withCarry k s).hidden.delta = s.hidden.delta := rfl
@[simp] theorem withCarry_hidden_dir (k : Word) (s : State) :
    (withCarry k s).hidden.dir = s.hidden.dir := rfl
@[simp] theorem withCarry_hidden_vec (k : Word) (s : State) :
    (withCarry k s).hidden.vec = s.hidden.vec := rfl
@[simp] theorem withCarry_hidden_window (k : Word) (s : State) :
    (withCarry k s).hidden.window = s.hidden.window := rfl
@[simp] theorem withCarry_hidden_lanes (k : Word) (s : State) :
    (withCarry k s).hidden.lanes = s.hidden.lanes := rfl
@[simp] theorem withCarry_enc (k : Word) (s : State) : (withCarry k s).enc = s.enc := rfl
@[simp] theorem withCarry_val (k : Word) (s : State) : (withCarry k s).val = s.val := rfl
@[simp] theorem withCarry_vecAvail (k : Word) (s : State) :
    (withCarry k s).vecAvail = s.vecAvail := rfl
@[simp] theorem withCarry_host (k : Word) (s : State) : (withCarry k s).host = s.host := rfl
@[simp] theorem withCarry_readData (k : Word) (s : State) :
    (withCarry k s).readData = s.readData := rfl
@[simp] theorem withCarry_written (k : Word) (s : State) :
    (withCarry k s).written = s.written := rfl
@[simp] theorem withCarry_draws (k : Word) (s : State) : (withCarry k s).draws = s.draws := rfl
@[simp] theorem withCarry_cfg (k : Word) (s : State) : (withCarry k s).cfg = s.cfg := rfl

/-! ### nextIndex -/

@[simp] theorem nextIndex_n (s : State) : (nextIndex s).n = s.n := rfl
@[simp] theorem nextIndex_prev (s : State) : (nextIndex s).prev = s.prev := rfl
@[simp] theorem nextIndex_encLen (s : State) : (nextIndex s).encLen = s.encLen := rfl
@[simp] theorem nextIndex_status (s : State) : (nextIndex s).status = s.status := rfl
@[simp] theorem nextIndex_result (s : State) : (nextIndex s).result = s.result := rfl
@[simp] theorem nextIndex_finfo (s : State) : (nextIndex s).finfo = s.finfo := rfl
@[simp] theorem nextIndex_hidden_i (s : State) :
    (nextIndex s).hidden.i = s.hidden.i + 1 := rfl
@[simp] theorem nextIndex_hidden_ccur (s : State) :
    (nextIndex s).hidden.ccur = s.hidden.ccur := rfl
@[simp] theorem nextIndex_hidden_dcur (s : State) :
    (nextIndex s).hidden.dcur = s.hidden.dcur := rfl
@[simp] theorem nextIndex_hidden_acc (s : State) :
    (nextIndex s).hidden.acc = s.hidden.acc := rfl
@[simp] theorem nextIndex_hidden_cb (s : State) :
    (nextIndex s).hidden.cb = s.hidden.cb := rfl
@[simp] theorem nextIndex_hidden_carry (s : State) :
    (nextIndex s).hidden.carry = s.hidden.carry := rfl
@[simp] theorem nextIndex_hidden_zig (s : State) :
    (nextIndex s).hidden.zig = s.hidden.zig := rfl
@[simp] theorem nextIndex_hidden_delta (s : State) :
    (nextIndex s).hidden.delta = s.hidden.delta := rfl
@[simp] theorem nextIndex_hidden_dir (s : State) :
    (nextIndex s).hidden.dir = s.hidden.dir := rfl
@[simp] theorem nextIndex_hidden_vec (s : State) :
    (nextIndex s).hidden.vec = s.hidden.vec := rfl
@[simp] theorem nextIndex_hidden_window (s : State) :
    (nextIndex s).hidden.window = s.hidden.window := rfl
@[simp] theorem nextIndex_hidden_lanes (s : State) :
    (nextIndex s).hidden.lanes = s.hidden.lanes := rfl
@[simp] theorem nextIndex_enc (s : State) : (nextIndex s).enc = s.enc := rfl
@[simp] theorem nextIndex_val (s : State) : (nextIndex s).val = s.val := rfl
@[simp] theorem nextIndex_vecAvail (s : State) : (nextIndex s).vecAvail = s.vecAvail := rfl
@[simp] theorem nextIndex_host (s : State) : (nextIndex s).host = s.host := rfl
@[simp] theorem nextIndex_readData (s : State) : (nextIndex s).readData = s.readData := rfl
@[simp] theorem nextIndex_written (s : State) : (nextIndex s).written = s.written := rfl
@[simp] theorem nextIndex_draws (s : State) : (nextIndex s).draws = s.draws := rfl
@[simp] theorem nextIndex_cfg (s : State) : (nextIndex s).cfg = s.cfg := rfl

/-! ### storeValue -/

@[simp] theorem storeValue_n (y : Word) (s : State) : (storeValue y s).n = s.n := rfl
@[simp] theorem storeValue_prev (y : Word) (s : State) : (storeValue y s).prev = s.prev := rfl
@[simp] theorem storeValue_encLen (y : Word) (s : State) : (storeValue y s).encLen = s.encLen := rfl
@[simp] theorem storeValue_status (y : Word) (s : State) : (storeValue y s).status = s.status := rfl
@[simp] theorem storeValue_result (y : Word) (s : State) : (storeValue y s).result = s.result := rfl
@[simp] theorem storeValue_finfo (y : Word) (s : State) : (storeValue y s).finfo = s.finfo := rfl
@[simp] theorem storeValue_hidden (y : Word) (s : State) : (storeValue y s).hidden = s.hidden := rfl
@[simp] theorem storeValue_enc (y : Word) (s : State) : (storeValue y s).enc = s.enc := rfl
@[simp] theorem storeValue_val (y : Word) (s : State) :
    (storeValue y s).val = Memory.write s.val s.hidden.i y := rfl
@[simp] theorem storeValue_vecAvail (y : Word) (s : State) :
    (storeValue y s).vecAvail = s.vecAvail := rfl
@[simp] theorem storeValue_host (y : Word) (s : State) : (storeValue y s).host = s.host := rfl
@[simp] theorem storeValue_readData (y : Word) (s : State) :
    (storeValue y s).readData = s.readData := rfl
@[simp] theorem storeValue_written (y : Word) (s : State) :
    (storeValue y s).written = s.written := rfl
@[simp] theorem storeValue_draws (y : Word) (s : State) : (storeValue y s).draws = s.draws := rfl
@[simp] theorem storeValue_cfg (y : Word) (s : State) : (storeValue y s).cfg = s.cfg := rfl

/-! ### storeLanes -/

@[simp] theorem storeLanes_n (v : Lanes) (s : State) : (storeLanes v s).n = s.n := rfl
@[simp] theorem storeLanes_prev (v : Lanes) (s : State) : (storeLanes v s).prev = s.prev := rfl
@[simp] theorem storeLanes_encLen (v : Lanes) (s : State) :
    (storeLanes v s).encLen = s.encLen := rfl
@[simp] theorem storeLanes_status (v : Lanes) (s : State) :
    (storeLanes v s).status = s.status := rfl
@[simp] theorem storeLanes_result (v : Lanes) (s : State) :
    (storeLanes v s).result = s.result := rfl
@[simp] theorem storeLanes_finfo (v : Lanes) (s : State) : (storeLanes v s).finfo = s.finfo := rfl
@[simp] theorem storeLanes_hidden (v : Lanes) (s : State) :
    (storeLanes v s).hidden = s.hidden := rfl
@[simp] theorem storeLanes_enc (v : Lanes) (s : State) : (storeLanes v s).enc = s.enc := rfl
@[simp] theorem storeLanes_val (v : Lanes) (s : State) :
    (storeLanes v s).val = Memory.writeList s.val s.hidden.i [v.l0, v.l1, v.l2, v.l3] := rfl
@[simp] theorem storeLanes_vecAvail (v : Lanes) (s : State) :
    (storeLanes v s).vecAvail = s.vecAvail := rfl
@[simp] theorem storeLanes_host (v : Lanes) (s : State) : (storeLanes v s).host = s.host := rfl
@[simp] theorem storeLanes_readData (v : Lanes) (s : State) :
    (storeLanes v s).readData = s.readData := rfl
@[simp] theorem storeLanes_written (v : Lanes) (s : State) :
    (storeLanes v s).written = s.written := rfl
@[simp] theorem storeLanes_draws (v : Lanes) (s : State) : (storeLanes v s).draws = s.draws := rfl
@[simp] theorem storeLanes_cfg (v : Lanes) (s : State) : (storeLanes v s).cfg = s.cfg := rfl

/-! ### publish -/

@[simp] theorem publish_n (s : State) : (publish s).n = s.n := rfl
@[simp] theorem publish_prev (s : State) :
    (publish s).prev = if s.hidden.delta then s.hidden.carry else s.prev := rfl
@[simp] theorem publish_encLen (s : State) : (publish s).encLen = s.encLen := rfl
@[simp] theorem publish_status (s : State) : (publish s).status = s.status := rfl
@[simp] theorem publish_result (s : State) :
    (publish s).result = BitVec.ofNat 35 s.hidden.dcur := rfl
@[simp] theorem publish_finfo (s : State) : (publish s).finfo = s.finfo := rfl
@[simp] theorem publish_hidden (s : State) : (publish s).hidden = s.hidden := rfl
@[simp] theorem publish_enc (s : State) : (publish s).enc = s.enc := rfl
@[simp] theorem publish_val (s : State) : (publish s).val = s.val := rfl
@[simp] theorem publish_vecAvail (s : State) : (publish s).vecAvail = s.vecAvail := rfl
@[simp] theorem publish_host (s : State) : (publish s).host = s.host := rfl
@[simp] theorem publish_readData (s : State) : (publish s).readData = s.readData := rfl
@[simp] theorem publish_written (s : State) : (publish s).written = s.written := rfl
@[simp] theorem publish_draws (s : State) : (publish s).draws = s.draws := rfl
@[simp] theorem publish_cfg (s : State) : (publish s).cfg = s.cfg := rfl

/-! ### startEncode -/

@[simp] theorem startEncode_n (s : State) : (startEncode s).n = s.n := rfl
@[simp] theorem startEncode_prev (s : State) : (startEncode s).prev = s.prev := rfl
@[simp] theorem startEncode_encLen (s : State) : (startEncode s).encLen = s.encLen := rfl
@[simp] theorem startEncode_status (s : State) : (startEncode s).status = s.status := rfl
@[simp] theorem startEncode_result (s : State) : (startEncode s).result = s.result := rfl
@[simp] theorem startEncode_finfo (s : State) : (startEncode s).finfo = s.finfo := rfl
@[simp] theorem startEncode_hidden_i (s : State) :
    (startEncode s).hidden.i = 0 := rfl
@[simp] theorem startEncode_hidden_ccur (s : State) :
    (startEncode s).hidden.ccur = 0 := rfl
@[simp] theorem startEncode_hidden_dcur (s : State) :
    (startEncode s).hidden.dcur = ceil4 s.n.toNat := rfl
@[simp] theorem startEncode_hidden_acc (s : State) :
    (startEncode s).hidden.acc = 0 := rfl
@[simp] theorem startEncode_hidden_cb (s : State) :
    (startEncode s).hidden.cb = s.hidden.cb := rfl
@[simp] theorem startEncode_hidden_carry (s : State) :
    (startEncode s).hidden.carry = s.prev := rfl
@[simp] theorem startEncode_hidden_zig (s : State) :
    (startEncode s).hidden.zig = s.hidden.zig := rfl
@[simp] theorem startEncode_hidden_delta (s : State) :
    (startEncode s).hidden.delta = s.hidden.delta := rfl
@[simp] theorem startEncode_hidden_dir (s : State) :
    (startEncode s).hidden.dir = s.hidden.dir := rfl
@[simp] theorem startEncode_hidden_vec (s : State) :
    (startEncode s).hidden.vec = s.hidden.vec := rfl
@[simp] theorem startEncode_hidden_window (s : State) :
    (startEncode s).hidden.window = s.hidden.window := rfl
@[simp] theorem startEncode_hidden_lanes (s : State) :
    (startEncode s).hidden.lanes = s.hidden.lanes := rfl
@[simp] theorem startEncode_enc (s : State) : (startEncode s).enc = s.enc := rfl
@[simp] theorem startEncode_val (s : State) : (startEncode s).val = s.val := rfl
@[simp] theorem startEncode_vecAvail (s : State) : (startEncode s).vecAvail = s.vecAvail := rfl
@[simp] theorem startEncode_host (s : State) : (startEncode s).host = s.host := rfl
@[simp] theorem startEncode_readData (s : State) : (startEncode s).readData = s.readData := rfl
@[simp] theorem startEncode_written (s : State) : (startEncode s).written = s.written := rfl
@[simp] theorem startEncode_draws (s : State) : (startEncode s).draws = s.draws := rfl
@[simp] theorem startEncode_cfg (s : State) : (startEncode s).cfg = s.cfg := rfl

/-! ### startDecode -/

@[simp] theorem startDecode_n (s : State) : (startDecode s).n = s.n := rfl
@[simp] theorem startDecode_prev (s : State) : (startDecode s).prev = s.prev := rfl
@[simp] theorem startDecode_encLen (s : State) : (startDecode s).encLen = s.encLen := rfl
@[simp] theorem startDecode_status (s : State) : (startDecode s).status = s.status := rfl
@[simp] theorem startDecode_result (s : State) : (startDecode s).result = s.result := rfl
@[simp] theorem startDecode_finfo (s : State) : (startDecode s).finfo = s.finfo := rfl
@[simp] theorem startDecode_hidden_i (s : State) :
    (startDecode s).hidden.i = 0 := rfl
@[simp] theorem startDecode_hidden_ccur (s : State) :
    (startDecode s).hidden.ccur = 0 := rfl
@[simp] theorem startDecode_hidden_dcur (s : State) :
    (startDecode s).hidden.dcur = ceil4 s.n.toNat := rfl
@[simp] theorem startDecode_hidden_acc (s : State) :
    (startDecode s).hidden.acc = s.hidden.acc := rfl
@[simp] theorem startDecode_hidden_cb (s : State) :
    (startDecode s).hidden.cb = s.hidden.cb := rfl
@[simp] theorem startDecode_hidden_carry (s : State) :
    (startDecode s).hidden.carry = s.prev := rfl
@[simp] theorem startDecode_hidden_zig (s : State) :
    (startDecode s).hidden.zig = s.hidden.zig := rfl
@[simp] theorem startDecode_hidden_delta (s : State) :
    (startDecode s).hidden.delta = s.hidden.delta := rfl
@[simp] theorem startDecode_hidden_dir (s : State) :
    (startDecode s).hidden.dir = s.hidden.dir := rfl
@[simp] theorem startDecode_hidden_vec (s : State) :
    (startDecode s).hidden.vec = s.hidden.vec := rfl
@[simp] theorem startDecode_hidden_window (s : State) :
    (startDecode s).hidden.window = s.hidden.window := rfl
@[simp] theorem startDecode_hidden_lanes (s : State) :
    (startDecode s).hidden.lanes = s.hidden.lanes := rfl
@[simp] theorem startDecode_enc (s : State) : (startDecode s).enc = s.enc := rfl
@[simp] theorem startDecode_val (s : State) : (startDecode s).val = s.val := rfl
@[simp] theorem startDecode_vecAvail (s : State) : (startDecode s).vecAvail = s.vecAvail := rfl
@[simp] theorem startDecode_host (s : State) : (startDecode s).host = s.host := rfl
@[simp] theorem startDecode_readData (s : State) : (startDecode s).readData = s.readData := rfl
@[simp] theorem startDecode_written (s : State) : (startDecode s).written = s.written := rfl
@[simp] theorem startDecode_draws (s : State) : (startDecode s).draws = s.draws := rfl
@[simp] theorem startDecode_cfg (s : State) : (startDecode s).cfg = s.cfg := rfl

/-! ### advanceGroup -/

@[simp] theorem advanceGroup_n (v : Lanes) (s : State) : (advanceGroup v s).n = s.n := rfl
@[simp] theorem advanceGroup_prev (v : Lanes) (s : State) : (advanceGroup v s).prev = s.prev := rfl
@[simp] theorem advanceGroup_encLen (v : Lanes) (s : State) :
    (advanceGroup v s).encLen = s.encLen := rfl
@[simp] theorem advanceGroup_status (v : Lanes) (s : State) :
    (advanceGroup v s).status = s.status := rfl
@[simp] theorem advanceGroup_result (v : Lanes) (s : State) :
    (advanceGroup v s).result = s.result := rfl
@[simp] theorem advanceGroup_finfo (v : Lanes) (s : State) :
    (advanceGroup v s).finfo = s.finfo := rfl
@[simp] theorem advanceGroup_hidden_i (v : Lanes) (s : State) :
    (advanceGroup v s).hidden.i = s.hidden.i + 4 := rfl
@[simp] theorem advanceGroup_hidden_ccur (v : Lanes) (s : State) :
    (advanceGroup v s).hidden.ccur = s.hidden.ccur := rfl
@[simp] theorem advanceGroup_hidden_dcur (v : Lanes) (s : State) :
    (advanceGroup v s).hidden.dcur = s.hidden.dcur + byteCount s.hidden.cb := rfl
@[simp] theorem advanceGroup_hidden_acc (v : Lanes) (s : State) :
    (advanceGroup v s).hidden.acc = s.hidden.acc := rfl
@[simp] theorem advanceGroup_hidden_cb (v : Lanes) (s : State) :
    (advanceGroup v s).hidden.cb = s.hidden.cb := rfl
@[simp] theorem advanceGroup_hidden_carry (v : Lanes) (s : State) :
    (advanceGroup v s).hidden.carry = if s.hidden.delta then v.l3 else s.hidden.carry := rfl
@[simp] theorem advanceGroup_hidden_zig (v : Lanes) (s : State) :
    (advanceGroup v s).hidden.zig = s.hidden.zig := rfl
@[simp] theorem advanceGroup_hidden_delta (v : Lanes) (s : State) :
    (advanceGroup v s).hidden.delta = s.hidden.delta := rfl
@[simp] theorem advanceGroup_hidden_dir (v : Lanes) (s : State) :
    (advanceGroup v s).hidden.dir = s.hidden.dir := rfl
@[simp] theorem advanceGroup_hidden_vec (v : Lanes) (s : State) :
    (advanceGroup v s).hidden.vec = s.hidden.vec := rfl
@[simp] theorem advanceGroup_hidden_window (v : Lanes) (s : State) :
    (advanceGroup v s).hidden.window = s.hidden.window := rfl
@[simp] theorem advanceGroup_hidden_lanes (v : Lanes) (s : State) :
    (advanceGroup v s).hidden.lanes = v := rfl
@[simp] theorem advanceGroup_enc (v : Lanes) (s : State) : (advanceGroup v s).enc = s.enc := rfl
@[simp] theorem advanceGroup_val (v : Lanes) (s : State) : (advanceGroup v s).val = s.val := rfl
@[simp] theorem advanceGroup_vecAvail (v : Lanes) (s : State) :
    (advanceGroup v s).vecAvail = s.vecAvail := rfl
@[simp] theorem advanceGroup_host (v : Lanes) (s : State) : (advanceGroup v s).host = s.host := rfl
@[simp] theorem advanceGroup_readData (v : Lanes) (s : State) :
    (advanceGroup v s).readData = s.readData := rfl
@[simp] theorem advanceGroup_written (v : Lanes) (s : State) :
    (advanceGroup v s).written = s.written := rfl
@[simp] theorem advanceGroup_draws (v : Lanes) (s : State) :
    (advanceGroup v s).draws = s.draws := rfl
@[simp] theorem advanceGroup_cfg (v : Lanes) (s : State) : (advanceGroup v s).cfg = s.cfg := rfl

/-! ### resetBlock -/

@[simp] theorem resetBlock_n (s : State) : (resetBlock s).n = 0 := rfl
@[simp] theorem resetBlock_prev (s : State) : (resetBlock s).prev = 0 := rfl
@[simp] theorem resetBlock_encLen (s : State) : (resetBlock s).encLen = 0 := rfl
@[simp] theorem resetBlock_status (s : State) : (resetBlock s).status = 0x00#8 := rfl
@[simp] theorem resetBlock_result (s : State) : (resetBlock s).result = 0 := rfl
@[simp] theorem resetBlock_finfo (s : State) : (resetBlock s).finfo = 0 := rfl
@[simp] theorem resetBlock_hidden (s : State) : (resetBlock s).hidden = Hidden.reset := rfl
@[simp] theorem resetBlock_enc (s : State) : (resetBlock s).enc = s.enc := rfl
@[simp] theorem resetBlock_val (s : State) : (resetBlock s).val = s.val := rfl
@[simp] theorem resetBlock_vecAvail (s : State) : (resetBlock s).vecAvail = s.vecAvail := rfl
@[simp] theorem resetBlock_host (s : State) : (resetBlock s).host = s.host := rfl
@[simp] theorem resetBlock_readData (s : State) : (resetBlock s).readData = s.readData := rfl
@[simp] theorem resetBlock_written (s : State) :
    (resetBlock s).written = { n := false, prev := false, encLen := false } := rfl
@[simp] theorem resetBlock_draws (s : State) : (resetBlock s).draws = s.draws := rfl
@[simp] theorem resetBlock_cfg (s : State) : (resetBlock s).cfg = s.cfg := rfl

/-! ### pushMove -/

@[simp] theorem pushMove_n (m : HostMove) (s : State) : (pushMove m s).n = s.n := rfl
@[simp] theorem pushMove_prev (m : HostMove) (s : State) : (pushMove m s).prev = s.prev := rfl
@[simp] theorem pushMove_encLen (m : HostMove) (s : State) : (pushMove m s).encLen = s.encLen := rfl
@[simp] theorem pushMove_status (m : HostMove) (s : State) : (pushMove m s).status = s.status := rfl
@[simp] theorem pushMove_result (m : HostMove) (s : State) : (pushMove m s).result = s.result := rfl
@[simp] theorem pushMove_finfo (m : HostMove) (s : State) : (pushMove m s).finfo = s.finfo := rfl
@[simp] theorem pushMove_hidden (m : HostMove) (s : State) : (pushMove m s).hidden = s.hidden := rfl
@[simp] theorem pushMove_enc (m : HostMove) (s : State) : (pushMove m s).enc = s.enc := rfl
@[simp] theorem pushMove_val (m : HostMove) (s : State) : (pushMove m s).val = s.val := rfl
@[simp] theorem pushMove_vecAvail (m : HostMove) (s : State) :
    (pushMove m s).vecAvail = s.vecAvail := rfl
@[simp] theorem pushMove_host (m : HostMove) (s : State) : (pushMove m s).host = m :: s.host := rfl
@[simp] theorem pushMove_readData (m : HostMove) (s : State) :
    (pushMove m s).readData = s.readData := rfl
@[simp] theorem pushMove_written (m : HostMove) (s : State) :
    (pushMove m s).written = s.written := rfl
@[simp] theorem pushMove_draws (m : HostMove) (s : State) : (pushMove m s).draws = s.draws := rfl
@[simp] theorem pushMove_cfg (m : HostMove) (s : State) : (pushMove m s).cfg = s.cfg := rfl

end Sys2Proof.Machine
end

