-- ==== Sys2Proof/Tests/Slice0.lean ====
section
/-! SUPPORT. Tests of the model against 95_test_vectors.md and the rules' own examples, and a witness for
the hypotheses of every statement that has some. -/

namespace Sys2Proof.Tests

open Sys2Proof.Machine Sys2Proof.Safety

/-- The next state of an outcome. -/
def next? (o : Host.Outcome State Fault Refusal) : Option State :=
  match o with
  | .next t => some t
  | .fault _ => none
  | .refused _ => none

/-- The block at reset with operands and spaces given. -/
def start (n : Word) (prev : Word) (encLen : Cw) (bytes : List Byte) (words : List Word) : State :=
  { State.reset with
      n := n, prev := prev, encLen := encLen
      enc := Memory.writeList [] 0 bytes, val := Memory.writeList [] 0 words }

/-- The same without the contract check. -/
def loose (s : State) : State := { s with cfg := { s.cfg with strictContract := false } }

/-- The first `k` bytes of ENC, `RESULT` and `PREV` after a command. -/
def encodedBy (i : Instr) (k : Nat) (s : State) : Option (List Byte × Nat × Word) :=
  (next? (exec i s)).map fun t =>
    ((List.range k).map (Memory.read t.enc), t.result.toNat, t.prev)

/-- The first `k` words of VAL, `RESULT` and `PREV` after a command. -/
def decodedBy (i : Instr) (k : Nat) (s : State) : Option (List Word × Nat × Word) :=
  (next? (exec i s)).map fun t =>
    ((List.range k).map (Memory.read t.val), t.result.toNat, t.prev)

/-- `STATUS` and `FINFO` after a command. -/
def endOf (i : Instr) (s : State) : Option (Byte × Nat) :=
  (next? (exec i s)).map fun t => (t.status, t.finfo.toNat)

/-! ### Well-formedness, decoding -/

/-- Every one of the seven reserved words is refused (30_encoding.md R59, R61). -/
theorem test_reserved_words_ill_formed :
    CommandWord.wf 0b1001#4 = false ∧ CommandWord.wf 0b1010#4 = false ∧
    CommandWord.wf 0b1100#4 = false ∧ CommandWord.wf 0b1111#4 = false ∧
    CommandWord.wf 0b1000#4 = true ∧ CommandWord.wf 0b0111#4 = true := by decide

/-- Each check of the configuration refuses a term (00_scope.md R6). -/
theorem test_config_ill_formed :
    ¬ Config.wf { Config.standard with nMax := 999999 } ∧
    ¬ Config.wf { Config.standard with nMax := 2 ^ 32 } ∧ Config.wf Config.standard := by decide

/-- Each check of the canonical form refuses a space: order, repeats, a cell listed as 0. -/
theorem test_memory_ill_formed :
    ¬ Memory.wf [(2, 1#8), (1, 1#8)] ∧ ¬ Memory.wf [(1, 1#8), (1, 2#8)] ∧
    ¬ Memory.wf [(1, 0#8)] ∧ Memory.wf [(1, 1#8), (2, 1#8)] := by decide

/-- The command words of 30_encoding.md R60, written out bit by bit. -/
theorem test_decode_words :
    decodeTableWord 8 0b00000000 = some .enc ∧ decodeTableWord 8 0b00000001 = some .dec ∧
    decodeTableWord 8 0b00000010 = some .encd ∧ decodeTableWord 8 0b00000011 = some .decd ∧
    decodeTableWord 8 0b00000100 = some .encz ∧ decodeTableWord 8 0b00000101 = some .decz ∧
    decodeTableWord 8 0b00000110 = some .encdz ∧ decodeTableWord 8 0b00000111 = some .decdz ∧
    decodeTableWord 8 0b00001000 = some .size := by decide

/-- Reserved words decode to nothing; 0x18 is command 8 (95_test_vectors.md 2.11). -/
theorem test_decode_reserved :
    decodeTableWord 8 9 = none ∧ decodeTableWord 8 15 = none ∧ decodeTableWord 8 0x18 = some .size ∧
    decodeBytes [] = .error .noCommand := by decide

/-- From reset a command placed by `withFetchWord` is the next step and completes, and a reserved word
faults (95_test_vectors.md 2.11, P5). -/
theorem test_first_command_after_reset :
    (next? (step (State.reset.withFetchWord 8 0x0))).map (·.status) = some 0x02#8 ∧
    (next? (step (State.reset.withFetchWord 8 0x7))).map (·.status) = some 0x02#8 ∧
    (next? (step (State.reset.withFetchWord 8 0x9))).map (fun t => (t.status, t.finfo)) =
      some (0x07#8, 9#35) := by decide

/-! ### Primitives -/

/-- 95_test_vectors.md 2.7: the row that tells a logical shift from an arithmetic one, and both ends. -/
theorem test_zigzag :
    zigEnc 0xFFFFFFFE#32 = 3#32 ∧ zigEnc 0x80000000#32 = 0xFFFFFFFF#32 ∧
    zigDec 0xFFFFFFFE#32 = 0x7FFFFFFF#32 ∧ zigDec 0xFFFFFFFF#32 = 0x80000000#32 := by decide

/-- 95_test_vectors.md 2.9: `ByteCount` and a row of `ShuffleMask`. -/
theorem test_tables :
    byteCount 0x3F#8 = 13 ∧ byteCount 0x38#8 = 9 ∧
    (List.range 16).map (shuffleMask 0x38#8) =
      [some 0, none, none, none, some 1, some 2, some 3, none,
        some 4, some 5, some 6, some 7, some 8, none, none, none] := by decide

/-- 43_vector_decode.md R122: the example of `Permute`. -/
theorem test_permute :
    permute 0x5A5A5A5A5A01DEADBEEFADBEEFBEEFEF#128 (shuffleMask 0xE4#8) =
      { l0 := 0xEF, l1 := 0xBEEF, l2 := 0xADBEEF, l3 := 0xDEADBEEF } := by decide

/-- 95_test_vectors.md 2.10: a prefix sum whose third lane wraps. -/
theorem test_prefixSum :
    prefixSum 0x00011170#32 { l0 := 1, l1 := 0, l2 := 0xFFFEEE94, l3 := 0 } =
      { l0 := 0x00011171, l1 := 0x00011171, l2 := 5, l3 := 5 } := by decide

/-! ### Commands -/

/-- 95_test_vectors.md 2.8, second row: a group and a partial group. -/
theorem test_enc :
    encodedBy .enc 14 (start 5 0 22 (List.replicate 14 0x77) [0xEF, 0xBEEF, 0xADBEEF, 0xDEADBEEF, 1]) =
      some ([0xE4, 0x00, 0xEF, 0xEF, 0xBE, 0xEF, 0xBE, 0xAD, 0xEF, 0xBE, 0xAD, 0xDE, 0x01, 0x77],
        13, 0) := by decide

/-- 95_test_vectors.md 2.11: the contract check, and without it the data put of value 3. -/
theorem test_enc_faults :
    endOf .enc (start 5 0 10 [] [0xEF, 0xBEEF, 0xADBEEF, 0xDEADBEEF, 1]) = some (0x0F, 10) ∧
    endOf .enc (loose (start 5 0 10 [] [0xEF, 0xBEEF, 0xADBEEF, 0xDEADBEEF, 1])) =
      some (0x0B, 8) := by decide

/-- 95_test_vectors.md 2.3: the unused bits of the control byte are ignored. -/
theorem test_dec :
    decodedBy .dec 3 (start 2 9 3 [0xF0, 0x07, 0x09] [1, 1, 1]) = some ([7, 9, 1], 3, 9) := by decide

/-- 95_test_vectors.md 2.11: a decode that runs out at value 3, and one without its control byte. -/
theorem test_dec_faults :
    endOf .dec (start 5 0 11 [0xE4, 0, 0xEF, 0xEF, 0xBE, 0xEF, 0xBE, 0xAD, 0xEF, 0xBE, 0xAD] []) =
      some (0x0B, 8) ∧
    endOf .dec (start 5 0 0 [] []) = some (0x0B, 0) := by decide

/-- 42_scalar_operations.md R105: the example. -/
theorem test_encd :
    encodedBy .encd 10 (start 4 10 17 [] [13, 13, 9, 0x10000]) =
      some ([0x70, 0x03, 0x00, 0xFC, 0xFF, 0xFF, 0xFF, 0xF7, 0xFF, 0x00], 9, 0x00010000) := by decide

/-- 42_scalar_operations.md R106: the example. -/
theorem test_decd :
    decodedBy .decd 4 (start 4 10 9 [0x70, 0x03, 0x00, 0xFC, 0xFF, 0xFF, 0xFF, 0xF7, 0xFF] []) =
      some ([13, 13, 9, 0x10000], 9, 0x00010000) := by decide

/-- 42_scalar_operations.md R107: the example. -/
theorem test_encz :
    encodedBy .encz 8 (start 3 0 13 [] [0xFFFFFFFF, 1, 0x80000000]) =
      some ([0x30, 0x01, 0x02, 0xFF, 0xFF, 0xFF, 0xFF, 0x00], 7, 0) := by decide

/-- 42_scalar_operations.md R108: the example. -/
theorem test_decz :
    decodedBy .decz 3 (start 3 0 7 [0x30, 0x01, 0x02, 0xFF, 0xFF, 0xFF, 0xFF] []) =
      some ([0xFFFFFFFF, 1, 0x80000000], 7, 0) := by decide

/-- 42_scalar_operations.md R109: the example. -/
theorem test_encdz :
    encodedBy .encdz 6 (start 3 10 13 [] [0xD, 0x9, 0xFFFFFF88]) =
      some ([0x10, 0x06, 0x07, 0x01, 0x01, 0x00], 5, 0xFFFFFF88) := by decide

/-- The bytes of 95_test_vectors.md P3, with sixteen more behind them. -/
def p3Bytes : List Byte :=
  [0x80, 0x38, 0x0C, 0x00, 0x03, 0x0A, 0xB5, 0x2A, 0x02, 0x01, 0xE2, 0x22, 0x02, 0xFE, 0xFF, 0xFF,
    0xFF, 0x02, 0x00, 0xF5, 0xFF, 0xFF, 0xFF, 0x02] ++ List.replicate 16 0xAA

/-- 95_test_vectors.md P3: the vector decode of eleven values. -/
theorem test_decdz_vector :
    decodedBy .decdz 11 { start 11 0x3E8 40 p3Bytes [] with vecAvail := true } =
      some ([0x3E8, 0x3E6, 0x3EB, 0xFFFEEE90, 0xFFFEEE8F, 0, 0x7FFFFFFF, 0x80000000, 0x80000000, 5, 6],
        24, 6) := by decide

/-- 95_test_vectors.md P3: the first group step of the trace. -/
theorem test_group_step :
    (match groupStep (startDecode (latchOptions 0b0111#4 (start 11 0x3E8 24 p3Bytes []))) with
      | .done _ t => some (t.hidden.carry, t.hidden.dcur, t.hidden.i, t.hidden.ccur)
      | .raised _ _ _ => none) = some (0xFFFEEE90, 9, 4, 1) := by decide

/-- 95_test_vectors.md 2.5: the largest size. -/
theorem test_size :
    (next? (exec .size (start 0xFFFFFFFF 3 0 [] []))).map (fun t => (t.result.toNat, t.prev)) =
      some (18253611004, 3) := by decide

/-- 95_test_vectors.md 2.11: `N` above a smaller `N_MAX`. -/
theorem test_size_illegal :
    endOf .size { start 1000001 0 0 [] [] with cfg := { Config.standard with nMax := 1000000 } } =
      some (0x07, 8) := by decide

end Sys2Proof.Tests
end

