-- ==== Sys2Proof/Tests/Witnesses.lean ====
section
/-! SUPPORT. For every statement of Certificates/Slice0/Obligations.lean that has hypotheses, a concrete
state and operands that meet all of them together, clause by clause, at boundary values. -/

namespace Sys2Proof.Tests

open Sys2Proof.Machine Sys2Proof.Safety

/-- The outcome is a next state that `p` holds of. -/
def nextSat (o : Host.Outcome State Fault Refusal) (p : State → Bool) : Bool :=
  match o with
  | .next t => p t
  | .fault _ => false
  | .refused _ => false

theorem exists_of_nextSat {o : Host.Outcome State Fault Refusal} {p : State → Bool}
    (h : nextSat o p = true) : ∃ t, o = .next t ∧ p t = true := by
  cases o with
  | next t => exact ⟨t, rfl, h⟩
  | fault _ => cases h
  | refused _ => cases h

/-- The block at reset with host moves to come. -/
def hosted (moves : List HostMove) : State := { State.reset with host := moves }

/-- The block in `FAULT`, with host moves to come. -/
def stuck (moves : List HostMove) : State := { hosted moves with status := 0x07 }

/-- Five values with room to encode them. -/
def five : State := start 5 10 22 [] [0xEF, 0xBEEF, 0xADBEEF, 0xDEADBEEF, 1]

/-- The encoding of five values, exactly as long as it says. -/
def source : State :=
  start 5 10 13 [0xE4, 0, 0xEF, 0xEF, 0xBE, 0xEF, 0xBE, 0xAD, 0xEF, 0xBE, 0xAD, 0xDE, 1] []

/-- A parameter setting with the smallest `N_MAX`. -/
def small (s : State) : State := { s with cfg := { s.cfg with nMax := 1000000 } }

/-- The same state with another `ENC_LEN`. -/
def sized (len : Cw) (s : State) : State := { s with encLen := len }

theorem witness_CommandCodesNameTheCommands : 9 ≤ (9#4).toNat ∧ 9 ≤ (15#4).toNat := by decide

theorem witness_StepRunsTheDecodedCommand :
    (hosted [.write .op 0x18]).host = .write .op 0x18 :: [] ∧
    decodeBytes (commandBytes 0x18) = .ok (.size, []) := by decide

theorem witness_ReservedCodeIsIllegal :
    (hosted [.write .op 9]).host = .write .op 9 :: [] ∧ 9 ≤ ((9#35).setWidth 4).toNat ∧
    9 ≤ ((15#35).setWidth 4).toNat ∧ Issuable (hosted [.write .op 9]) := by decide

/-- `N` = `N_MAX` is still admitted. -/
theorem witness_OptionsAreLatched :
    Admitted State.reset ∧ Admitted (small (start 1000000 0 0 [] [])) := by decide

/-- `N` = `N_MAX` + 1 is not. -/
theorem witness_IllegalCommandAtIssue :
    9 ≤ (9#4).toNat ∧ Issuable State.reset ∧
    (small (start 1000001 0 0 [] [])).cfg.nMax < (small (start 1000001 0 0 [] [])).n.toNat ∧
    Issuable (small (start 1000001 0 0 [] [])) ∧
    State.reset.cfg.nMax = Config.standard.nMax := by decide

theorem witness_FaultStateIsSticky :
    ¬ Issuable (stuck [.write .n 3]) ∧ (stuck [.write .n 3]).host = .write .n 3 :: [] ∧
    ¬ Issuable (stuck [.write .prev 3]) ∧ ¬ Issuable (stuck [.write .encLen 3]) ∧
    (stuck [.write .prev 0xFFFFFFFF]).host = .write .prev 0xFFFFFFFF :: [] ∧
    (0xFFFFFFFF : Cw).toNat < 2 ^ 32 ∧
    ¬ Issuable (stuck [.read .status]) ∧ ¬ Issuable (stuck [.reset]) := by decide

theorem witness_FaultStateIsSticky_step :
    ∃ t, step (stuck [.write .op 8]) = .next t ∧ HostMove.write .op 8 ≠ .reset :=
  ⟨_, rfl, by decide⟩

/-- One byte below the contract, at it, and in the gap between size and contract. -/
theorem witness_ContractCheckAtIssue :
    Admitted (sized 21 five) ∧ (sized 21 five).cfg.strictContract = true ∧
    (sized 21 five).encLen.toNat < maxEncodedSize (sized 21 five).n.toNat ∧
    Admitted (sized 13 (loose five)) ∧ (loose five).cfg.strictContract = false ∧
    Wire.encodedSize false false (sized 13 (loose five)) ≤ 13 ∧
    Admitted five ∧
    ¬ (Wire.encodedSize false false five ≤ five.encLen.toNat ∧
        five.encLen.toNat < maxEncodedSize five.n.toNat) ∧
    Admitted (sized 12 five) ∧
    ¬ (Wire.encodedSize false false (sized 12 five) ≤ (sized 12 five).encLen.toNat ∧
        (sized 12 five).encLen.toNat < maxEncodedSize (sized 12 five).n.toNat) := by decide

theorem witness_ContractCheckAtIssue_cause :
    ∃ t, exec .enc (sized 21 five) = .next t ∧
      decide (Issuable (sized 21 five) ∧ Status.cause t.status = some .contractCheck) = true :=
  exists_of_nextSat (by decide)

/-- Each of the three faults, for the statements about any fault. -/
theorem witness_FaultWritesOnlyItsRegisters :
    (∃ t, exec .size (small (start 1000001 0 0 [] [])) = .next t ∧ decide (¬ Issuable t) = true) ∧
    (∃ t, exec .encdz (sized 21 five) = .next t ∧ decide (¬ Issuable t) = true) ∧
    (∃ t, exec .dec (sized 12 source) = .next t ∧ decide (¬ Issuable t) = true) :=
  ⟨exists_of_nextSat (by decide), exists_of_nextSat (by decide), exists_of_nextSat (by decide)⟩

theorem witness_FaultCausesAndInformation :
    Issuable (small (start 1000001 0 0 [] [])) ∧ Issuable (sized 21 five) ∧
    Issuable (sized 12 source) ∧
    (∃ t, exec .dec (sized 12 source) = .next t ∧
      decide (¬ Issuable t ∧ Status.cause t.status = some .encBounds) = true) :=
  ⟨by decide, by decide, by decide, exists_of_nextSat (by decide)⟩

theorem witness_SpacesAfterFault :
    (∃ t, exec .enc (sized 12 (loose five)) = .next t ∧
      decide (¬ Issuable t ∧ Status.cause t.status = some .encBounds) = true) ∧
    (∃ t, exec .dec (sized 12 source) = .next t ∧
      decide (¬ Issuable t ∧ Status.cause t.status = some .encBounds) = true) ∧
    (∃ t, exec .enc (sized 21 five) = .next t ∧
      decide (¬ Issuable t ∧ Status.cause t.status ≠ some .encBounds) = true) :=
  ⟨exists_of_nextSat (by decide), exists_of_nextSat (by decide), exists_of_nextSat (by decide)⟩

/-- The first put fails, and the last one does by one byte (95_test_vectors.md 2.11). -/
theorem witness_EncodeRunsOutOfSpace :
    EncodeAdmitted (sized 2 (loose five)) ∧
    (sized 2 (loose five)).encLen.toNat <
      Wire.encodedOffset false false (Wire.valWords five) five.prev 5 1 ∧
    EncodeAdmitted (sized 12 (loose five)) ∧
    (∀ j, j < 4 → Wire.encodedOffset false false (Wire.valWords five) five.prev 5 (j + 1) ≤ 12) ∧
    12 < Wire.encodedOffset false false (Wire.valWords five) five.prev 5 5 := by decide

/-- No control byte; the first data byte missing; the last one missing (95_test_vectors.md 2.11). -/
theorem witness_DecodeRunsOutOfBytes :
    Admitted (sized 0 source) ∧ ¬ Wire.Readable (Wire.encBytes source) 5 0 0 ∧
    Wire.failingOffset (Wire.encBytes source) 5 0 0 = 0 ∧
    ¬ Wire.Readable (Wire.encBytes source) 5 2 0 ∧
    Wire.failingOffset (Wire.encBytes source) 5 2 0 = 2 ∧
    (∀ j, j < 4 → Wire.Readable (Wire.encBytes source) 5 12 j) ∧
    ¬ Wire.Readable (Wire.encBytes source) 5 12 4 ∧
    Wire.failingOffset (Wire.encBytes source) 5 12 4 = 12 := by decide

theorem witness_EveryCommandEnds : Issuable State.reset ∧ ¬ Issuable (stuck []) := by decide

theorem witness_CommandsLeaveTheHostsRegisters :
    ∃ t, exec .encd five = .next t ∧ decide (Completed t ∧ Issuable five) = true :=
  exists_of_nextSat (by decide)

theorem witness_SizeCommandResult :
    Admitted (start 0xFFFFFFFF 0 0 [] []) ∧ Issuable (small (start 1000001 0 0 [] [])) ∧
    (small (start 1000001 0 0 [] [])).cfg.nMax < (small (start 1000001 0 0 [] [])).n.toNat := by
  decide

theorem witness_EmptySequence :
    Instr.encdz ≠ .size ∧ Issuable (start 0 7 0 [] []) ∧ (start 0 7 0 [] []).n = 0#32 := by decide

/-- At the contract, at the exact size without it, and with `N` = 0. -/
theorem witness_EncodeWritesTheWireFormat :
    EncodeAdmitted five ∧ Wire.encodedSize true true five ≤ five.encLen.toNat ∧
    EncodeAdmitted (sized 13 (loose five)) ∧
    Wire.encodedSize false false (sized 13 (loose five)) = 13 ∧
    EncodeAdmitted (start 0 0 0 [] []) ∧ Wire.encodedSize false true (start 0 0 0 [] []) ≤ 0 := by
  decide

theorem witness_DecodeReadsTheWireFormat :
    Admitted source ∧ Wire.decodedSize source = source.encLen.toNat ∧
    Admitted (start 0 0 0 [] []) ∧ Wire.decodedSize (start 0 0 0 [] []) = 0 := by decide

/-- The state the round trip's decode starts from: the encoding of `five`, its length, its `PREV`. -/
theorem witness_EncodeThenDecodeRestores :
    Admitted five ∧ EncodeCapacity five ∧
    (∃ t, exec .enc five = .next t ∧
      decide (Admitted source ∧ source.n = five.n ∧ source.prev = five.prev ∧
        t.result.toNat ≤ source.encLen.toNat ∧
        (List.range t.result.toNat).all fun a => Memory.read source.enc a == Memory.read t.enc a) = true) :=
  ⟨by decide, by decide, exists_of_nextSat (by decide)⟩

/-- The guard at its boundary: 16 bytes, four values (95_test_vectors.md 2.10). -/
theorem witness_VectorEngineEqualsScalarEngine :
    vecGuard (startDecode (start 4 0 17 [0xE4] [])) = true ∧
    (startDecode (start 4 0 17 [0xE4] [])).hidden.i % 4 = 0 ∧
    (startDecode (start 4 0 17 [0xE4] [])).hidden.ccur < 17 ∧
    vecGuard (startDecode (start 4 0 16 [0xE4] [])) = false := by decide

theorem witness_GroupLoopHandsOverAtTheGuard :
    (start 4 0 16 [] []).encLen.toNat < ceil4 (start 4 0 16 [] []).n.toNat + 16 := by decide

/-- A delta command that completes with `N` = 0 and with values, a plain one, and a fault. -/
theorem witness_CarryRegister :
    (∃ t, exec .encd five = .next t ∧ decide (Issuable five ∧ Completed t) = true) ∧
    (∃ t, exec .decd (start 0 7 0 [] []) = .next t ∧ decide (Completed t) = true) ∧
    (∃ t, exec .dec source = .next t ∧ decide (Issuable source ∧ Completed t) = true) ∧
    (∃ t, exec .dec (sized 12 source) = .next t ∧ decide (¬ Completed t ∧ ¬ Issuable t) = true) :=
  ⟨exists_of_nextSat (by decide), exists_of_nextSat (by decide), exists_of_nextSat (by decide),
    exists_of_nextSat (by decide)⟩

theorem witness_EncodeDoesNotReadEnc :
    ∃ t, exec .encdz five = .next t ∧ decide (Completed t ∧ Issuable five) = true :=
  exists_of_nextSat (by decide)

theorem witness_DecodeDoesNotReadVal :
    ∃ t, exec .decdz source = .next t ∧ decide (Completed t ∧ Issuable source) = true :=
  exists_of_nextSat (by decide)

/-- At the exact length, beyond it with another byte behind, and one byte short. -/
theorem witness_LongerSourceChangesNothing :
    Admitted source ∧ Wire.decodedSize source ≤ source.encLen.toNat ∧
    Wire.decodedSize source ≤ (14#35).toNat ∧
    (∀ a, a < 13 → Memory.read (Memory.write source.enc 13 0xAA#8) a = Memory.read source.enc a) ∧
    (12#35).toNat < Wire.decodedSize source := by decide

/-- One value left over, with other bits in the unused part of its control byte. -/
theorem witness_UnusedControlBits :
    source.n.toNat % 4 ≠ 0 ∧ EncodeAdmitted five ∧
    Wire.encodedSize false false five ≤ five.encLen.toNat ∧
    (0xFC#8).toNat % 4 ^ (source.n.toNat % 4) =
      (Memory.read source.enc (source.n.toNat / 4)).toNat % 4 ^ (source.n.toNat % 4) := by decide

theorem witness_EncodedSizes :
    EncodeAdmitted five ∧ Wire.encodedSize false false five ≤ five.encLen.toNat ∧
    (∀ i, i < 4 →
      width (Wire.toStore false false (Wire.valWords (start 4 0 17 [] [256, 256, 256, 256])) 0 i) = 2) ∧
    (∃ v, exec .enc five = .next v ∧ decide (Completed v) = true) :=
  ⟨by decide, by decide, by decide, exists_of_nextSat (by decide)⟩

theorem witness_MaxEncodedSizeIsTheBound :
    (3 : Nat) < 4 ∧ (2 ^ 32 - 1 : Nat) < 2 ^ 32 ∧ ∀ i, i < 1 →
      width (Wire.toStore false false (fun _ => 0xFFFFFFFF) 0 i) = 4 := by decide

theorem witness_CountersStayInBounds :
    (∃ t u, encodeLoop 5 (startEncode five) = .done () t ∧ ctlFlush t = .done () u) ∧
    (∃ t u, groupLoop 1 (startDecode (sized 18 source)) = .done () t ∧
      decodeLoop 1 t = .done () u ∧ t.hidden.i + 1 ≤ source.n.toNat) :=
  ⟨⟨_, _, rfl, rfl⟩, ⟨_, _, rfl, rfl, by decide⟩⟩

/-- The ends of the one-byte range of the zigzag map. -/
theorem witness_ZigzagIsABijection :
    -(2 : Int) ^ (8 * 1 - 1) ≤ (0xFFFFFF80#32).toInt ∧
    (0xFFFFFF80#32).toInt < (2 : Int) ^ (8 * 1 - 1) ∧
    (0x7F#32).toInt < (2 : Int) ^ (8 * 1 - 1) ∧ (0x7FFFFFFF#32).toInt < (2 : Int) ^ (8 * 4 - 1) := by
  decide

theorem witness_TransformsUndoEachOther :
    five.hidden.carry = State.reset.hidden.carry ∧ five.hidden.zig = State.reset.hidden.zig ∧
    five.hidden.delta = State.reset.hidden.delta := by decide

/-- An access that just fits and one that just does not, at offset 0 and at the end. -/
theorem witness_EncAccessesAreChecked :
    0 + 4 ≤ (sized 4 five).encLen.toNat ∧ (sized 3 five).encLen.toNat < 0 + 4 ∧
    12 + 1 ≤ (sized 13 five).encLen.toNat ∧ (sized 12 five).encLen.toNat < 12 + 1 ∧
    vecGuard (startDecode (start 4 0 17 [] [])) = true := by decide

theorem witness_DataStreamAccesses :
    (startEncode (sized 6 five)).hidden.dcur + 4 ≤ (sized 6 five).encLen.toNat ∧
    (sized 5 five).encLen.toNat < (startEncode (sized 5 five)).hidden.dcur + 4 := by decide

theorem witness_ControlPut :
    (startEncode five).hidden.i % 4 ≠ 3 ∧
    (nextIndex (nextIndex (nextIndex (startEncode five)))).hidden.i % 4 = 3 ∧
    (nextIndex (nextIndex (nextIndex (startEncode (sized 1 five))))).hidden.ccur < 1 ∧
    (0#35).toNat ≤ (nextIndex (nextIndex (nextIndex (startEncode (sized 0 five))))).hidden.ccur := by
  decide

theorem witness_ControlGet :
    (nextIndex (startDecode source)).hidden.i % 4 ≠ 0 ∧ (startDecode source).hidden.i % 4 = 0 ∧
    (startDecode (sized 1 source)).hidden.ccur < (sized 1 source).encLen.toNat ∧
    (sized 0 source).encLen.toNat ≤ (startDecode (sized 0 source)).hidden.ccur := by decide

theorem witness_ShuffleMaskTable : shuffleMask 0xFF#8 15 = some 15 ∧ (15 : Nat) < 16 := by decide

theorem witness_PermuteAgreesWithDataGet :
    (startDecode (sized 18 source)).hidden.dcur + 16 ≤ (sized 18 source).encLen.toNat := by decide

theorem five_inv : Inv five := ⟨by decide, by decide, by decide, by decide⟩

/-- A reachable and an idle state that meet the invariant and step. -/
theorem witness_EveryStepKeepsTheInvariant :
    Inv { five with host := [.write .op 0] } ∧
    ∃ t, step { five with host := [.write .op 0] } = .next t ∧ decide (Completed t) = true :=
  ⟨⟨by decide, by decide, by decide, by decide⟩, exists_of_nextSat (by decide)⟩

theorem witness_CanonicalSpacesAreEqualWhenTheyReadAlike :
    Memory.wf [(1, 1#8), (2, 1#8)] ∧ Memory.wf ([] : List (Nat × BitVec 8)) := by decide

theorem witness_ResetEvent : (stuck [.reset]).host = .reset :: [] := by decide

theorem witness_HostRegisterAccess :
    State.reset.host = [] ∧ (hosted [.write .n 1]).host = .write .n 1 :: [] ∧
    (hosted [.write .prev 1]).host = .write .prev 1 :: [] ∧
    (hosted [.write .encLen 1]).host = .write .encLen 1 :: [] ∧
    (hosted [.write .status 1]).host = .write .status 1 :: [] ∧
    (hosted [.write .result 1]).host = .write .result 1 :: [] ∧
    (hosted [.write .finfo 1]).host = .write .finfo 1 :: [] ∧
    (hosted [.read .op]).host = .read .op :: [] ∧ (hosted [.read .n]).host = .read .n :: [] ∧
    (hosted [.read .prev]).host = .read .prev :: [] ∧
    (hosted [.read .encLen]).host = .read .encLen :: [] ∧
    (hosted [.read .status]).host = .read .status :: [] ∧
    (hosted [.read .result]).host = .read .result :: [] ∧
    (hosted [.read .finfo]).host = .read .finfo :: [] := by decide

theorem witness_HostFillsTheSpaces :
    (hosted [.fillEnc [1, 2]]).host = .fillEnc [1, 2] :: [] ∧
    [1#8, 2#8].length ≤ Memory.encSize ∧
    (hosted [.fillVal [1, 2]]).host = .fillVal [1, 2] :: [] ∧
    [1#32, 2#32].length ≤ Memory.valSize ∧
    (hosted [.driveVec true]).host = .driveVec true :: [] := by decide

end Sys2Proof.Tests
end

section
/-! PROOFS. Family 10_state.md: the counters of the operations stay in bounds (10_state.md R17). -/

namespace Sys2Proof.Machine

/-! ### What one iteration does to the counters -/

theorem encodeOne_counters {s t : State} (h : encodeOne s = .done () t) :
    t.hidden.i = s.hidden.i + 1 ∧
      t.hidden.ccur = (if s.hidden.i % 4 = 3 then s.hidden.ccur + 1 else s.hidden.ccur) ∧
      t.hidden.dcur = s.hidden.dcur +
        width (encodeTransform (Memory.read s.val s.hidden.i) s).1 := by
  obtain ⟨p, q, hp, hq, rfl⟩ := encodeOne_eq_done.1 h
  rw [encodeTransform_snd] at hp
  obtain ⟨-, rfl⟩ := dataPut_eq_done.1 hp
  rcases ctlPut_eq_done.1 hq with ⟨hi, rfl⟩ | ⟨hi, -, rfl⟩
  · simp [show s.hidden.i % 4 ≠ 3 from hi]
  · simp [show s.hidden.i % 4 = 3 from hi]

theorem decodeOne_counters {s t : State} (h : decodeOne s = .done () t) :
    t.hidden.i = s.hidden.i + 1 ∧ t.hidden.ccur = ctlNext s ∧
      t.hidden.dcur = s.hidden.dcur + (slotCode (ctlByte s) 0).toNat + 1 := by
  obtain ⟨c, p, u, q, hp, hq, rfl⟩ := decodeOne_eq_done.1 h
  obtain ⟨-, rfl, rfl⟩ := ctlGet_eq_done.1 hp
  obtain ⟨-, -, rfl⟩ := dataGet_eq_done.1 hq
  rw [decodeTransform_snd]
  exact ⟨rfl, rfl, rfl⟩

theorem groupStep_counters {s t : State} (h : groupStep s = .done () t) :
    t.hidden.i = s.hidden.i + 4 ∧ t.hidden.ccur = s.hidden.ccur + 1 ∧
      t.hidden.dcur = s.hidden.dcur + byteCount (Memory.read s.enc s.hidden.ccur) := by
  obtain ⟨-, -, rfl⟩ := groupStep_eq_done.1 h
  exact ⟨rfl, rfl, rfl⟩

theorem byteCount_le (cb : Byte) : byteCount cb ≤ 16 :=
  byteCount_eq_slotOffset cb ▸ slotOffset_le cb 4

/-! ### The invariant of the loops -/

/-- The data cursor after `i` of `n` elements: it started behind the control bytes, and each element
took at most four bytes (20_memory.md R31). -/
def DcurInRange (n : Nat) (h : Hidden) : Prop :=
  ceil4 n ≤ h.dcur ∧ h.dcur ≤ ceil4 n + 4 * h.i

/-- The counters between two iterations of an encode: a control byte is out for each full group. -/
def EncodeCounters (n : Nat) (h : Hidden) : Prop := h.ccur = h.i / 4 ∧ DcurInRange n h

/-- The counters between two iterations of a decode, by either engine: a control byte is in for each
group begun. -/
def DecodeCounters (n : Nat) (h : Hidden) : Prop := h.ccur = ceil4 h.i ∧ DcurInRange n h

theorem startEncode_counters (s : State) : EncodeCounters s.n.toNat (startEncode s).hidden := by
  simp [EncodeCounters, DcurInRange]

theorem startDecode_counters (s : State) : DecodeCounters s.n.toNat (startDecode s).hidden := by
  simp [DecodeCounters, DcurInRange, ceil4]

theorem DcurInRange.advance {n m w : Nat} {h h' : Hidden} (hr : DcurInRange n h) (hw : w ≤ 4 * m)
    (hi : h'.i = h.i + m) (hd : h'.dcur = h.dcur + w) : DcurInRange n h' := by
  unfold DcurInRange at *; omega

theorem encodeOne_keeps_counters {n : Nat} {s t : State} (h : encodeOne s = .done () t)
    (hs : EncodeCounters n s.hidden) : EncodeCounters n t.hidden := by
  obtain ⟨hc, hr⟩ := hs
  obtain ⟨hi, hc', hd⟩ := encodeOne_counters h
  refine ⟨?_, hr.advance (m := 1) (width_le _) hi hd⟩
  split at hc' <;> omega

theorem decodeOne_keeps_counters {n : Nat} {s t : State} (h : decodeOne s = .done () t)
    (hs : DecodeCounters n s.hidden) : DecodeCounters n t.hidden := by
  obtain ⟨hc, hr⟩ := hs
  obtain ⟨hi, hc', hd⟩ := decodeOne_counters h
  have hw := slotCode_le (ctlByte s) 0
  refine ⟨?_, hr.advance (m := 1) (by omega) hi (hd.trans (Nat.add_assoc ..))⟩
  unfold ctlNext ceil4 at *
  split at hc' <;> omega

theorem groupStep_keeps_counters {n : Nat} {s t : State} (h : groupStep s = .done () t)
    (hs : DecodeCounters n s.hidden) : DecodeCounters n t.hidden := by
  obtain ⟨hc, hr⟩ := hs
  obtain ⟨hi, hc', hd⟩ := groupStep_counters h
  refine ⟨?_, hr.advance (m := 4) (byteCount_le _) hi hd⟩
  unfold ceil4 at *
  omega

theorem encodeLoop_counters {k n : Nat} {s t : State} (h : encodeLoop k s = .done () t)
    (hs : EncodeCounters n s.hidden) :
    t.hidden.i = s.hidden.i + k ∧ EncodeCounters n t.hidden := by
  induction k generalizing s with
  | zero => cases h; exact ⟨rfl, hs⟩
  | succ k ih =>
    obtain ⟨_, p, hp, h⟩ := Run.bind_eq_done.1 h
    obtain ⟨hi, ht⟩ := ih h (encodeOne_keeps_counters hp hs)
    obtain ⟨hone, -⟩ := encodeOne_counters hp
    exact ⟨by omega, ht⟩

theorem encodeLoop_startEncode_counters {k : Nat} {s t : State}
    (h : encodeLoop k (startEncode s) = .done () t) :
    t.hidden.i = k ∧ EncodeCounters s.n.toNat t.hidden := by
  simpa using encodeLoop_counters h (startEncode_counters s)

theorem decodeLoop_counters {k n : Nat} {s t : State} (h : decodeLoop k s = .done () t)
    (hs : DecodeCounters n s.hidden) :
    t.hidden.i = s.hidden.i + k ∧ DecodeCounters n t.hidden := by
  induction k generalizing s with
  | zero => cases h; exact ⟨rfl, hs⟩
  | succ k ih =>
    obtain ⟨_, p, hp, h⟩ := Run.bind_eq_done.1 h
    obtain ⟨hi, ht⟩ := ih h (decodeOne_keeps_counters hp hs)
    obtain ⟨hone, -⟩ := decodeOne_counters hp
    exact ⟨by omega, ht⟩

theorem groupLoop_counters {g n : Nat} {s t : State} (h : groupLoop g s = .done () t)
    (hs : DecodeCounters n s.hidden) : DecodeCounters n t.hidden := by
  induction g generalizing s with
  | zero => cases h; exact hs
  | succ g ih =>
    unfold groupLoop at h
    split at h
    · obtain ⟨_, p, hp, h⟩ := Run.bind_eq_done.1 h
      exact ih h (groupStep_keeps_counters hp hs)
    · cases h; exact hs

/-! ### From the invariant to the bounds -/

/-- The bounds 10_state.md R17 states for the data cursor, which 35 bits hold. -/
theorem DcurInRange.bounds {n : Word} {h : Hidden} (hr : DcurInRange n.toNat h)
    (hi : h.i ≤ n.toNat) :
    ceil4 n.toNat ≤ h.dcur ∧ h.dcur ≤ ceil4 n.toNat + 4 * n.toNat ∧ h.dcur < 2 ^ 35 := by
  obtain ⟨hlo, hhi⟩ := hr
  have hn := n.isLt
  have hceil := ceil4_le n.toNat
  unfold ceil4 at *
  omega

theorem EncodeCounters.ccur_le {n : Nat} {h : Hidden} (hc : EncodeCounters n h) (hi : h.i ≤ n) :
    h.ccur ≤ ceil4 n := by
  obtain ⟨hcc, -⟩ := hc
  unfold ceil4; omega

theorem DecodeCounters.ccur_le {n : Nat} {h : Hidden} (hc : DecodeCounters n h) (hi : h.i ≤ n) :
    h.ccur ≤ ceil4 n :=
  hc.1 ▸ ceil4_mono hi

theorem EncodeFrame.n_eq {s t : State} (h : EncodeFrame s t) : t.n = s.n := by
  unfold EncodeFrame at h; rw [h]

/-- The flush after all `N` values puts out the control byte of a last group that is not full. -/
theorem ctlFlush_counters {s t : State} (h : ctlFlush s = .done () t)
    (hs : EncodeCounters s.n.toNat s.hidden) (hi : s.hidden.i = s.n.toNat) :
    t.hidden.ccur = ceil4 s.n.toNat ∧ t.hidden.dcur = s.hidden.dcur := by
  obtain ⟨hc, -⟩ := hs
  unfold ceil4
  rcases ctlFlush_eq_done.1 h with ⟨hfull, rfl⟩ | ⟨hpart, -, rfl⟩
  · exact ⟨by omega, rfl⟩
  · exact ⟨by dsimp only; omega, rfl⟩

/-- Settles O32: each loop keeps the control cursor at a function of `i` and the data cursor within
`4i` of its start, and `i` never passes `N`. -/
theorem countersStayInBounds : Obligations.CountersStayInBounds := by
  unfold Obligations.CountersStayInBounds
  refine ⟨fun s t k hk h => ?_, fun s t u h hu => ?_, fun s t u g k hg hk h => ?_⟩
  · obtain ⟨hi, ht⟩ := encodeLoop_startEncode_counters h
    have hle : t.hidden.i ≤ s.n.toNat := hi ▸ hk
    exact ⟨hi, ht.ccur_le hle, ht.2.bounds hle⟩
  · obtain ⟨hi, ht⟩ := encodeLoop_startEncode_counters h
    have hn : t.n = s.n := (encodeLoop_frame h).n_eq
    rw [← hn] at hi ht ⊢
    exact ctlFlush_counters hu ht hi
  · obtain ⟨hi, hu⟩ := decodeLoop_counters h (groupLoop_counters hg (startDecode_counters s))
    have hle : u.hidden.i ≤ s.n.toNat := hi ▸ hk
    exact ⟨hi, hu.ccur_le hle, hu.2.bounds hle⟩

end Sys2Proof.Machine
end

section
/-! PROOFS. Family 20_memory.md: the checked accesses to the ENC space (20_memory.md R36). -/

namespace Sys2Proof.Machine

/-- The two conditions of the guard (43_vector_decode.md R126). -/
theorem vecGuard_eq_true {s : State} :
    vecGuard s = true ↔
      s.hidden.dcur + 16 ≤ s.encLen.toNat ∧ s.hidden.i + 4 ≤ s.n.toNat := by
  simp [vecGuard]

/-- Settles O38: the laws of the two accesses, read from the bound to the outcome; the guard's first
condition is the bound of the window read. -/
theorem encAccessesAreChecked : Obligations.EncAccessesAreChecked := by
  unfold Obligations.EncAccessesAreChecked
  refine ⟨fun a k s => ⟨fun hin => ?_, fun hout => ?_⟩,
    fun a k v s => ⟨fun hin => ?_, fun hout => ?_⟩, fun s hguard => ?_⟩
  · exact memRead_eq_done.2 ⟨hin, rfl, rfl⟩
  · exact memRead_eq_raised.2 ⟨hout, rfl, rfl, rfl⟩
  · exact memWrite_eq_done.2 ⟨hin, rfl⟩
  · exact memWrite_eq_raised.2 ⟨hout, rfl, rfl, rfl⟩
  · obtain ⟨hwindow, -⟩ := vecGuard_eq_true.1 hguard
    exact ⟨_, memRead_eq_done.2 ⟨hwindow, rfl, rfl⟩⟩

end Sys2Proof.Machine
end

section
/-! PROOFS. Family 30_encoding.md: the command codes and the reserved codes (30_encoding.md R60, R61). -/

namespace Sys2Proof.Machine

/-- The reserved test of 30_encoding.md R61 picks out the codes of 9 or more. -/
theorem reserved_iff_nine_le (c : OpCode) : CommandWord.reserved c = true ↔ 9 ≤ c.toNat := by
  revert c; decide

theorem decodeCode_of_reserved {c : OpCode} (h : CommandWord.reserved c = true) :
    decodeCode c = .error (.reservedCode c) :=
  if_pos h

/-- Settles O1: the nine codes are evaluated, the others are those the reserved test picks out. -/
theorem commandCodesNameTheCommands : Obligations.CommandCodesNameTheCommands := by
  unfold Obligations.CommandCodesNameTheCommands
  exact ⟨rfl, rfl, rfl, rfl, rfl, rfl, rfl, rfl, rfl,
    fun c h => decodeCode_of_reserved ((reserved_iff_nine_le c).2 h)⟩

/-- The decoder sees the low four bits of the written value and no others. -/
theorem decodeByte_low_byte (v : Cw) : decodeByte (v.setWidth 8) = decodeCode (v.setWidth 4) := by
  rw [decodeByte, BitVec.setWidth_setWidth_of_le v (by decide)]

theorem decodeBytes_commandBytes_of_reserved {v : Cw}
    (h : CommandWord.reserved (v.setWidth 4) = true) :
    decodeBytes (commandBytes v) = .error (.reservedCode (v.setWidth 4)) := by
  simp only [decodeBytes, commandBytes, decodeByte_low_byte, decodeCode_of_reserved h]

/-- A write of a reserved code goes to the command frame, which is to turn it away. -/
theorem step_of_reserved {s : State} {v : Cw} {rest : List HostMove}
    (hhost : s.host = .write .op v :: rest) (h : CommandWord.reserved (v.setWidth 4) = true) :
    step s = execCode (v.setWidth 4) { s with host := rest } := by
  simp only [step, fetch, hhost, fetchMove, fetchCommand, decodeBytes_commandBytes_of_reserved h]

/-- The first check of `Exec(c)` (60_exceptions.md R155). -/
theorem runCommand_of_reserved {c : OpCode} (h : CommandWord.reserved c = true) (s : State) :
    runCommand c s = .raised .illegalCommand c.toNat s :=
  if_pos h

/-- The second check of `Exec(c)`: `N` is past `N_MAX`. -/
theorem runCommand_of_nMax_lt {i : Instr} {s : State} (h : s.cfg.nMax < s.n.toNat) :
    runCommand (encode i) s = .raised .illegalCommand (encode i).toNat s := by
  cases i <;> exact if_pos h

/-- A reserved code ends as a fault at issue does (30_encoding.md R61). -/
theorem execCode_of_reserved {c : OpCode} (h : CommandWord.reserved c = true) {s : State}
    (hs : Safety.Issuable s) :
    execCode c s =
      .next (raiseFault .illegalCommand c.toNat { s with status := Status.issued s.status }) := by
  rw [execCode_of_issuable hs, runCommand_of_reserved h, finish]

/-- The code of a command fits `FINFO`. -/
theorem toNat_finfo_code (c : OpCode) : (BitVec.ofNat 35 c.toNat).toNat = c.toNat := by
  have := c.isLt
  rw [BitVec.toNat_ofNat, Nat.mod_eq_of_lt (by omega)]

/-- Settles O4: the reserved code reaches the frame, its first check raises, and a fault at issue
touches neither space. -/
theorem reservedCodeIsIllegal : Obligations.ReservedCodeIsIllegal := by
  unfold Obligations.ReservedCodeIsIllegal
  intro s v rest hhost hcode hs
  have hres := (reserved_iff_nine_le _).2 hcode
  have hend := execCode_of_reserved hres (s := { s with host := rest }) hs
  exact ⟨decodeBytes_commandBytes_of_reserved hres, _, (step_of_reserved hhost hres).trans hend,
    ⟨Status.state_faulted .., Status.cause_faulted .., toNat_finfo_code _⟩, rfl, rfl, rfl, rfl⟩

end Sys2Proof.Machine
end

section
/-! PROOFS. Family 30_encoding.md: an encode that has room comes to its end, and the last control byte it
writes has no bit above its codes (30_encoding.md R56). -/

namespace Sys2Proof.Machine

open Sys2Proof.Safety

/-! ### Offsets of the elements -/

theorem encodedOffset_mono (zig delta : Bool) (val : Nat → Word) (prev : Word) (n : Nat) :
    Monotone (Wire.encodedOffset zig delta val prev n) :=
  monotone_nat_of_le_succ fun _ => Nat.le_add_right ..

theorem ceil4_le_encodedOffset (zig delta : Bool) (val : Nat → Word) (prev : Word) (n i : Nat) :
    ceil4 n ≤ Wire.encodedOffset zig delta val prev n i :=
  encodedOffset_mono zig delta val prev n (Nat.zero_le i)

/-! ### The control byte being collected -/

/-- A code put in slot `i mod 4` of a byte that holds the codes below it stays below slot
`i mod 4 + 1`. -/
theorem accWith_lt {s : State} (c : WidthCode) (h : s.hidden.acc.toNat < 4 ^ (s.hidden.i % 4)) :
    (accWith c s).toNat < 4 ^ (s.hidden.i % 4 + 1) := by
  have hpow : ∀ k, 2 ^ (2 * k) = 4 ^ k := pow_mul 2 2
  have hc : (c.setWidth 8 <<< (2 * (s.hidden.i % 4))).toNat < 2 ^ (2 * (s.hidden.i % 4 + 1)) := by
    have hlt : c.toNat * 2 ^ (2 * (s.hidden.i % 4)) < 4 * 2 ^ (2 * (s.hidden.i % 4)) :=
      Nat.mul_lt_mul_of_pos_right c.isLt (by positivity)
    rw [BitVec.toNat_shiftLeft, BitVec.toNat_setWidth_of_le (by decide), Nat.shiftLeft_eq]
    exact (Nat.mod_le ..).trans_lt (by rw [Nat.mul_add, pow_add]; omega)
  rw [← hpow] at h ⊢
  rw [accWith, BitVec.toNat_or]
  exact Nat.or_lt_two_pow (h.trans_le (Nat.pow_le_pow_right (by decide) (by omega))) hc

theorem encodeOne_acc {s t : State} (h : encodeOne s = .done () t)
    (hs : s.hidden.acc.toNat < 4 ^ (s.hidden.i % 4)) :
    t.hidden.acc.toNat < 4 ^ (t.hidden.i % 4) := by
  obtain ⟨p, q, hp, hq, rfl⟩ := encodeOne_eq_done.1 h
  rw [encodeTransform_snd] at hp
  obtain ⟨-, rfl⟩ := dataPut_eq_done.1 hp
  rcases ctlPut_eq_done.1 hq with ⟨hi, rfl⟩ | ⟨hi, -, rfl⟩
  · have hslot : (s.hidden.i + 1) % 4 = s.hidden.i % 4 + 1 := by
      replace hi : s.hidden.i % 4 ≠ 3 := hi
      omega
    exact hslot ▸ accWith_lt _ hs
  · exact Nat.pow_pos (by decide)

/-! ### The encode loop -/

/-- The first part of the transform of value `i` is what the wire format stores for it. -/
theorem encodeTransform_fst {s : State} (val : Nat → Word) (prev : Word)
    (hcarry : s.hidden.delta = true → s.hidden.carry = Wire.valueBefore val prev s.hidden.i) :
    (encodeTransform (val s.hidden.i) s).1 =
      Wire.toStore s.hidden.zig s.hidden.delta val prev s.hidden.i := by
  unfold encodeTransform Wire.toStore deltaEnc
  cases hd : s.hidden.delta
  · rfl
  · simp [hcarry hd]

/-- How the encode that started in `s` stands in `t`, between two iterations. -/
structure EncodeStands (s t : State) : Prop where
  frame : EncodeFrame s t
  counters : EncodeCounters s.n.toNat t.hidden
  dcur : t.hidden.dcur = Wire.encodedOffset s.hidden.zig s.hidden.delta (Wire.valWords s) s.prev
    s.n.toNat t.hidden.i
  carry : s.hidden.delta = true →
    t.hidden.carry = Wire.valueBefore (Wire.valWords s) s.prev t.hidden.i
  acc : t.hidden.acc.toNat < 4 ^ (t.hidden.i % 4)

theorem startEncode_stands (s : State) : EncodeStands s (startEncode s) :=
  ⟨rfl, startEncode_counters s, rfl, fun _ => rfl, Nat.one_pos⟩

/-- What the next iteration stores. -/
theorem EncodeStands.stored {s t : State} (h : EncodeStands s t) :
    (encodeTransform (Memory.read t.val t.hidden.i) t).1 =
      Wire.toStore s.hidden.zig s.hidden.delta (Wire.valWords s) s.prev t.hidden.i := by
  obtain ⟨hframe, -, -, hcarry, -⟩ := h
  rw [EncodeFrame] at hframe
  rw [hframe] at hcarry ⊢
  exact encodeTransform_fst (Wire.valWords s) s.prev hcarry

theorem encodeOne_carry {s t : State} (h : encodeOne s = .done () t) :
    t.hidden.carry =
      if s.hidden.delta then Memory.read s.val s.hidden.i else s.hidden.carry := by
  obtain ⟨p, q, hp, hq, rfl⟩ := encodeOne_eq_done.1 h
  rw [encodeTransform_snd] at hp
  obtain ⟨-, rfl⟩ := dataPut_eq_done.1 hp
  rcases ctlPut_eq_done.1 hq with ⟨-, rfl⟩ | ⟨-, -, rfl⟩ <;> rfl

theorem EncodeStands.next {s t u : State} (h : EncodeStands s t) (hu : encodeOne t = .done () u) :
    EncodeStands s u := by
  obtain ⟨hi, -, hd⟩ := encodeOne_counters hu
  refine ⟨h.frame.trans (encodeOne_frame hu), encodeOne_keeps_counters hu h.counters, ?_,
    fun hdelta => ?_, encodeOne_acc hu h.acc⟩
  · rw [hd, hi, h.stored, h.dcur]; rfl
  · have hframe := h.frame
    rw [EncodeFrame] at hframe
    rw [encodeOne_carry hu, hi, hframe]
    exact if_pos hdelta

theorem dataPut_of_room (u : Word) {k : Nat} {s : State} (h : s.hidden.dcur + k ≤ s.encLen.toNat) :
    ∃ t, dataPut u k s = .done () t ∧ t.hidden.ccur = s.hidden.ccur ∧ t.encLen = s.encLen :=
  ⟨_, dataPut_eq_done.2 ⟨h, rfl⟩, rfl, rfl⟩

theorem ctlPut_of_room (c : WidthCode) {s : State} (h : s.hidden.ccur < s.encLen.toNat) :
    ∃ t, ctlPut c s = .done () t := by
  by_cases hi : s.hidden.i % 4 = 3
  · exact ⟨_, ctlPut_eq_done.2 (.inr ⟨hi, h, rfl⟩)⟩
  · exact ⟨_, ctlPut_eq_done.2 (.inl ⟨hi, rfl⟩)⟩

/-- An iteration with room for its element and its control byte ends normally. -/
theorem encodeOne_of_room {s : State}
    (hdata : s.hidden.dcur + width (encodeTransform (Memory.read s.val s.hidden.i) s).1 ≤
      s.encLen.toNat)
    (hctl : s.hidden.ccur < s.encLen.toNat) : ∃ t, encodeOne s = .done () t := by
  obtain ⟨p, hp, hccur, hlen⟩ :=
    dataPut_of_room (encodeTransform (Memory.read s.val s.hidden.i) s).1
      (s := (encodeTransform (Memory.read s.val s.hidden.i) s).2)
      (by rw [encodeTransform_snd]; exact hdata)
  obtain ⟨q, hq⟩ := ctlPut_of_room (code (encodeTransform (Memory.read s.val s.hidden.i) s).1)
    (s := p) (by rw [hccur, hlen, encodeTransform_snd]; exact hctl)
  exact ⟨_, encodeOne_eq_done.2 ⟨p, q, hp, hq, rfl⟩⟩

theorem EncodeFrame.encLen_eq {s t : State} (h : EncodeFrame s t) : t.encLen = s.encLen := by
  unfold EncodeFrame at h; rw [h]

/-- With room for the whole encoding, each of the `N` iterations has room. -/
theorem EncodeStands.exists_next {s t : State} (h : EncodeStands s t) (hi : t.hidden.i < s.n.toNat)
    (hroom : Wire.encodedSize s.hidden.zig s.hidden.delta s ≤ s.encLen.toNat) :
    ∃ u, encodeOne t = .done () u := by
  have hnext := encodedOffset_mono s.hidden.zig s.hidden.delta (Wire.valWords s) s.prev s.n.toNat
    (Nat.succ_le_of_lt hi)
  have hctl := (div_lt_ceil4 hi).trans_le (ceil4_le_encodedOffset s.hidden.zig s.hidden.delta
    (Wire.valWords s) s.prev s.n.toNat s.n.toNat)
  refine encodeOne_of_room ?_ ?_ <;> rw [h.frame.encLen_eq]
  · rw [h.stored, h.dcur]
    exact hnext.trans hroom
  · rw [h.counters.1]
    exact hctl.trans_le hroom

theorem EncodeStands.loop {k : Nat} {s t : State} (h : EncodeStands s t)
    (hk : t.hidden.i + k ≤ s.n.toNat)
    (hroom : Wire.encodedSize s.hidden.zig s.hidden.delta s ≤ s.encLen.toNat) :
    ∃ u, encodeLoop k t = .done () u ∧ EncodeStands s u ∧ u.hidden.i = t.hidden.i + k := by
  induction k generalizing t with
  | zero => exact ⟨t, rfl, h, rfl⟩
  | succ k ih =>
    obtain ⟨p, hp⟩ := h.exists_next (by omega) hroom
    obtain ⟨hi, -⟩ := encodeOne_counters hp
    obtain ⟨u, hu, hstands, hiu⟩ := ih (h.next hp) (by omega)
    exact ⟨u, Run.bind_eq_done.2 ⟨(), p, hp, hu⟩, hstands, by omega⟩

/-- An encode that has room ends normally; the flush of a group of `r` values puts out a byte below
`4 ^ r`, and nothing is written after it (40_width_control_data.md R73). -/
theorem encodeSeq_last_control_byte {s : State} (hr : s.n.toNat % 4 ≠ 0)
    (hroom : Wire.encodedSize s.hidden.zig s.hidden.delta s ≤ s.encLen.toNat) :
    ∃ t, encodeSeq s = .done () t ∧
      (Memory.read t.enc (s.n.toNat / 4)).toNat < 4 ^ (s.n.toNat % 4) := by
  obtain ⟨t, ht, hstands, hi⟩ := (startEncode_stands s).loop (k := s.n.toNat) (by simp) hroom
  replace hi : t.hidden.i = s.n.toNat := by simpa using hi
  have hccur : t.hidden.ccur = s.n.toNat / 4 := hi ▸ hstands.counters.1
  have hlast : s.n.toNat / 4 < s.encLen.toNat := by
    have hceil : s.n.toNat / 4 < ceil4 s.n.toNat := by unfold ceil4; omega
    exact (hceil.trans_le (ceil4_le_encodedOffset ..)).trans_le hroom
  have hflush := ctlFlush_eq_done.2 (.inr ⟨hstands.frame.n_eq ▸ hr,
    by rw [hccur, hstands.frame.encLen_eq]; exact hlast, rfl⟩)
  refine ⟨_, Run.bind_eq_done.2 ⟨(), t, ht, Run.bind_eq_done.2 ⟨(), _, hflush, rfl⟩⟩, ?_⟩
  rw [publish_enc, hccur, Memory.read_write_self, ← hi]
  exact hstands.acc

/-! ### The encode command -/

theorem zig_encode_encoder (zig delta : Bool) :
    CommandWord.zig (encode (.encoder zig delta)) = zig := by
  cases zig <;> cases delta <;> rfl

theorem delta_encode_encoder (zig delta : Bool) :
    CommandWord.delta (encode (.encoder zig delta)) = delta := by
  cases zig <;> cases delta <;> rfl

theorem encodeCommand_of_contract {s : State}
    (h : s.cfg.strictContract = true → maxEncodedSize s.n.toNat ≤ s.encLen.toNat) :
    encodeCommand s = encodeSeq s := by
  refine if_neg fun hfail => ?_
  rw [Bool.and_eq_true, decide_eq_true_eq] at hfail
  exact absurd (h hfail.1) (Nat.not_le.2 hfail.2)

/-- An admitted encode command is `EncodeSeq` with the options latched. -/
theorem exec_encoder_of_admitted {zig delta : Bool} {s : State} (h : EncodeAdmitted s) :
    exec (.encoder zig delta) s = finish (encodeSeq (latchOptions (encode (.encoder zig delta))
      { s with status := Status.issued s.status })) := by
  obtain ⟨⟨hissue, hn⟩, hcontract⟩ := h
  rw [exec_eq_execCode, execCode_of_issuable hissue]
  have hbody := runCommand_encoder (zig := zig) (delta := delta)
    (s := { s with status := Status.issued s.status }) hn
  exact congrArg finish (hbody.trans (encodeCommand_of_contract hcontract))

theorem exec_encoder_last_control_byte {zig delta : Bool} {s : State} (hr : s.n.toNat % 4 ≠ 0)
    (hs : EncodeAdmitted s) (hroom : Wire.encodedSize zig delta s ≤ s.encLen.toNat) :
    ∃ t, exec (.encoder zig delta) s = .next t ∧ Completed t ∧
      (Memory.read t.enc (s.n.toNat / 4)).toNat < 4 ^ (s.n.toNat % 4) := by
  obtain ⟨t, ht, hlt⟩ := encodeSeq_last_control_byte
    (s := latchOptions (encode (.encoder zig delta)) { s with status := Status.issued s.status })
    hr (by
      rw [latchOptions_hidden_zig, latchOptions_hidden_delta, zig_encode_encoder, delta_encode_encoder]
      exact hroom)
  rw [exec_encoder_of_admitted hs, ht]
  exact ⟨_, rfl, ⟨Status.state_completed _, Status.cause_completed _⟩, hlt⟩

end Sys2Proof.Machine
end

section
/-! PROOFS. Family 30_encoding.md: a decode depends on the codes of its values and on the data bytes, and
on no other bit of the buffer (30_encoding.md R56): two runs on buffers alike in these stay alike. -/

namespace Sys2Proof.Machine

/-! ### Two runs that end alike -/

/-- Two pieces of an operation end alike: with one result, in states related by `D`, or by one raise,
in states related by `E`. -/
inductive Run.Alike {α : Type} (E D : State → State → Prop) : Run α → Run α → Prop
  | done (a : α) {s t : State} (h : D s t) : Run.Alike E D (.done a s) (.done a t)
  | raised (c : Cause) (info : Nat) {s t : State} (h : E s t) :
    Run.Alike E D (.raised c info s) (.raised c info t)

theorem Run.Alike.bind {α β : Type} {E D D' : State → State → Prop} {r r' : Run α}
    {f : α → State → Run β} (h : Run.Alike E D r r')
    (hf : ∀ a s t, r = .done a s → D s t → Run.Alike E D' (f a s) (f a t)) :
    Run.Alike E D' (r.bind f) (r'.bind f) := by
  cases h with
  | done a h => exact hf a _ _ rfl h
  | raised c info h => exact .raised c info h

/-! ### Codes of a control byte -/

theorem toNat_slotCode (cb : Byte) (j : Nat) : (slotCode cb j).toNat = cb.toNat / 4 ^ j % 4 := by
  simp [slotCode, Nat.shiftRight_eq_div_pow, pow_mul]

/-- `CtlGet`'s shift drops slot 0 (40_width_control_data.md R74). -/
theorem slotCode_ushiftRight_two (cb : Byte) (j : Nat) :
    slotCode (cb >>> 2) j = slotCode cb (j + 1) := by
  rw [slotCode, slotCode, ← BitVec.shiftRight_add, Nat.mul_succ, Nat.add_comm]

/-- Four codes make the byte (30_encoding.md R51). -/
theorem eq_of_slotCode_eq {b c : Byte} (h : ∀ j < 4, slotCode b j = slotCode c j) : b = c := by
  have hslot : ∀ j < 4, b.toNat / 4 ^ j % 4 = c.toNat / 4 ^ j % 4 := fun j hj => by
    rw [← toNat_slotCode, ← toNat_slotCode, h j hj]
  have h0 := hslot 0 (by decide)
  have h1 := hslot 1 (by decide)
  have h2 := hslot 2 (by decide)
  have h3 := hslot 3 (by decide)
  have hb := b.isLt
  have hc := c.isLt
  apply BitVec.eq_of_toNat_eq
  omega

/-- The low `2r` bits of a byte hold its codes below slot `r`. -/
theorem slotCode_eq_of_mod_eq {b c : Byte} {r j : Nat} (hj : j < r)
    (h : b.toNat % 4 ^ r = c.toNat % 4 ^ r) : slotCode b j = slotCode c j := by
  have hcode : ∀ x : Nat, x / 4 ^ j % 4 = x % 4 ^ r / 4 ^ j % 4 := fun x => by
    obtain ⟨k, rfl⟩ := Nat.exists_eq_add_of_lt hj
    rw [show j + k + 1 = j + (k + 1) by omega, pow_add, Nat.mod_mul_right_div_self, pow_succ,
      Nat.mod_mul_left_mod]
  apply BitVec.eq_of_toNat_eq
  rw [toNat_slotCode, toNat_slotCode, hcode, h, ← hcode]

/-! ### Buffers alike for a decode -/

/-- Two buffers that give a decode of `n` values the same codes and the same data bytes. -/
structure SameWire (n : Nat) (m m' : List Host.Cell) : Prop where
  codes : ∀ i < n,
    slotCode (Memory.read m (i / 4)) (i % 4) = slotCode (Memory.read m' (i / 4)) (i % 4)
  data : ∀ a, ceil4 n ≤ a → Memory.read m a = Memory.read m' a

/-- Other bits above the codes of the last control byte leave the buffer alike. -/
theorem sameWire_write_last {n : Nat} {m : List Host.Cell} {b : Byte} (hr : n % 4 ≠ 0)
    (hb : b.toNat % 4 ^ (n % 4) = (Memory.read m (n / 4)).toNat % 4 ^ (n % 4)) :
    SameWire n m (Memory.write m (n / 4) b) where
  codes i hi := by
    rw [Memory.read_write]
    split
    · next hlast =>
      rw [hlast]
      exact slotCode_eq_of_mod_eq (by omega) hb.symm
    · rfl
  data a ha := (Memory.read_write_ne m b (by unfold ceil4 at ha; omega)).symm

/-- The codes of the values still to come in the group that starts at `4g`. -/
theorem SameWire.slotCode_eq {n g j : Nat} {m m' : List Host.Cell} (h : SameWire n m m') (hj : j < 4)
    (hn : 4 * g + j < n) : slotCode (Memory.read m g) j = slotCode (Memory.read m' g) j := by
  have hcodes := h.codes _ hn
  rwa [show (4 * g + j) / 4 = g by omega, show (4 * g + j) % 4 = j by omega] at hcodes

/-- The control byte of a full group is the same byte. -/
theorem SameWire.read_full_group {n g : Nat} {m m' : List Host.Cell} (h : SameWire n m m')
    (hn : 4 * g + 4 ≤ n) : Memory.read m g = Memory.read m' g :=
  eq_of_slotCode_eq fun _ hj => h.slotCode_eq hj (by omega)

theorem SameWire.readLE_eq {n a k : Nat} {m m' : List Host.Cell} (h : SameWire n m m')
    (ha : ceil4 n ≤ a) : Memory.readLE m a k = Memory.readLE m' a k :=
  Memory.readLE_congr m m' a k fun b hb _ => h.data b (ha.trans hb)

/-! ### The second run -/

/-- The state with another buffer and another control byte held. -/
def withBuffer (m : List Host.Cell) (cb : Byte) (s : State) : State :=
  { s with enc := m, hidden := { s.hidden with cb := cb } }

/-- `t` is `s` but for the buffer, which is `m`, and the control byte held. -/
def OnBuffer (m : List Host.Cell) (s t : State) : Prop := t = withBuffer m t.hidden.cb s

theorem OnBuffer.eq_withBuffer {m : List Host.Cell} {s t : State} (h : OnBuffer m s t) :
    ∃ cb, t = withBuffer m cb s :=
  ⟨_, h⟩

/-- `t` is `s` on the buffer `m`, and the control bytes held have the same codes for the values `i + d`
and after of the group. -/
structure AlikeFrom (d : Nat) (m : List Host.Cell) (s t : State) : Prop where
  onBuffer : OnBuffer m s t
  held : ∀ j, s.hidden.i % 4 + (j + d) < 4 → s.hidden.i + (j + d) < s.n.toNat →
    slotCode s.hidden.cb j = slotCode t.hidden.cb j

/-- `t` is `s` on the buffer `m` between two iterations: if a group is begun, the control bytes held
have the same codes for what is left of it. -/
def DecodeAlike (m : List Host.Cell) (s t : State) : Prop :=
  OnBuffer m s t ∧ (s.hidden.i % 4 ≠ 0 → AlikeFrom 0 m s t)

/-- At the start of a group no control byte is held. -/
theorem OnBuffer.decodeAlike {m : List Host.Cell} {s t : State} (h : OnBuffer m s t)
    (hi : s.hidden.i % 4 = 0) : DecodeAlike m s t :=
  ⟨h, fun hne => absurd hi hne⟩

/-- What the first run of a decode keeps: its buffer and `m` are alike, its counters are in step. -/
structure DecodeStands (m : List Host.Cell) (s : State) : Prop where
  wire : SameWire s.n.toNat s.enc m
  counters : DecodeCounters s.n.toNat s.hidden

theorem DecodeFrame.n_eq {s t : State} (h : DecodeFrame s t) : t.n = s.n := by
  unfold DecodeFrame at h; rw [h]

theorem DecodeFrame.enc_eq {s t : State} (h : DecodeFrame s t) : t.enc = s.enc := by
  unfold DecodeFrame at h; rw [h]

theorem DecodeStands.of_frame {m : List Host.Cell} {s t : State} (h : DecodeStands m s)
    (hframe : DecodeFrame s t) (hcounters : DecodeCounters s.n.toNat t.hidden) : DecodeStands m t :=
  ⟨by rw [hframe.n_eq, hframe.enc_eq]; exact h.wire, by rw [hframe.n_eq]; exact hcounters⟩

theorem DecodeStands.decodeOne {m : List Host.Cell} {s t : State} (h : DecodeStands m s)
    (ht : decodeOne s = .done () t) : DecodeStands m t :=
  h.of_frame (decodeOne_frame ht) (decodeOne_keeps_counters ht h.counters)

theorem DecodeStands.groupStep {m : List Host.Cell} {s t : State} (h : DecodeStands m s)
    (ht : groupStep s = .done () t) : DecodeStands m t :=
  h.of_frame (groupStep_frame ht) (groupStep_keeps_counters ht h.counters)

/-! ### The scalar engine -/

/-- At the start of a group the control cursor is at the group's own control byte. -/
theorem DecodeStands.ccur_of_group_start {m : List Host.Cell} {s : State} (h : DecodeStands m s)
    (hi : s.hidden.i % 4 = 0) : s.hidden.ccur = s.hidden.i / 4 := by
  have hccur := h.counters.1
  unfold ceil4 at hccur
  omega

/-- The control bytes `CtlGet` works on have the same codes for the values still to come. -/
theorem DecodeStands.slotCode_ctlByte {m : List Host.Cell} {s t : State} {j : Nat}
    (h : DecodeStands m s) (ht : DecodeAlike m s t)
    (hj : s.hidden.i % 4 + j < 4) (hn : s.hidden.i + j < s.n.toNat) :
    slotCode (ctlByte s) j = slotCode (ctlByte t) j := by
  obtain ⟨hon, hheld⟩ := ht
  by_cases hi : s.hidden.i % 4 = 0
  · rw [hon]
    simp only [ctlByte, withBuffer, hi, h.ccur_of_group_start hi, if_true]
    exact h.wire.slotCode_eq (by omega) (by omega)
  · rw [hon]
    simp only [ctlByte, withBuffer, hi, if_false]
    exact (hheld hi).held j hj hn

theorem ctlGet_alike {m : List Host.Cell} {s t : State} (h : DecodeStands m s)
    (ht : DecodeAlike m s t) (hn : s.hidden.i < s.n.toNat) :
    Run.Alike (OnBuffer m) (AlikeFrom 1 m) (ctlGet s) (ctlGet t) := by
  have hcode := fun j => h.slotCode_ctlByte ht (j := j)
  obtain ⟨cb, rfl⟩ := ht.1.eq_withBuffer
  by_cases hin : s.hidden.i % 4 = 0 → s.hidden.ccur < s.encLen.toNat
  · rw [ctlGet_eq_done.2 ⟨hin, rfl, rfl⟩,
      (ctlGet_eq_done (s := withBuffer m cb s)).2 ⟨hin, hcode 0 (by omega) hn, rfl⟩]
    refine .done _ ⟨rfl, fun j hj hn => ?_⟩
    rw [slotCode_ushiftRight_two, slotCode_ushiftRight_two]
    exact hcode (j + 1) hj hn
  · obtain ⟨hi, hout⟩ := Classical.not_imp.1 hin
    rw [ctlGet_eq_raised.2 ⟨hi, Nat.not_lt.1 hout, rfl, rfl, rfl⟩,
      (ctlGet_eq_raised (s := withBuffer m cb s)).2 ⟨hi, Nat.not_lt.1 hout, rfl, rfl, rfl⟩]
    exact .raised _ _ rfl

theorem dataGet_alike {m : List Host.Cell} {s t : State} {d : Nat} (k : Nat)
    (ht : AlikeFrom d m s t) (hwire : SameWire s.n.toNat s.enc m)
    (hdcur : ceil4 s.n.toNat ≤ s.hidden.dcur) :
    Run.Alike (OnBuffer m) (AlikeFrom d m) (dataGet k s) (dataGet k t) := by
  obtain ⟨hon, hheld⟩ := ht
  obtain ⟨cb, rfl⟩ := hon.eq_withBuffer
  by_cases hin : s.hidden.dcur + k ≤ s.encLen.toNat
  · rw [dataGet_eq_done.2 ⟨hin, rfl, rfl⟩, (dataGet_eq_done (s := withBuffer m cb s)).2
      ⟨hin, congrArg _ (hwire.readLE_eq hdcur), rfl⟩]
    exact .done _ ⟨rfl, hheld⟩
  · have hout := Nat.not_le.1 hin
    rw [dataGet_eq_raised.2 ⟨hout, rfl, rfl, rfl⟩,
      (dataGet_eq_raised (s := withBuffer m cb s)).2 ⟨hout, rfl, rfl, rfl⟩]
    exact .raised _ _ rfl

/-- The inverse transform reads neither the buffer nor the control byte held. -/
theorem decodeTransform_withBuffer (m : List Host.Cell) (cb : Byte) (u : Word) (s : State) :
    decodeTransform u (withBuffer m cb s) =
      ((decodeTransform u s).1, withBuffer m cb (decodeTransform u s).2) := by
  unfold decodeTransform deltaDec withBuffer
  cases s.hidden.delta <;> rfl

theorem AlikeFrom.next {m : List Host.Cell} {s t : State} (u : Word) (h : AlikeFrom 1 m s t) :
    DecodeAlike m (nextIndex (storeValue (decodeTransform u s).1 (decodeTransform u s).2))
      (nextIndex (storeValue (decodeTransform u t).1 (decodeTransform u t).2)) := by
  obtain ⟨hon, hheld⟩ := h
  obtain ⟨cb, rfl⟩ := hon.eq_withBuffer
  rw [decodeTransform_withBuffer, decodeTransform_snd]
  refine ⟨rfl, fun hi => ⟨rfl, fun j hj hn => hheld j ?_ ?_⟩⟩
  · replace hi : (s.hidden.i + 1) % 4 ≠ 0 := hi
    replace hj : (s.hidden.i + 1) % 4 + j < 4 := hj
    omega
  · replace hn : s.hidden.i + 1 + j < s.n.toNat := hn
    omega

theorem decodeOne_alike {m : List Host.Cell} {s t : State} (h : DecodeStands m s)
    (ht : DecodeAlike m s t) (hn : s.hidden.i < s.n.toNat) :
    Run.Alike (OnBuffer m) (DecodeAlike m) (decodeOne s) (decodeOne t) := by
  refine (ctlGet_alike h ht hn).bind fun c p q hp hq => ?_
  obtain ⟨-, -, rfl⟩ := ctlGet_eq_done.1 hp
  exact (dataGet_alike _ hq h.wire h.counters.2.1).bind fun u _ _ _ hs => .done () (hs.next u)

theorem decodeLoop_alike {m : List Host.Cell} {k : Nat} {s t : State} (h : DecodeStands m s)
    (ht : DecodeAlike m s t) (hk : k ≤ s.n.toNat - s.hidden.i) :
    Run.Alike (OnBuffer m) (OnBuffer m) (decodeLoop k s) (decodeLoop k t) := by
  induction k generalizing s t with
  | zero => exact .done () ht.1
  | succ k ih =>
    refine (decodeOne_alike h ht (by omega)).bind fun _ p q hp hq => ih (h.decodeOne hp) hq ?_
    obtain ⟨hi, -⟩ := decodeOne_counters hp
    rw [hi, (decodeOne_frame hp).n_eq]
    omega

theorem scalarDecodeFrom_alike {m : List Host.Cell} {s t : State} (h : DecodeStands m s)
    (ht : DecodeAlike m s t) :
    Run.Alike (OnBuffer m) (OnBuffer m) (scalarDecodeFrom s) (scalarDecodeFrom t) := by
  have hcount : t.n.toNat - t.hidden.i = s.n.toNat - s.hidden.i := by rw [ht.1]; rfl
  rw [scalarDecodeFrom, scalarDecodeFrom, hcount]
  exact (decodeLoop_alike h ht le_rfl).bind fun _ p q _ hq => .done () (congrArg publish hq)

/-! ### The vector engine -/

theorem loadGroup_withBuffer {m : List Host.Cell} {cb : Byte} {s : State}
    (hcb : Memory.read m s.hidden.ccur = Memory.read s.enc s.hidden.ccur)
    (hwindow : Memory.readLE m s.hidden.dcur 16 = Memory.readLE s.enc s.hidden.dcur 16) :
    loadGroup (withBuffer m cb s) = { loadGroup s with enc := m } := by
  simp only [loadGroup, withBuffer, hcb, hwindow]

/-- Under the guard a group step reads the control byte of a full group and a window behind the
control bytes. -/
theorem groupStep_alike {m : List Host.Cell} {s t : State} (h : DecodeStands m s)
    (ht : OnBuffer m s t) (hi : s.hidden.i % 4 = 0) (hguard : vecGuard s = true) :
    Run.Alike (OnBuffer m) (OnBuffer m) (groupStep s) (groupStep t) := by
  obtain ⟨cb, rfl⟩ := ht.eq_withBuffer
  obtain ⟨hdcur, hn⟩ := vecGuard_eq_true.1 hguard
  have hccur := h.ccur_of_group_start hi
  have hin : s.hidden.ccur < s.encLen.toNat := by
    have hctl : s.hidden.ccur < ceil4 s.n.toNat := hccur ▸ div_lt_ceil4 (by omega)
    have hdata := h.counters.2.1
    omega
  have hload := loadGroup_withBuffer (cb := cb) (h.wire.read_full_group (by omega)).symm
    (h.wire.readLE_eq h.counters.2.1).symm
  rw [groupStep_eq_done.2 ⟨hin, hdcur, rfl⟩,
    (groupStep_eq_done (s := withBuffer m cb s)).2 ⟨hin, hdcur, rfl⟩, hload]
  exact .done () rfl

theorem groupLoop_alike {m : List Host.Cell} {k : Nat} {s t : State} (h : DecodeStands m s)
    (ht : OnBuffer m s t) (hi : s.hidden.i % 4 = 0) :
    Run.Alike (OnBuffer m) (DecodeAlike m) (groupLoop k s) (groupLoop k t) := by
  induction k generalizing s t with
  | zero => exact .done () (ht.decodeAlike hi)
  | succ k ih =>
    have hguard : vecGuard t = vecGuard s := by rw [ht]; rfl
    rw [groupLoop, groupLoop, hguard]
    split
    · next hs =>
      refine (groupStep_alike h ht hi hs).bind fun _ p q hp hq => ih (h.groupStep hp) hq ?_
      obtain ⟨hip, -⟩ := groupStep_counters hp
      omega
    · exact .done () (ht.decodeAlike hi)

theorem startDecode_stands {m : List Host.Cell} {s : State} (h : SameWire s.n.toNat s.enc m) :
    DecodeStands m (startDecode s) :=
  ⟨h, startDecode_counters s⟩

theorem OnBuffer.startDecode {m : List Host.Cell} {s t : State} (h : OnBuffer m s t) :
    OnBuffer m (startDecode s) (startDecode t) :=
  congrArg Machine.startDecode h

theorem vecDecode_alike {m : List Host.Cell} {s t : State} (h : SameWire s.n.toNat s.enc m)
    (ht : OnBuffer m s t) : Run.Alike (OnBuffer m) (OnBuffer m) (vecDecode s) (vecDecode t) := by
  have hstart := startDecode_stands h
  have hn : t.n = s.n := by rw [ht]; rfl
  rw [vecDecode, vecDecode, hn]
  refine (groupLoop_alike hstart ht.startDecode rfl).bind fun _ p q hp hq => ?_
  exact scalarDecodeFrom_alike (hstart.of_frame (groupLoop_frame hp)
    (groupLoop_counters hp hstart.counters)) hq

/-! ### The decode command -/

theorem decodeCommand_alike {m : List Host.Cell} {s t : State} (h : SameWire s.n.toNat s.enc m)
    (ht : OnBuffer m s t) :
    Run.Alike (OnBuffer m) (OnBuffer m) (decodeCommand s) (decodeCommand t) := by
  have hvec : t.hidden.vec = s.hidden.vec := by rw [ht]; rfl
  rw [decodeCommand, decodeCommand, hvec]
  split
  · exact vecDecode_alike h ht
  · exact scalarDecodeFrom_alike (startDecode_stands h) (ht.startDecode.decodeAlike rfl)

theorem runCommand_decoder_alike {m : List Host.Cell} {s t : State} (zig delta : Bool)
    (h : SameWire s.n.toNat s.enc m) (ht : OnBuffer m s t) :
    Run.Alike (OnBuffer m) (OnBuffer m) (runCommand (encode (.decoder zig delta)) s)
      (runCommand (encode (.decoder zig delta)) t) := by
  have hn : t.n = s.n := by rw [ht]; rfl
  have hcfg : t.cfg = s.cfg := by rw [ht]; rfl
  rcases Nat.lt_or_ge s.cfg.nMax s.n.toNat with hlt | hle
  · rw [runCommand_of_nMax_lt hlt, runCommand_of_nMax_lt (s := t) (by rwa [hn, hcfg])]
    exact .raised _ _ ht
  · rw [runCommand_decoder hle, runCommand_decoder (s := t) (by rwa [hn, hcfg])]
    exact decodeCommand_alike h (congrArg (latchOptions (encode (.decoder zig delta))) ht)

/-- A fault takes nothing from the buffer or from the control byte held. -/
theorem raiseFault_withBuffer (m : List Host.Cell) (cb : Byte) (c : Cause) (info : Nat) (s : State) :
    raiseFault c info (withBuffer m cb s) =
      { raiseFault c info s with
        enc := (raiseFault c info (withBuffer m cb s)).enc
        hidden := (raiseFault c info (withBuffer m cb s)).hidden } := by
  cases c
  case encBounds =>
    unfold raiseFault faultedSpaces withBuffer
    cases s.hidden.dir <;> rfl
  case illegalCommand => rfl
  case contractCheck => rfl

/-- What two runs that end alike leave for the host: the same but for the buffer. -/
theorem Run.Alike.finish {m : List Host.Cell} {r r' : Run Unit}
    (h : Run.Alike (OnBuffer m) (OnBuffer m) r r') :
    ∃ t u, finish r = .next t ∧ finish r' = .next u ∧
      u = { t with enc := u.enc, hidden := u.hidden } := by
  cases h with
  | @done _ s t h =>
    obtain ⟨cb, rfl⟩ := h.eq_withBuffer
    exact ⟨complete s, _, rfl, rfl, rfl⟩
  | @raised c info s t h =>
    obtain ⟨cb, rfl⟩ := h.eq_withBuffer
    exact ⟨raiseFault c info s, _, rfl, rfl, raiseFault_withBuffer m cb c info s⟩

/-- A decode of a buffer that gives its values the same codes and the same data bytes ends the same. -/
theorem exec_decoder_of_sameWire (zig delta : Bool) {s : State} {m : List Host.Cell}
    (h : SameWire s.n.toNat s.enc m) :
    ∃ t u, exec (.decoder zig delta) s = .next t ∧
      exec (.decoder zig delta) { s with enc := m } = .next u ∧
      u = { t with enc := u.enc, hidden := u.hidden } := by
  rw [exec_eq_execCode, exec_eq_execCode]
  by_cases hs : Safety.Issuable s
  · have halike := runCommand_decoder_alike (s := { s with status := Status.issued s.status })
      (t := { s with status := Status.issued s.status, enc := m }) zig delta h rfl
    rw [execCode_of_issuable hs, execCode_of_issuable (s := { s with enc := m }) hs]
    exact halike.finish
  · have hfault := not_not.1 hs
    exact ⟨s, { s with enc := m }, if_pos hfault, if_pos hfault, rfl⟩

/-- Settles O29: the flush puts out the codes collected and no other bit; a decode of a buffer with
other bits above them reads the same codes and the same data bytes. -/
theorem unusedControlBits : Obligations.UnusedControlBits := by
  unfold Obligations.UnusedControlBits
  intro zig delta s hr
  exact ⟨fun hs hroom => exec_encoder_last_control_byte hr hs hroom,
    fun b hb => exec_decoder_of_sameWire zig delta (sameWire_write_last hr hb)⟩

end Sys2Proof.Machine
end

section
/-! PROOFS. Family 40_width_control_data.md: the width classifier (40_width_control_data.md R70, R71) and
the accesses to the data stream (40_width_control_data.md R76, R77). -/

namespace Sys2Proof.Machine

/-! ### The width classifier -/

/-- `WIDTH(v)` is the least number of bytes, from one up, that holds `v`. -/
theorem width_le_iff (v : Word) {k : Nat} (hk : 1 ≤ k) (hk4 : k ≤ 4) :
    width v ≤ k ↔ v.toNat < 256 ^ k := by
  have := v.isLt
  interval_cases k <;> unfold width <;> split_ifs <;> omega

theorem width_mono {a b : Word} (h : a.toNat ≤ b.toNat) : width a ≤ width b :=
  (width_le_iff a (width_pos b) (width_le b)).2 (Nat.lt_of_le_of_lt h (toNat_lt_of_width b))

theorem toNat_code (v : Word) : (code v).toNat = width v - 1 := by
  have := width_le v
  rw [code, BitVec.toNat_ofNat, Nat.mod_eq_of_lt (by omega)]

/-- A value other than 0 does not fit fewer bytes than its width. -/
theorem pow_width_sub_one_le {v : Word} (h : v ≠ 0#32) : 256 ^ (width v - 1) ≤ v.toNat := by
  have hpos := width_pos v
  have hle := width_le v
  by_cases h1 : width v = 1
  · rw [h1]
    exact Nat.pos_of_ne_zero fun h0 => h (BitVec.eq_of_toNat_eq h0)
  · have hfit := width_le_iff v (k := width v - 1) (by omega) (by omega)
    omega

/-- The byte at the width of a value is its most significant non-zero byte (40_width_control_data.md
R70). -/
theorem top_byte_ne_zero {v : Word} (h : v ≠ 0#32) :
    v.toNat / 256 ^ (width v - 1) % 256 ≠ 0 := by
  have hpow : 256 ^ (width v - 1) * 256 = 256 ^ width v := Nat.pow_pred_mul (width_pos v)
  have hlow : 0 < v.toNat / 256 ^ (width v - 1) :=
    Nat.div_pos (pow_width_sub_one_le h) (by positivity)
  have hhigh : v.toNat / 256 ^ (width v - 1) < 256 :=
    Nat.div_lt_of_lt_mul (hpow ▸ toNat_lt_of_width v)
  omega

/-- Settles O33: the ranges are the bounds of `width_le_iff` at one, two and three bytes; the top byte of
a value is not 0 because the value does not fit one byte less. -/
theorem widthClassifier : Obligations.WidthClassifier := by
  unfold Obligations.WidthClassifier
  refine ⟨fun v => ?_, fun a b => width_mono, by decide⟩
  have hpos := width_pos v
  have hle := width_le v
  have h1 : width v ≤ 1 ↔ v.toNat < 2 ^ 8 := width_le_iff v (by decide) (by decide)
  have h2 : width v ≤ 2 ↔ v.toNat < 2 ^ 16 := width_le_iff v (by decide) (by decide)
  have h3 : width v ≤ 3 ↔ v.toNat < 2 ^ 24 := width_le_iff v (by decide) (by decide)
  have hfit : v.toNat < 2 ^ (8 * width v) := Nat.pow_mul 2 8 _ ▸ toNat_lt_of_width v
  exact ⟨by omega, by omega, by omega, by omega, toNat_code v, hfit, top_byte_ne_zero⟩

/-! ### The data stream -/

/-- Byte `j` of a written number is byte `j` of the value. -/
theorem Memory.read_writeLE_byte (m : List (Nat × Byte)) (a k : Nat) (v : Word) {j : Nat}
    (h : j < k) : Memory.read (Memory.writeLE m a k v) (a + j) = v.extractLsb' (8 * j) 8 := by
  rw [Memory.read_writeLE, if_pos (by omega), Nat.add_sub_cancel_left,
    BitVec.setWidth_ushiftRight_eq_extractLsb]

theorem Memory.read_writeLE_outside (m : List (Nat × Byte)) {a k b : Nat} (v : Word)
    (h : b < a ∨ a + k ≤ b) : Memory.read (Memory.writeLE m a k v) b = Memory.read m b := by
  rw [Memory.read_writeLE, if_neg (by omega)]

/-- Up to four bytes are held whole by a 32-bit word. -/
theorem toNat_ofNat_readLE (m : List (Nat × Byte)) (a : Nat) {k : Nat} (hk : k ≤ 4) :
    (BitVec.ofNat 32 (Memory.readLE m a k)).toNat = Memory.readLE m a k := by
  have hlt : Memory.readLE m a k < 2 ^ 32 :=
    Nat.lt_of_lt_of_le (Memory.readLE_lt m a k) (Nat.pow_le_pow_right (n := 256) (by decide) hk)
  rw [BitVec.toNat_ofNat, Nat.mod_eq_of_lt hlt]

/-- Byte `j` of the word read is the byte at `a + j`. -/
theorem extractLsb'_ofNat_readLE (m : List (Nat × Byte)) (a : Nat) {j k : Nat} (hk : k ≤ 4)
    (hj : j < k) :
    (BitVec.ofNat 32 (Memory.readLE m a k)).extractLsb' (8 * j) 8 = Memory.read m (a + j) := by
  apply BitVec.eq_of_toNat_eq
  rw [BitVec.extractLsb'_toNat, toNat_ofNat_readLE m a hk, Nat.shiftRight_eq_div_pow, Nat.pow_mul]
  exact Memory.readLE_byte m a k j hj

/-- Settles O39: the laws of the two accesses, read from the bound to the outcome; the bytes are those of
the little-endian number written or read. -/
theorem dataStreamAccesses : Obligations.DataStreamAccesses := by
  unfold Obligations.DataStreamAccesses
  intro u w s _ hw
  refine ⟨fun hin => ⟨?_, ?_⟩, fun hout => ⟨?_, ?_⟩⟩
  · exact ⟨_, dataPut_eq_done.2 ⟨hin, rfl⟩, rfl, fun k => Memory.read_writeLE_byte _ _ _ _,
      fun a => Memory.read_writeLE_outside _ _⟩
  · refine ⟨_, dataGet_eq_done.2 ⟨hin, rfl, rfl⟩, fun k => extractLsb'_ofNat_readLE _ _ hw, ?_⟩
    rw [toNat_ofNat_readLE _ _ hw, Nat.pow_mul]
    exact Memory.readLE_lt _ _ _
  · exact dataPut_eq_raised.2 ⟨hout, rfl, rfl, rfl⟩
  · exact dataGet_eq_raised.2 ⟨hout, rfl, rfl, rfl⟩

end Sys2Proof.Machine
end

section
/-! PROOFS. Family 41_delta_zigzag.md: the delta transform (41_delta_zigzag.md R90, R91) and the zigzag
map (41_delta_zigzag.md R94 to R96). -/

namespace Sys2Proof.Machine

/-! ### The zigzag map -/

/-- The sign mask of a value that is not negative is 0, and the exclusive or leaves the shifted value. -/
theorem zigEnc_of_nonneg {s : Word} (h : 0 ≤ s.toInt) : zigEnc s = s <<< 1 := by
  have hlt := BitVec.toInt_lt (x := s)
  have hmask : s.sshiftRight 31 = 0#32 := by
    rw [BitVec.sshiftRight_eq, Int.shiftRight_eq_div_pow,
      show s.toInt / (2 ^ 31 : Nat) = 0 by omega]
    rfl
  rw [zigEnc, hmask, BitVec.zero_xor]

/-- The sign mask of a negative value is all ones, and the exclusive or complements the shifted value. -/
theorem zigEnc_of_neg {s : Word} (h : s.toInt < 0) : zigEnc s = ~~~(s <<< 1) := by
  have hle := BitVec.le_toInt s
  have hmask : s.sshiftRight 31 = BitVec.allOnes 32 := by
    rw [BitVec.sshiftRight_eq, Int.shiftRight_eq_div_pow,
      show s.toInt / (2 ^ 31 : Nat) = -1 by omega]
    rfl
  rw [zigEnc, hmask, BitVec.allOnes_xor]

/-- The mask of an even number is 0. -/
theorem zigDec_of_even {v : Word} (h : v.toNat % 2 = 0) : zigDec v = v >>> 1 := by
  have hmask : v &&& 1#32 = 0#32 := by
    apply BitVec.eq_of_toNat_eq
    rw [BitVec.toNat_and, BitVec.toNat_one (by decide), Nat.and_one_is_mod, h]
    rfl
  rw [zigDec, hmask, BitVec.neg_zero, BitVec.xor_zero]

/-- The mask of an odd number is all ones. -/
theorem zigDec_of_odd {v : Word} (h : v.toNat % 2 = 1) : zigDec v = ~~~(v >>> 1) := by
  have hmask : v &&& 1#32 = 1#32 := by
    apply BitVec.eq_of_toNat_eq
    rw [BitVec.toNat_and, BitVec.toNat_one (by decide), Nat.and_one_is_mod, h]
  rw [zigDec, hmask, BitVec.neg_one_eq_allOnes, BitVec.xor_allOnes]

/-- `ZigEnc` as a number (41_delta_zigzag.md R94). -/
theorem toNat_zigEnc (s : Word) :
    ((zigEnc s).toNat : Int) = if 0 ≤ s.toInt then 2 * s.toInt else -2 * s.toInt - 1 := by
  have hlt := s.isLt
  have hsign := BitVec.toInt_eq_toNat_cond s
  split_ifs with h
  · rw [zigEnc_of_nonneg h, BitVec.toNat_shiftLeft, Nat.shiftLeft_eq]
    omega
  · rw [zigEnc_of_neg (by omega), BitVec.toNat_not, BitVec.toNat_shiftLeft, Nat.shiftLeft_eq]
    omega

/-- `ZigDec` as a number (41_delta_zigzag.md R95). -/
theorem toInt_zigDec (v : Word) :
    (zigDec v).toInt =
      if v.toNat % 2 = 0 then ((v.toNat / 2 : Nat) : Int) else -(((v.toNat + 1) / 2 : Nat) : Int) := by
  have hlt := v.isLt
  split_ifs with h
  · rw [zigDec_of_even h, BitVec.toInt_eq_toNat_cond, BitVec.toNat_ushiftRight,
      Nat.shiftRight_eq_div_pow]
    omega
  · rw [zigDec_of_odd (by omega), BitVec.toInt_eq_toNat_cond, BitVec.toNat_not,
      BitVec.toNat_ushiftRight, Nat.shiftRight_eq_div_pow]
    omega

@[simp] theorem zigDec_zigEnc (s : Word) : zigDec (zigEnc s) = s := by
  apply BitVec.eq_of_toInt_eq
  have henc := toNat_zigEnc s
  rw [toInt_zigDec]
  split_ifs at henc ⊢ <;> omega

@[simp] theorem zigEnc_zigDec (v : Word) : zigEnc (zigDec v) = v := by
  apply BitVec.eq_of_toNat_eq
  have henc := toNat_zigEnc (zigDec v)
  rw [toInt_zigDec] at henc
  split_ifs at henc <;> omega

/-- A value of `k` signed bytes is stored in at most `k` bytes (41_delta_zigzag.md R96): its number lies
below `2 * 2 ^ (8 * k - 1)`. -/
theorem width_zigEnc_le {s : Word} {k : Nat} (hk : 1 ≤ k) (hk4 : k ≤ 4)
    (hlow : -(2 : Int) ^ (8 * k - 1) ≤ s.toInt) (hhigh : s.toInt < (2 : Int) ^ (8 * k - 1)) :
    width (zigEnc s) ≤ k := by
  have hpow : (256 : Int) ^ k = 2 * 2 ^ (8 * k - 1) := by
    rw [show (256 : Int) = 2 ^ 8 by rfl, ← pow_mul, mul_pow_sub_one (by omega)]
  have henc := toNat_zigEnc s
  have hlt : ((zigEnc s).toNat : Int) < 256 ^ k := by split_ifs at henc <;> omega
  exact (width_le_iff _ hk hk4).2 (by exact_mod_cast hlt)

/-- Settles O34: both maps are read as numbers by the parity and the sign, and the inverses and the width
bound are arithmetic on those numbers. -/
theorem zigzagIsABijection : Obligations.ZigzagIsABijection :=
  ⟨toNat_zigEnc, toInt_zigDec, zigDec_zigEnc, zigEnc_zigDec, fun _ _ => width_zigEnc_le⟩

/-! ### The delta transform -/

/-- Subtraction of words is subtraction modulo `2 ^ 32`: the borrow is dropped (41_delta_zigzag.md R90). -/
theorem toNat_deltaEnc (x : Word) (s : State) :
    ((deltaEnc x s).1.toNat : Int) = ((x.toNat : Int) - s.hidden.carry.toNat) % 2 ^ 32 := by
  have hcarry := s.hidden.carry.isLt
  rw [deltaEnc, BitVec.toNat_sub]
  omega

/-- Settles O35: the two words are the difference and the sum modulo `2 ^ 32`, and each transform sets the
carry and nothing else. -/
theorem deltaTransform : Obligations.DeltaTransform := by
  unfold Obligations.DeltaTransform
  intro x s
  exact ⟨toNat_deltaEnc x s, rfl, BitVec.toNat_add s.hidden.carry x, rfl⟩

end Sys2Proof.Machine
end

section
/-! PROOFS. Family 42_scalar_operations.md: what a command that ends normally publishes, the empty sequence
(42_scalar_operations.md R113) and the size of an encoding (42_scalar_operations.md R111). -/

namespace Sys2Proof.Machine

open Sys2Proof.Safety

/-! ### The state a command body starts from -/

/-- The state in which the body of an admitted command starts: `BUSY`, options latched
(42_scalar_operations.md R100). -/
def atIssue (i : Instr) (s : State) : State :=
  latchOptions (encode i) { s with status := Status.issued s.status }

@[simp] theorem atIssue_n (i : Instr) (s : State) : (atIssue i s).n = s.n := rfl
@[simp] theorem atIssue_prev (i : Instr) (s : State) : (atIssue i s).prev = s.prev := rfl
@[simp] theorem atIssue_encLen (i : Instr) (s : State) : (atIssue i s).encLen = s.encLen := rfl
@[simp] theorem atIssue_enc (i : Instr) (s : State) : (atIssue i s).enc = s.enc := rfl
@[simp] theorem atIssue_val (i : Instr) (s : State) : (atIssue i s).val = s.val := rfl

@[simp] theorem atIssue_encoder_zig (zig delta : Bool) (s : State) :
    (atIssue (.encoder zig delta) s).hidden.zig = zig :=
  zig_encode_encoder zig delta

@[simp] theorem atIssue_encoder_delta (zig delta : Bool) (s : State) :
    (atIssue (.encoder zig delta) s).hidden.delta = delta :=
  delta_encode_encoder zig delta

@[simp] theorem atIssue_decoder_zig (zig delta : Bool) (s : State) :
    (atIssue (.decoder zig delta) s).hidden.zig = zig := by
  cases zig <;> cases delta <;> rfl

@[simp] theorem atIssue_decoder_delta (zig delta : Bool) (s : State) :
    (atIssue (.decoder zig delta) s).hidden.delta = delta := by
  cases zig <;> cases delta <;> rfl

@[simp] theorem encodedSize_atIssue (zig delta : Bool) (i : Instr) (s : State) :
    Wire.encodedSize zig delta (atIssue i s) = Wire.encodedSize zig delta s := rfl

theorem completed_complete (s : State) : Completed (complete s) :=
  ⟨Status.state_completed _, Status.cause_completed _⟩

/-- An admitted decode command is the decode with the options latched. -/
theorem exec_decoder_of_admitted {zig delta : Bool} {s : State} (h : Admitted s) :
    exec (.decoder zig delta) s = finish (decodeCommand (atIssue (.decoder zig delta) s)) := by
  obtain ⟨hissue, hn⟩ := h
  rw [exec_eq_execCode, execCode_of_issuable hissue]
  exact congrArg finish (runCommand_decoder (s := { s with status := Status.issued s.status }) hn)

/-! ### The empty sequence -/

theorem encodeSeq_of_empty {s : State} (h : s.n = 0#32) :
    encodeSeq s = .done () (publish (startEncode s)) := by
  have hflush : ctlFlush (startEncode s) = .done () (startEncode s) :=
    ctlFlush_eq_done.2 (.inl ⟨by simp [h], rfl⟩)
  rw [encodeSeq, h]
  change (ctlFlush (startEncode s)).bind _ = _
  rw [hflush, Run.bind_done]

/-- Neither engine reads anything: no group is there for the vector engine, no value for the scalar one. -/
theorem decodeCommand_of_empty {s : State} (h : s.n = 0#32) :
    decodeCommand s = .done () (publish (startDecode s)) := by
  have hscalar : scalarDecodeFrom (startDecode s) = .done () (publish (startDecode s)) := by
    rw [scalarDecodeFrom, startDecode_n, h]; rfl
  have hvec : vecDecode s = scalarDecodeFrom (startDecode s) := by
    rw [vecDecode, h]; rfl
  rw [decodeCommand, hvec, ite_self, hscalar]

/-- A command whose loop takes no step publishes the counters it started from: size 0 and `PREV` itself. -/
theorem finish_publish_of_empty {s t : State}
    (ht : t = { s with status := Status.issued s.status, hidden := t.hidden })
    (hdcur : t.hidden.dcur = 0) (hcarry : t.hidden.carry = s.prev) :
    ∃ h, finish (.done () (publish t)) =
      .next { s with status := Status.completed s.status, result := 0#35, hidden := h } := by
  refine ⟨t.hidden, ?_⟩
  rw [finish, complete, publish, hdcur, hcarry, ht]
  simp only [Status.completed_issued, ite_self]

/-- Settles O17: neither loop takes a step, and the counters published are those at the start. -/
theorem emptySequence : Obligations.EmptySequence := by
  unfold Obligations.EmptySequence
  intro i s hsize hissue hn
  have hadm : Admitted s := ⟨hissue, by simp [hn]⟩
  have hdcur : ceil4 s.n.toNat = 0 := by rw [hn]; rfl
  rcases Instr.cases_by_kind i with ⟨zig, delta, rfl⟩ | ⟨zig, delta, rfl⟩ | rfl
  · have hcontract : EncodeAdmitted s := ⟨hadm, by simp [hn, maxEncodedSize, ceil4]⟩
    have hrun := encodeSeq_of_empty (s := atIssue (.encoder zig delta) s) hn
    rw [(exec_encoder_of_admitted hcontract).trans (congrArg finish hrun)]
    exact finish_publish_of_empty rfl hdcur rfl
  · have hrun := decodeCommand_of_empty (s := atIssue (.decoder zig delta) s) hn
    rw [exec_decoder_of_admitted hadm, hrun]
    exact finish_publish_of_empty rfl hdcur rfl
  · exact absurd rfl hsize

/-! ### An encode that ends normally -/

theorem EncodeStands.of_loop {k : Nat} {s t u : State} (h : EncodeStands s t)
    (hu : encodeLoop k t = .done () u) : EncodeStands s u ∧ u.hidden.i = t.hidden.i + k := by
  refine ⟨?_, (encodeLoop_counters hu h.counters).1⟩
  induction k generalizing t with
  | zero => cases hu; exact h
  | succ k ih =>
    obtain ⟨_, p, hp, hu⟩ := Run.bind_eq_done.1 hu
    exact ih (h.next hp) hu

/-- An encode that ends normally has stored its `N` values and flushed. -/
theorem encodeSeq_eq_done {s u : State} (h : encodeSeq s = .done () u) :
    ∃ t v, encodeLoop s.n.toNat (startEncode s) = .done () t ∧ EncodeStands s t ∧
      t.hidden.i = s.n.toNat ∧ ctlFlush t = .done () v ∧ u = publish v := by
  obtain ⟨_, t, ht, h⟩ := Run.bind_eq_done.1 h
  obtain ⟨_, v, hv, h⟩ := Run.bind_eq_done.1 h
  obtain ⟨hstands, hi⟩ := (startEncode_stands s).of_loop ht
  cases h
  exact ⟨t, v, ht, hstands, by simpa using hi, hv, rfl⟩

/-- The flush changes ENC and the control cursor only. -/
theorem ctlFlush_frame {s t : State} (h : ctlFlush s = .done () t) :
    t = { s with enc := t.enc, hidden := { s.hidden with ccur := t.hidden.ccur } } := by
  rcases ctlFlush_eq_done.1 h with ⟨-, rfl⟩ | ⟨-, -, rfl⟩ <;> rfl

theorem encodeSeq_result {s u : State} (h : encodeSeq s = .done () u) :
    u.result = BitVec.ofNat 35 (Wire.encodedSize s.hidden.zig s.hidden.delta s) := by
  obtain ⟨t, v, -, hstands, hi, hv, rfl⟩ := encodeSeq_eq_done h
  rw [ctlFlush_frame hv, publish_result, hstands.dcur, hi]

theorem encodeSeq_prev {s u : State} (h : encodeSeq s = .done () u) :
    u.prev = if s.hidden.delta then Wire.lastValue (Wire.valWords s) s.prev s.n.toNat
      else s.prev := by
  obtain ⟨t, v, -, hstands, hi, hv, rfl⟩ := encodeSeq_eq_done h
  have hdelta : t.hidden.delta = s.hidden.delta := by rw [hstands.frame]
  have hprev : t.prev = s.prev := by rw [hstands.frame]
  have hcarry := hi ▸ hstands.carry
  rw [ctlFlush_frame hv, publish_prev]
  dsimp only
  rw [hdelta, hprev]
  split
  · next hd => exact hcarry hd
  · rfl

theorem ctlFlush_of_room {s : State} (h : s.n.toNat % 4 ≠ 0 → s.hidden.ccur < s.encLen.toNat) :
    ∃ t, ctlFlush s = .done () t := by
  by_cases hr : s.n.toNat % 4 = 0
  · exact ⟨s, ctlFlush_eq_done.2 (.inl ⟨hr, rfl⟩)⟩
  · exact ⟨_, ctlFlush_eq_done.2 (.inr ⟨hr, h hr, rfl⟩)⟩

theorem encodeSeq_of_room {s : State}
    (hroom : Wire.encodedSize s.hidden.zig s.hidden.delta s ≤ s.encLen.toNat) :
    ∃ t, encodeSeq s = .done () t := by
  obtain ⟨t, ht, hstands, hi⟩ := (startEncode_stands s).loop (k := s.n.toNat) (by simp) hroom
  have hccur := hstands.counters.1
  obtain ⟨v, hv⟩ := ctlFlush_of_room (s := t) (fun hr => by
    have hceil : ceil4 s.n.toNat ≤ s.encLen.toNat := (ceil4_le_encodedOffset ..).trans hroom
    rw [hstands.frame.n_eq] at hr
    rw [hstands.frame.encLen_eq]
    rw [startEncode_hidden_i] at hi
    unfold ceil4 at hceil
    omega)
  exact ⟨_, Run.bind_eq_done.2 ⟨(), t, ht, Run.bind_eq_done.2 ⟨(), v, hv, rfl⟩⟩⟩

/-! ### The encode command -/

/-- An encode command that has room completes. -/
theorem exec_encoder_of_room {zig delta : Bool} {s : State} (hs : EncodeAdmitted s)
    (hroom : Wire.encodedSize zig delta s ≤ s.encLen.toNat) :
    ∃ t, encodeSeq (atIssue (.encoder zig delta) s) = .done () t ∧
      exec (.encoder zig delta) s = .next (complete t) := by
  obtain ⟨t, ht⟩ := encodeSeq_of_room (s := atIssue (.encoder zig delta) s) (by simpa using hroom)
  exact ⟨t, ht, (exec_encoder_of_admitted hs).trans (congrArg finish ht)⟩

/-- An encode command that completes is the completion of an encode that ended normally. -/
theorem exec_encoder_of_completed {zig delta : Bool} {s v : State} (hs : EncodeAdmitted s)
    (h : exec (.encoder zig delta) s = .next v) (hv : Completed v) :
    ∃ t, encodeSeq (atIssue (.encoder zig delta) s) = .done () t ∧ v = complete t := by
  rw [exec_encoder_of_admitted hs] at h
  change finish (encodeSeq (atIssue (.encoder zig delta) s)) = .next v at h
  cases hrun : encodeSeq (atIssue (.encoder zig delta) s) with
  | done _ t => rw [hrun] at h; cases h; exact ⟨t, rfl, rfl⟩
  | raised c info t =>
    rw [hrun] at h
    cases h
    obtain ⟨hstate, -⟩ := hv
    rw [raiseFault_eq, Status.state_faulted] at hstate
    cases hstate

/-- `RESULT` of an encode command is the size of the encoding, as a 35-bit number. -/
theorem encodeSeq_atIssue_result {zig delta : Bool} {s t : State}
    (h : encodeSeq (atIssue (.encoder zig delta) s) = .done () t) :
    (complete t).result = BitVec.ofNat 35 (Wire.encodedSize zig delta s) := by
  simpa using encodeSeq_result h

/-! ### The size of an encoding -/

/-- An offset is the number of control bytes and the widths before it (42_scalar_operations.md R111). -/
theorem encodedOffset_eq_sum (zig delta : Bool) (val : Nat → Word) (prev : Word) (n i : Nat) :
    Wire.encodedOffset zig delta val prev n i =
      ceil4 n + ∑ j ∈ Finset.range i, width (Wire.toStore zig delta val prev j) := by
  induction i with
  | zero => rfl
  | succ i ih => rw [Finset.sum_range_succ, ← Nat.add_assoc, ← ih]; rfl

theorem encodedSize_eq_sum (zig delta : Bool) (s : State) :
    Wire.encodedSize zig delta s = ceil4 s.n.toNat +
      ∑ i ∈ Finset.range s.n.toNat, width (Wire.toStore zig delta (Wire.valWords s) s.prev i) :=
  encodedOffset_eq_sum ..

theorem le_sum_width (f : Nat → Word) (n : Nat) : n ≤ ∑ i ∈ Finset.range n, width (f i) := by
  simpa using Finset.card_nsmul_le_sum (Finset.range n) _ 1 fun i _ => width_pos (f i)

theorem sum_width_le (f : Nat → Word) (n : Nat) : ∑ i ∈ Finset.range n, width (f i) ≤ 4 * n := by
  simpa [mul_comm] using Finset.sum_le_card_nsmul (Finset.range n) _ 4 fun i _ => width_le (f i)

theorem encodedSize_le (zig delta : Bool) (s : State) :
    Wire.encodedSize zig delta s ≤ maxEncodedSize s.n.toNat := by
  rw [encodedSize_eq_sum]
  exact Nat.add_le_add_left (sum_width_le _ _) _

/-- The number stored for value `i` takes `val[i]` and, with delta, the value before it. -/
theorem toStore_congr {zig delta : Bool} {val val' : Nat → Word} {prev prev' : Word} {i : Nat}
    (hval : ∀ j ≤ i, val' j = val j) (hprev : delta = true → prev' = prev) :
    Wire.toStore zig delta val' prev' i = Wire.toStore zig delta val prev i := by
  have hbefore : delta = true → Wire.valueBefore val' prev' i = Wire.valueBefore val prev i := by
    cases i with
    | zero => exact hprev
    | succ i => exact fun _ => hval i (Nat.le_succ i)
  cases delta with
  | false => simp [Wire.toStore, hval i le_rfl]
  | true => simp [Wire.toStore, hval i le_rfl, hbefore rfl]

theorem encodedSize_congr {zig delta : Bool} {s u : State} (hn : u.n = s.n)
    (hprev : delta = true → u.prev = s.prev)
    (hval : ∀ i < s.n.toNat, Memory.read u.val i = Memory.read s.val i) :
    Wire.encodedSize zig delta u = Wire.encodedSize zig delta s := by
  rw [encodedSize_eq_sum, encodedSize_eq_sum, hn]
  congr 1
  refine Finset.sum_congr rfl fun i hi => congrArg width (toStore_congr (fun j hj => ?_) hprev)
  exact hval j (hj.trans_lt (Finset.mem_range.1 hi))

/-- A size that the space admits is held whole by `RESULT`. -/
theorem toNat_ofNat_of_le_encLen {k : Nat} {s : State} (h : k ≤ s.encLen.toNat) :
    (BitVec.ofNat 35 k).toNat = k := by
  rw [BitVec.toNat_ofNat, Nat.mod_eq_of_lt (h.trans_lt s.encLen.isLt)]

/-- Settles O30: `RESULT` is the data cursor at the end of the loop, the sum of the widths above the
control bytes; the sum takes nothing but the `N` values and, with delta, `PREV`. -/
theorem encodedSizes : Obligations.EncodedSizes := by
  unfold Obligations.EncodedSizes
  intro zig delta s hs hroom
  obtain ⟨t, ht, hexec⟩ := exec_encoder_of_room hs hroom
  have hresult := encodeSeq_atIssue_result ht
  have hsum := encodedSize_eq_sum zig delta s
  have hlow := le_sum_width (Wire.toStore zig delta (Wire.valWords s) s.prev) s.n.toNat
  have hsize : (complete t).result.toNat = Wire.encodedSize zig delta s := by
    rw [hresult, toNat_ofNat_of_le_encLen hroom]
  refine ⟨_, hexec, completed_complete t, hsize.trans hsum, ?_, ?_, fun w hw => ?_,
    fun u v hu hn hprev hval hv hdone => ?_⟩
  · rw [hsize, hsum]
    exact Nat.add_le_add_left hlow _
  · rw [hsize]
    exact encodedSize_le zig delta s
  · rw [hsize, hsum, Finset.sum_congr rfl fun i hi => hw i (Finset.mem_range.1 hi)]
    simp [mul_comm]
  · obtain ⟨p, hp, rfl⟩ := exec_encoder_of_completed hu hv hdone
    rw [hresult, encodeSeq_atIssue_result hp, encodedSize_congr hn hprev hval]

end Sys2Proof.Machine
end

section
/-! PROOFS. Family 42_scalar_operations.md: the bytes an encode that ends normally leaves, read back as the
wire format reads them (30_encoding.md R51 to R55). -/

namespace Sys2Proof.Machine

/-! ### Numbers in the ENC space -/

/-- A number written and read back, cut to its width. -/
theorem Memory.readLE_writeLE (m : List (Nat × Byte)) (a k : Nat) (v : Word) :
    Memory.readLE (Memory.writeLE m a k v) a k = v.toNat % 256 ^ k := by
  induction k generalizing m a v with
  | zero => simp [Memory.readLE, Nat.mod_one]
  | succ k ih =>
    rw [Memory.writeLE, Memory.readLE, ih,
      Memory.read_writeLE_outside _ _ (.inl (Nat.lt_succ_self a)), Memory.read_write_self,
      BitVec.toNat_setWidth, BitVec.toNat_ushiftRight, Nat.shiftRight_eq_div_pow,
      pow_succ' 256 k, Nat.mod_mul]

/-- The byte at the top of a number. -/
theorem Memory.readLE_succ (m : List (Nat × Byte)) (a k : Nat) :
    Memory.readLE m a (k + 1) = Memory.readLE m a k + (Memory.read m (a + k)).toNat * 256 ^ k := by
  induction k generalizing a with
  | zero => simp [Memory.readLE]
  | succ k ih =>
    rw [Memory.readLE, ih, Memory.readLE, Nat.add_right_comm a 1 k, Nat.add_assoc a k 1]
    ring

/-- The wire format's number is what the block reads. -/
theorem number_read (m : List (Nat × Byte)) (a k : Nat) :
    Wire.number (Memory.read m) a k = Memory.readLE m a k := by
  induction k with
  | zero => rfl
  | succ k ih => rw [Memory.readLE_succ, ← ih]; rfl

/-- The wire format's code is the code of the slot. -/
theorem codeAt_read (m : List (Nat × Byte)) (i : Nat) :
    Wire.codeAt (Memory.read m) i = (slotCode (Memory.read m (i / 4)) (i % 4)).toNat :=
  (toNat_slotCode _ _).symm

/-! ### The codes collected -/

theorem slotCode_or (a b : Byte) (j : Nat) : slotCode (a ||| b) j = slotCode a j ||| slotCode b j := by
  simp [slotCode, BitVec.ushiftRight_or_distrib]

/-- A code put in slot `k` is seen in slot `k` and leaves the slots below alone. -/
theorem slotCode_shiftLeft (c : WidthCode) {j k : Nat} (hj : j ≤ k) (hk : k < 4) :
    slotCode (c.setWidth 8 <<< (2 * k)) j = if j = k then c else 0#2 := by
  have hc := c.isLt
  apply BitVec.eq_of_toNat_eq
  rw [toNat_slotCode, BitVec.toNat_shiftLeft, BitVec.toNat_setWidth_of_le (by decide),
    Nat.shiftLeft_eq]
  interval_cases k <;> interval_cases j <;> simp <;> omega

theorem slotCode_eq_zero_of_lt {b : Byte} {j : Nat} (h : b.toNat < 4 ^ j) : slotCode b j = 0#2 := by
  apply BitVec.eq_of_toNat_eq
  rw [toNat_slotCode, Nat.div_eq_of_lt h]
  rfl

/-- `CtlPut`'s byte: the new code in slot `i mod 4`, the codes collected below it. -/
theorem slotCode_accWith {s : State} (c : WidthCode) {j : Nat} (hj : j ≤ s.hidden.i % 4)
    (hacc : s.hidden.acc.toNat < 4 ^ (s.hidden.i % 4)) :
    slotCode (accWith c s) j = if j = s.hidden.i % 4 then c else slotCode s.hidden.acc j := by
  rw [accWith, slotCode_or, slotCode_shiftLeft c hj (by omega)]
  split
  · next h => rw [h, slotCode_eq_zero_of_lt hacc, BitVec.zero_or]
  · exact BitVec.or_zero

/-! ### What one iteration writes -/

/-- Where control byte `g` is between two iterations of an encode: in ENC once its group is full, in the
accumulator before that. -/
def controlOut (s : State) (g : Nat) : Byte :=
  if g < s.hidden.ccur then Memory.read s.enc g else s.hidden.acc

theorem encodeOne_writes {s t : State} {v : Word} (h : encodeOne s = .done () t)
    (hv : (encodeTransform (Memory.read s.val s.hidden.i) s).1 = v) :
    (t.hidden.ccur = s.hidden.ccur ∧
      t.enc = Memory.writeLE s.enc s.hidden.dcur (width v) v ∧
      t.hidden.acc = accWith (code v) s) ∨
    (t.hidden.ccur = s.hidden.ccur + 1 ∧
      t.enc = Memory.write (Memory.writeLE s.enc s.hidden.dcur (width v) v) s.hidden.ccur
        (accWith (code v) s)) := by
  obtain ⟨p, q, hp, hq, rfl⟩ := encodeOne_eq_done.1 h
  rw [hv] at hp hq
  rw [encodeTransform_snd] at hp
  obtain ⟨-, rfl⟩ := dataPut_eq_done.1 hp
  rcases ctlPut_eq_done.1 hq with ⟨-, rfl⟩ | ⟨-, -, rfl⟩
  · exact .inl ⟨rfl, rfl, rfl⟩
  · exact .inr ⟨rfl, rfl⟩

section
variable {s t : State} {v : Word} (h : encodeOne s = .done () t)
  (hv : (encodeTransform (Memory.read s.val s.hidden.i) s).1 = v)
include h hv

theorem encodeOne_read {a : Nat} (ha : a ≠ s.hidden.ccur) :
    Memory.read t.enc a = Memory.read (Memory.writeLE s.enc s.hidden.dcur (width v) v) a := by
  rcases encodeOne_writes h hv with ⟨-, henc, -⟩ | ⟨-, henc⟩
  · rw [henc]
  · rw [henc, Memory.read_write_ne _ _ ha]

/-- The element of the iteration. -/
theorem encodeOne_readLE (hctl : s.hidden.ccur < s.hidden.dcur) :
    Memory.readLE t.enc s.hidden.dcur (width v) = v.toNat := by
  rw [Memory.readLE_congr _ _ _ _ fun b hb _ => encodeOne_read h hv (a := b) (by omega),
    Memory.readLE_writeLE, Nat.mod_eq_of_lt (toNat_lt_of_width v)]

/-- The elements before it. -/
theorem encodeOne_readLE_before {a k : Nat} (ha : s.hidden.ccur < a) (hk : a + k ≤ s.hidden.dcur) :
    Memory.readLE t.enc a k = Memory.readLE s.enc a k :=
  Memory.readLE_congr _ _ _ _ fun b hb hb' => by
    rw [encodeOne_read h hv (by omega), Memory.read_writeLE_outside _ _ (.inl (by omega))]

/-- The control byte of the iteration. -/
theorem encodeOne_controlOut : controlOut t s.hidden.ccur = accWith (code v) s := by
  rcases encodeOne_writes h hv with ⟨hccur, -, hacc⟩ | ⟨hccur, henc⟩
  · rw [controlOut, hccur, if_neg (lt_irrefl _), hacc]
  · rw [controlOut, hccur, if_pos (Nat.lt_succ_self _), henc, Memory.read_write_self]

/-- The control bytes before it. -/
theorem encodeOne_controlOut_before {g : Nat} (hg : g < s.hidden.ccur)
    (hctl : s.hidden.ccur < s.hidden.dcur) : controlOut t g = controlOut s g := by
  have hccur : g < t.hidden.ccur := by
    rcases encodeOne_writes h hv with ⟨hccur, -⟩ | ⟨hccur, -⟩ <;> omega
  rw [controlOut, controlOut, if_pos hg, if_pos hccur, encodeOne_read h hv (by omega),
    Memory.read_writeLE_outside _ _ (.inl (by omega))]

end

/-! ### The encoding so far -/

/-- The first `k` elements of an encode of `n` values are in `m`, and their codes in the control bytes
`ctl`. -/
structure HoldsEncoding (zig delta : Bool) (val : Nat → Word) (prev : Word) (n k : Nat)
    (ctl : Nat → Byte) (m : List Host.Cell) : Prop where
  codes : ∀ i < k, slotCode (ctl (i / 4)) (i % 4) = code (Wire.toStore zig delta val prev i)
  data : ∀ i < k, Memory.readLE m (Wire.encodedOffset zig delta val prev n i)
    (width (Wire.toStore zig delta val prev i)) = (Wire.toStore zig delta val prev i).toNat

/-- The encode that started in `s` has put out in `t` what belongs to the values before `i`. -/
def EncodeWrote (s t : State) : Prop :=
  HoldsEncoding s.hidden.zig s.hidden.delta (Wire.valWords s) s.prev s.n.toNat t.hidden.i
    (controlOut t) t.enc

theorem EncodeWrote.next {s t u : State} (hw : EncodeWrote s t) (h : EncodeStands s t)
    (hi : t.hidden.i < s.n.toNat) (hu : encodeOne t = .done () u) : EncodeWrote s u := by
  obtain ⟨hcodes, hdata⟩ := hw
  obtain ⟨hiu, -⟩ := encodeOne_counters hu
  have hgroup : t.hidden.ccur = t.hidden.i / 4 := h.counters.1
  have hceil : t.hidden.ccur < ceil4 s.n.toNat := hgroup ▸ div_lt_ceil4 hi
  have hctl : t.hidden.ccur < t.hidden.dcur := hceil.trans_le h.counters.2.1
  have hcurrent := encodeOne_controlOut hu h.stored
  refine ⟨fun j hj => ?_, fun j hj => ?_⟩
  · rcases Nat.lt_or_ge (j / 4) t.hidden.ccur with hg | hg
    · rw [encodeOne_controlOut_before hu h.stored hg hctl]
      exact hcodes j (by omega)
    · have hg : j / 4 = t.hidden.ccur := by omega
      rw [hg, hcurrent, slotCode_accWith _ (by omega) h.acc]
      split
      · rw [show j = t.hidden.i by omega]
      · have hbefore := hcodes j (by omega)
        rwa [hg, controlOut, if_neg (lt_irrefl _)] at hbefore
  · rcases Nat.lt_or_ge j t.hidden.i with hlt | hge
    · have hmono := encodedOffset_mono s.hidden.zig s.hidden.delta (Wire.valWords s) s.prev
        s.n.toNat (Nat.succ_le_of_lt hlt)
      rw [encodeOne_readLE_before hu h.stored (hceil.trans_le (ceil4_le_encodedOffset ..))
        (h.dcur ▸ hmono)]
      exact hdata j hlt
    · obtain rfl : j = t.hidden.i := by omega
      rw [← h.dcur]
      exact encodeOne_readLE hu h.stored hctl

theorem EncodeWrote.of_loop {k : Nat} {s t u : State} (hw : EncodeWrote s t) (h : EncodeStands s t)
    (hk : t.hidden.i + k ≤ s.n.toNat) (hu : encodeLoop k t = .done () u) : EncodeWrote s u := by
  induction k generalizing t with
  | zero => cases hu; exact hw
  | succ k ih =>
    obtain ⟨_, p, hp, hu⟩ := Run.bind_eq_done.1 hu
    obtain ⟨hi, -⟩ := encodeOne_counters hp
    exact ih (hw.next h (by omega) hp) (h.next hp) (by omega) hu

theorem startEncode_wrote (s : State) : EncodeWrote s (startEncode s) :=
  ⟨fun _ hi => absurd hi (Nat.not_lt_zero _), fun _ hi => absurd hi (Nat.not_lt_zero _)⟩

/-! ### The encoding at the end -/

/-- After the flush every control byte is in ENC. -/
theorem ctlFlush_read {s t : State} (h : ctlFlush s = .done () t) {g : Nat}
    (hg : g < t.hidden.ccur) : Memory.read t.enc g = controlOut s g := by
  rcases ctlFlush_eq_done.1 h with ⟨-, rfl⟩ | ⟨-, -, rfl⟩
  · exact (if_pos hg).symm
  · rw [Memory.read_write, controlOut]
    replace hg : g < s.hidden.ccur + 1 := hg
    split
    · next hlast => rw [if_neg (by omega)]
    · next hne => rw [if_pos (by omega)]

/-- The flush writes no byte past the control cursor it leaves. -/
theorem ctlFlush_read_above {s t : State} (h : ctlFlush s = .done () t) {a : Nat}
    (ha : t.hidden.ccur ≤ a) : Memory.read t.enc a = Memory.read s.enc a := by
  rcases ctlFlush_eq_done.1 h with ⟨-, rfl⟩ | ⟨-, -, rfl⟩
  · rfl
  · exact Memory.read_write_ne _ _ (Nat.ne_of_gt ha)

theorem encodeSeq_holdsEncoding {s u : State} (h : encodeSeq s = .done () u) :
    HoldsEncoding s.hidden.zig s.hidden.delta (Wire.valWords s) s.prev s.n.toNat s.n.toNat
      (Memory.read u.enc) u.enc := by
  obtain ⟨t, v, ht, hstands, hi, hv, rfl⟩ := encodeSeq_eq_done h
  obtain ⟨hcodes, hdata⟩ := (startEncode_wrote s).of_loop (startEncode_stands s) (by simp) ht
  obtain ⟨hccur, -⟩ := ctlFlush_counters hv (hstands.frame.n_eq.symm ▸ hstands.counters)
    (hstands.frame.n_eq.symm ▸ hi)
  rw [hstands.frame.n_eq] at hccur
  rw [hi] at hcodes hdata
  refine ⟨fun j hj => ?_, fun j hj => ?_⟩
  · rw [publish_enc, ctlFlush_read hv (hccur ▸ div_lt_ceil4 hj)]
    exact hcodes j hj
  · rw [← hdata j hj, publish_enc]
    exact Memory.readLE_congr _ _ _ _ fun a ha _ =>
      ctlFlush_read_above hv (hccur ▸ (ceil4_le_encodedOffset ..).trans ha)

/-! ### The encoding as the wire format reads it -/

section
variable {zig delta : Bool} {val : Nat → Word} {prev : Word} {n : Nat} {m : List Host.Cell}

/-- A buffer with the same bytes as far as the encoding goes holds it too. -/
theorem HoldsEncoding.of_agree {m' : List Host.Cell}
    (h : HoldsEncoding zig delta val prev n n (Memory.read m) m)
    (hagree : ∀ a < Wire.encodedOffset zig delta val prev n n, Memory.read m' a = Memory.read m a) :
    HoldsEncoding zig delta val prev n n (Memory.read m') m' := by
  refine ⟨fun i hi => ?_, fun i hi => ?_⟩
  · rw [hagree _ ((div_lt_ceil4 hi).trans_le (ceil4_le_encodedOffset ..))]
    exact h.codes i hi
  · have hmono := encodedOffset_mono zig delta val prev n (Nat.succ_le_of_lt hi)
    rw [← h.data i hi]
    exact Memory.readLE_congr _ _ _ _ fun a _ ha => hagree a (ha.trans_le hmono)

variable (h : HoldsEncoding zig delta val prev n n (Memory.read m) m)
include h

theorem HoldsEncoding.widthAt_eq {i : Nat} (hi : i < n) :
    Wire.widthAt (Memory.read m) i = width (Wire.toStore zig delta val prev i) := by
  rw [Wire.widthAt, codeAt_read, h.codes i hi, toNat_code, Nat.sub_add_cancel (width_pos _)]

theorem HoldsEncoding.offsetAt_eq {i : Nat} (hi : i ≤ n) :
    Wire.offsetAt (Memory.read m) n i = Wire.encodedOffset zig delta val prev n i := by
  induction i with
  | zero => rfl
  | succ i ih => rw [Wire.offsetAt, ih (by omega), h.widthAt_eq hi]; rfl

theorem HoldsEncoding.storedAt_eq {i : Nat} (hi : i < n) :
    Wire.storedAt (Memory.read m) n i = Wire.toStore zig delta val prev i := by
  rw [Wire.storedAt, h.offsetAt_eq hi.le, h.widthAt_eq hi, number_read, h.data i hi,
    BitVec.ofNat_toNat, BitVec.setWidth_eq]

/-- The decode's zigzag inverse undoes the encode's zigzag. -/
theorem HoldsEncoding.differenceAt_eq {i : Nat} (hi : i < n) :
    Wire.differenceAt zig (Memory.read m) n i =
      if delta then val i - Wire.valueBefore val prev i else val i := by
  rw [Wire.differenceAt, h.storedAt_eq hi, Wire.toStore]
  cases zig <;> simp

/-- Each value comes back: the value before it has, and the sum undoes the difference. -/
theorem HoldsEncoding.valueAt_eq {i : Nat} (hi : i < n) :
    Wire.valueAt zig delta (Memory.read m) n prev i = val i := by
  induction i with
  | zero =>
    rw [Wire.valueAt, h.differenceAt_eq hi]
    cases delta
    · rfl
    · exact add_sub_cancel prev (val 0)
  | succ i ih =>
    rw [Wire.valueAt, h.differenceAt_eq hi, ih (by omega)]
    cases delta
    · rfl
    · exact add_sub_cancel (val i) (val (i + 1))

end

end Sys2Proof.Machine
end

section
/-! PROOFS. Family 42_scalar_operations.md: either engine's decode. A group step leaves what four scalar
iterations leave (43_vector_decode.md R123 to R125, R129). -/

namespace Sys2Proof.Machine

/-! ### The permuted window -/

/-- Byte `b` of a number of `k` bytes; above the number, 0. -/
theorem extractLsb'_ofNat_readLE_ite (m : List (Nat × Byte)) (a b : Nat) {k : Nat} (hk : k ≤ 4) :
    (BitVec.ofNat 32 (Memory.readLE m a k)).extractLsb' (8 * b) 8 =
      if b < k then Memory.read m (a + b) else 0#8 := by
  split
  · next hb => exact extractLsb'_ofNat_readLE m a hk hb
  · next hb =>
    have hlt : Memory.readLE m a k < 256 ^ b :=
      (Memory.readLE_lt m a k).trans_le (Nat.pow_le_pow_right (by decide) (by omega))
    apply BitVec.eq_of_toNat_eq
    rw [BitVec.extractLsb'_toNat, toNat_ofNat_readLE m a hk, Nat.shiftRight_eq_div_pow, Nat.pow_mul]
    simp [Nat.div_eq_of_lt hlt]

/-- Byte `k` of a window is the byte at its start plus `k`. -/
theorem windowByte_readLE (m : List (Nat × Byte)) (a : Nat) {k : Nat} (hk : k < 16) :
    windowByte (BitVec.ofNat 128 (Memory.readLE m a 16)) k = Memory.read m (a + k) := by
  have hlt : Memory.readLE m a 16 < 2 ^ 128 := Memory.readLE_lt m a 16
  apply BitVec.eq_of_toNat_eq
  rw [windowByte, BitVec.extractLsb'_toNat, BitVec.toNat_ofNat, Nat.mod_eq_of_lt hlt,
    Nat.shiftRight_eq_div_pow, Nat.pow_mul]
  exact Memory.readLE_byte m a 16 k hk

/-- Byte `b` of lane `j` is byte `b` of element `j`; above the element, 0 (43_vector_decode.md R121). -/
theorem permuteByte_shuffleMask (m : List (Nat × Byte)) (a : Nat) (cb : Byte) {j b : Nat} (hj : j < 4)
    (hb : b < 4) :
    permuteByte (BitVec.ofNat 128 (Memory.readLE m a 16)) (shuffleMask cb) (4 * j + b) =
      if b < (slotCode cb j).toNat + 1 then Memory.read m (a + slotOffset cb j + b) else 0#8 := by
  have hoff := slotOffset_le cb j
  rw [permuteByte, shuffleMask, show (4 * j + b) % 4 = b by omega, show (4 * j + b) / 4 = j by omega]
  split_ifs with h
  · exact (windowByte_readLE m a (by omega)).trans (by rw [Nat.add_assoc])
  · rfl

theorem word_eq_bytes (v : Word) :
    v = v.extractLsb' (8 * 3) 8 ++ v.extractLsb' (8 * 2) 8 ++ v.extractLsb' (8 * 1) 8 ++
      v.extractLsb' (8 * 0) 8 := by
  rw [BitVec.extractLsb'_append_extractLsb'_eq_extractLsb' (by decide),
    BitVec.extractLsb'_append_extractLsb'_eq_extractLsb' (by decide),
    BitVec.extractLsb'_append_extractLsb'_eq_extractLsb' (by decide)]
  simp

/-- Lane `j` of the permuted window is the element the scalar engine reads for slot `j`
(43_vector_decode.md R123). -/
theorem permuteLane_shuffleMask (m : List (Nat × Byte)) (a : Nat) (cb : Byte) {j : Nat} (hj : j < 4) :
    permuteLane (BitVec.ofNat 128 (Memory.readLE m a 16)) (shuffleMask cb) j =
      BitVec.ofNat 32 (Memory.readLE m (a + slotOffset cb j) ((slotCode cb j).toNat + 1)) := by
  have hk : (slotCode cb j).toNat + 1 ≤ 4 := Nat.succ_le_succ (slotCode_le cb j)
  have hbyte : ∀ b < 4, permuteByte (BitVec.ofNat 128 (Memory.readLE m a 16)) (shuffleMask cb)
      (4 * j + b) = (BitVec.ofNat 32 (Memory.readLE m (a + slotOffset cb j)
        ((slotCode cb j).toNat + 1))).extractLsb' (8 * b) 8 := fun b hb => by
    rw [permuteByte_shuffleMask m a cb hj hb, extractLsb'_ofNat_readLE_ite _ _ _ hk]
  rw [permuteLane, hbyte 3 (by decide), hbyte 2 (by decide), hbyte 1 (by decide),
    show 4 * j = 4 * j + 0 from rfl, hbyte 0 (by decide), ← word_eq_bytes]

/-- The prefix sum is the running sum from the carry (43_vector_decode.md R125). -/
theorem prefixSum_eq (carry : Word) (v : Lanes) :
    prefixSum carry v = ⟨carry + v.l0, carry + v.l0 + v.l1, carry + v.l0 + v.l1 + v.l2,
      carry + v.l0 + v.l1 + v.l2 + v.l3⟩ := by
  simp only [prefixSum, addLanes, shiftLanes1, shiftLanes2, mapLanes, Lanes.mk.injEq]
  refine ⟨?_, ?_, ?_, ?_⟩ <;> bv_omega

/-! ### One scalar iteration -/

/-- The number the next decode iteration reads. -/
def nextStored (s : State) : Word :=
  BitVec.ofNat 32 (Memory.readLE s.enc s.hidden.dcur ((slotCode (ctlByte s) 0).toNat + 1))

/-- The value the next decode iteration stores. -/
def nextValue (s : State) : Word :=
  let d := if s.hidden.zig then zigDec (nextStored s) else nextStored s
  if s.hidden.delta then s.hidden.carry + d else d

/-- The decode transform of a number takes the carry and the latched options from the state. -/
theorem decodeTransform_fst (u : Word) (s : State) :
    (decodeTransform u s).1 = if s.hidden.delta
      then s.hidden.carry + (if s.hidden.zig then zigDec u else u)
      else if s.hidden.zig then zigDec u else u := by
  unfold decodeTransform deltaDec
  cases s.hidden.delta <;> rfl

/-- An iteration whose reads are admitted ends normally. -/
theorem decodeOne_of_room {s : State} (hctl : s.hidden.i % 4 = 0 → s.hidden.ccur < s.encLen.toNat)
    (hdata : s.hidden.dcur + ((slotCode (ctlByte s) 0).toNat + 1) ≤ s.encLen.toNat) :
    ∃ t, decodeOne s = .done () t := by
  have hget := ctlGet_eq_done.2 ⟨hctl, rfl, rfl⟩
  exact ⟨_, decodeOne_eq_done.2 ⟨_, _, _, _, hget, dataGet_eq_done.2 ⟨hdata, rfl, rfl⟩, rfl⟩⟩

/-- What an iteration leaves in the control byte held, the carry and VAL. -/
theorem decodeOne_writes {s t : State} (h : decodeOne s = .done () t) :
    t.hidden.cb = ctlByte s >>> 2 ∧
      t.hidden.carry = (if s.hidden.delta then nextValue s else s.hidden.carry) ∧
      t.val = Memory.write s.val s.hidden.i (nextValue s) := by
  obtain ⟨c, p, u, q, hp, hq, rfl⟩ := decodeOne_eq_done.1 h
  obtain ⟨-, rfl, rfl⟩ := ctlGet_eq_done.1 hp
  obtain ⟨-, rfl, rfl⟩ := dataGet_eq_done.1 hq
  rw [decodeTransform_snd, decodeTransform_fst]
  exact ⟨rfl, rfl, rfl⟩

/-- `CtlGet`'s shifts drop the slots below. -/
theorem slotCode_ushiftRight (cb : Byte) (k j : Nat) :
    slotCode (cb >>> (2 * k)) j = slotCode cb (k + j) := by
  rw [slotCode, slotCode, ← BitVec.shiftRight_add, Nat.mul_add]

/-! ### Four scalar iterations -/

/-- The control byte of the group that starts in `s`. -/
def groupByte (s : State) : Byte := Memory.read s.enc s.hidden.ccur

/-- Element `j` of the group, the zigzag inverse applied if the command has it. -/
def groupDifference (s : State) (j : Nat) : Word :=
  let u := BitVec.ofNat 32 (Memory.readLE s.enc (s.hidden.dcur + slotOffset (groupByte s) j)
    ((slotCode (groupByte s) j).toNat + 1))
  if s.hidden.zig then zigDec u else u

/-- The carry before value `j` of the group. -/
def groupCarry (s : State) (j : Nat) : Word :=
  match j with
  | 0 => s.hidden.carry
  | k + 1 => if s.hidden.delta then groupCarry s k + groupDifference s k else groupCarry s k

/-- Value `j` of the group. -/
def groupValue (s : State) (j : Nat) : Word :=
  if s.hidden.delta then groupCarry s j + groupDifference s j else groupDifference s j

/-- VAL after `j` values of the group. -/
def groupVal (s : State) (j : Nat) : List (Nat × Word) :=
  match j with
  | 0 => s.val
  | k + 1 => Memory.write (groupVal s k) (s.hidden.i + k) (groupValue s k)

/-- How the scalar engine stands in `p`, `j` iterations after the start `s` of a group. -/
structure GroupStands (s : State) (j : Nat) (p : State) : Prop where
  frame : DecodeFrame s p
  i : p.hidden.i = s.hidden.i + j
  ccur : p.hidden.ccur = if j = 0 then s.hidden.ccur else s.hidden.ccur + 1
  held : j ≠ 0 → p.hidden.cb = groupByte s >>> (2 * j)
  dcur : p.hidden.dcur = s.hidden.dcur + slotOffset (groupByte s) j
  carry : p.hidden.carry = groupCarry s j
  val : p.val = groupVal s j

theorem GroupStands.start (s : State) : GroupStands s 0 s :=
  ⟨rfl, rfl, rfl, fun h => absurd rfl h, rfl, rfl, rfl⟩

section
variable {s p : State} {j : Nat} (h : GroupStands s j p) (hi : s.hidden.i % 4 = 0) (hj : j < 4)
include h hi hj

theorem GroupStands.ctlByte_eq : ctlByte p = groupByte s >>> (2 * j) := by
  have henc := h.frame.enc_eq
  have hip := h.i
  by_cases hj0 : j = 0
  · have hccur := h.ccur
    subst hj0
    rw [ctlByte, if_pos (by omega), henc, hccur]
    rfl
  · rw [ctlByte, if_neg (by omega), h.held hj0]

theorem GroupStands.slotCode_eq : slotCode (ctlByte p) 0 = slotCode (groupByte s) j := by
  rw [h.ctlByte_eq hi hj, slotCode_ushiftRight, Nat.add_zero]

theorem GroupStands.nextValue_eq : nextValue p = groupValue s j := by
  have hzig : p.hidden.zig = s.hidden.zig := by rw [h.frame]
  have hdelta : p.hidden.delta = s.hidden.delta := by rw [h.frame]
  have hstored : nextStored p = BitVec.ofNat 32 (Memory.readLE s.enc
      (s.hidden.dcur + slotOffset (groupByte s) j) ((slotCode (groupByte s) j).toNat + 1)) := by
    rw [nextStored, h.slotCode_eq hi hj, h.dcur, h.frame.enc_eq]
  rw [nextValue, hzig, hdelta, hstored, h.carry]
  rfl

theorem GroupStands.next {q : State} (hq : decodeOne p = .done () q) : GroupStands s (j + 1) q := by
  obtain ⟨hiq, hccur, hdcur⟩ := decodeOne_counters hq
  obtain ⟨hcb, hcarry, hval⟩ := decodeOne_writes hq
  have hdelta : p.hidden.delta = s.hidden.delta := by rw [h.frame]
  have hip := h.i
  have hcp := h.ccur
  refine ⟨h.frame.trans (decodeOne_frame hq), by omega, ?_, fun _ => ?_, ?_, ?_, ?_⟩
  · rw [hccur, ctlNext, hcp, if_neg (Nat.succ_ne_zero j)]
    split_ifs <;> omega
  · rw [hcb, h.ctlByte_eq hi hj, ← BitVec.shiftRight_add]; rfl
  · rw [hdcur, h.slotCode_eq hi hj, h.dcur, Nat.add_assoc, Nat.add_assoc]; rfl
  · rw [hcarry, hdelta, h.nextValue_eq hi hj, h.carry, groupCarry, groupValue]
    cases s.hidden.delta <;> rfl
  · rw [hval, h.nextValue_eq hi hj, h.val, hip]; rfl

end

/-- With a window to read, the scalar engine can take the values of a group. -/
theorem decodeLoop_group {s : State} (hi : s.hidden.i % 4 = 0) (hctl : s.hidden.ccur < s.encLen.toNat)
    (hwindow : s.hidden.dcur + 16 ≤ s.encLen.toNat) {j : Nat} (hj : j ≤ 4) :
    ∃ p, decodeLoop j s = .done () p ∧ GroupStands s j p := by
  induction j with
  | zero => exact ⟨s, rfl, .start s⟩
  | succ j ih =>
    obtain ⟨p, hp, h⟩ := ih (by omega)
    have hlen : p.encLen = s.encLen := by rw [h.frame]
    have hip := h.i
    have hccur := h.ccur
    have hoff := slotOffset_le (groupByte s) j
    have hcode := slotCode_le (groupByte s) j
    obtain ⟨q, hq⟩ := decodeOne_of_room (s := p)
      (fun hstart => by rw [hlen, hccur, if_pos (by omega)]; exact hctl)
      (by rw [hlen, h.dcur, h.slotCode_eq hi hj]; omega)
    refine ⟨q, ?_, h.next hi hj hq⟩
    rw [decodeLoop_add, hp, Run.bind_done, decodeLoop, hq]
    rfl

/-! ### The group step -/

/-- The lanes of the group step are the four values (43_vector_decode.md R124). -/
theorem groupLanes_loadGroup (s : State) :
    groupLanes (loadGroup s) =
      ⟨groupValue s 0, groupValue s 1, groupValue s 2, groupValue s 3⟩ := by
  have hlane : ∀ j < 4, permuteLane (loadGroup s).hidden.window
      (shuffleMask (loadGroup s).hidden.cb) j =
      BitVec.ofNat 32 (Memory.readLE s.enc (s.hidden.dcur + slotOffset (groupByte s) j)
        ((slotCode (groupByte s) j).toNat + 1)) :=
    fun j hj => permuteLane_shuffleMask s.enc s.hidden.dcur (groupByte s) hj
  have hdiff : (if s.hidden.zig
      then mapLanes zigDec (permute (loadGroup s).hidden.window (shuffleMask (loadGroup s).hidden.cb))
      else permute (loadGroup s).hidden.window (shuffleMask (loadGroup s).hidden.cb)) =
      ⟨groupDifference s 0, groupDifference s 1, groupDifference s 2, groupDifference s 3⟩ := by
    rw [permute, hlane 0 (by decide), hlane 1 (by decide), hlane 2 (by decide), hlane 3 (by decide)]
    unfold groupDifference
    cases s.hidden.zig <;> rfl
  change (if s.hidden.delta then prefixSum s.hidden.carry (if s.hidden.zig then _ else _)
    else if s.hidden.zig then _ else _) = _
  rw [hdiff, prefixSum_eq]
  cases hd : s.hidden.delta <;> simp [groupCarry, groupValue, hd]

/-- A group step under its guard leaves what four scalar iterations leave, but for the registers of the
vector engine and the control byte held (43_vector_decode.md R129). -/
theorem groupStep_eq_decodeLoop_four {s : State} (hi : s.hidden.i % 4 = 0)
    (hctl : s.hidden.ccur < s.encLen.toNat) (hwindow : s.hidden.dcur + 16 ≤ s.encLen.toNat) :
    ∃ t u, groupStep s = .done () t ∧ decodeLoop 4 s = .done () u ∧ Wire.SameButHidden t u ∧
      t.hidden.i = u.hidden.i ∧ t.hidden.ccur = u.hidden.ccur ∧ t.hidden.dcur = u.hidden.dcur ∧
      t.hidden.carry = u.hidden.carry := by
  obtain ⟨u, hu, hframe, hiu, hccur, -, hdcur, hcarry, hval⟩ :=
    decodeLoop_group hi hctl hwindow (le_refl 4)
  refine ⟨_, u, groupStep_eq_done.2 ⟨hctl, hwindow, rfl⟩, hu, ?_⟩
  rw [groupLanes_loadGroup, hiu, hccur, hdcur, hcarry, ← byteCount_eq_slotOffset]
  refine ⟨?_, rfl, rfl, rfl, ?_⟩
  · rw [Wire.SameButHidden, hframe, hval]; rfl
  · change (if s.hidden.delta then groupValue s 3 else s.hidden.carry) = _
    cases hd : s.hidden.delta <;> simp [groupCarry, groupValue, hd]

end Sys2Proof.Machine
end

section
/-! PROOFS. Family 42_scalar_operations.md: a decode that has all its bytes stores the values the wire format
gives them, under either engine (42_scalar_operations.md R102, 43_vector_decode.md R127, R128). -/

namespace Sys2Proof.Machine

open Sys2Proof.Safety

/-! ### Offsets of the elements -/

theorem offsetAt_mono (enc : Nat → Byte) (n : Nat) : Monotone (Wire.offsetAt enc n) :=
  monotone_nat_of_le_succ fun _ => Nat.le_add_right ..

theorem ceil4_le_decodedSize (s : State) : ceil4 s.n.toNat ≤ Wire.decodedSize s :=
  offsetAt_mono (Wire.encBytes s) s.n.toNat (Nat.zero_le s.n.toNat)

/-! ### The decode loop -/

/-- The values the wire format gives the buffer of `s` under the latched options. -/
def wireValue (s : State) (i : Nat) : Word :=
  Wire.valueAt s.hidden.zig s.hidden.delta (Wire.encBytes s) s.n.toNat s.prev i

/-- Each value is its difference, put on the value before it if the command has delta. -/
theorem wireValue_eq (s : State) (i : Nat) :
    wireValue s i = if s.hidden.delta
      then Wire.valueBefore (wireValue s) s.prev i +
        Wire.differenceAt s.hidden.zig (Wire.encBytes s) s.n.toNat i
      else Wire.differenceAt s.hidden.zig (Wire.encBytes s) s.n.toNat i := by
  cases i <;> rfl

/-- How the decode that started in `s` stands in `t`, between two iterations of either engine. -/
structure DecodeReads (s t : State) : Prop where
  frame : DecodeFrame s t
  counters : DecodeCounters s.n.toNat t.hidden
  dcur : t.hidden.dcur = Wire.offsetAt (Wire.encBytes s) s.n.toNat t.hidden.i
  carry : s.hidden.delta = true → t.hidden.carry = Wire.valueBefore (wireValue s) s.prev t.hidden.i
  held : t.hidden.i % 4 ≠ 0 →
    t.hidden.cb = Memory.read s.enc (t.hidden.i / 4) >>> (2 * (t.hidden.i % 4))
  values : ∀ j < t.hidden.i, Memory.read t.val j = wireValue s j

theorem startDecode_reads (s : State) : DecodeReads s (startDecode s) :=
  ⟨rfl, startDecode_counters s, rfl, fun _ => rfl, fun h => absurd rfl h,
    fun _ h => absurd h (Nat.not_lt_zero _)⟩

section
variable {s t : State} (h : DecodeReads s t)
include h

theorem DecodeReads.ccur_of_group_start (hi : t.hidden.i % 4 = 0) :
    t.hidden.ccur = t.hidden.i / 4 := by
  have hccur := h.counters.1
  unfold ceil4 at hccur
  omega

theorem DecodeReads.ctlByte_eq :
    ctlByte t = Memory.read s.enc (t.hidden.i / 4) >>> (2 * (t.hidden.i % 4)) := by
  by_cases hi : t.hidden.i % 4 = 0
  · rw [ctlByte, if_pos hi, h.frame.enc_eq, h.ccur_of_group_start hi, hi]; rfl
  · rw [ctlByte, if_neg hi, h.held hi]

theorem DecodeReads.toNat_slotCode :
    (slotCode (ctlByte t) 0).toNat = Wire.codeAt (Wire.encBytes s) t.hidden.i := by
  rw [h.ctlByte_eq, slotCode_ushiftRight, Nat.add_zero, codeAt_read]

theorem DecodeReads.nextStored_eq :
    nextStored t = Wire.storedAt (Wire.encBytes s) s.n.toNat t.hidden.i := by
  rw [nextStored, h.toNat_slotCode, h.frame.enc_eq, h.dcur, Wire.storedAt, number_read]
  rfl

theorem DecodeReads.nextValue_eq : nextValue t = wireValue s t.hidden.i := by
  have hzig : t.hidden.zig = s.hidden.zig := by rw [h.frame]
  have hdelta : t.hidden.delta = s.hidden.delta := by rw [h.frame]
  rw [nextValue, wireValue_eq, h.nextStored_eq, hzig, hdelta]
  split
  · next hd => rw [h.carry hd]; rfl
  · rfl

theorem DecodeReads.next {u : State} (hu : decodeOne t = .done () u) : DecodeReads s u := by
  obtain ⟨hi, -, hdcur⟩ := decodeOne_counters hu
  obtain ⟨hcb, hcarry, hval⟩ := decodeOne_writes hu
  have hdelta : t.hidden.delta = s.hidden.delta := by rw [h.frame]
  refine ⟨h.frame.trans (decodeOne_frame hu), decodeOne_keeps_counters hu h.counters, ?_,
    fun hd => ?_, fun hne => ?_, fun j hj => ?_⟩
  · rw [hdcur, h.toNat_slotCode, h.dcur, hi]; rfl
  · rw [hcarry, hdelta, if_pos hd, h.nextValue_eq, hi]; rfl
  · rw [hi] at hne ⊢
    rw [hcb, h.ctlByte_eq, ← BitVec.shiftRight_add, show (t.hidden.i + 1) / 4 = t.hidden.i / 4 by omega]
    congr 1
    omega
  · rw [hval, Memory.read_write]
    split
    · next hlast => rw [hlast, h.nextValue_eq]
    · exact h.values j (by omega)

variable (hroom : Wire.decodedSize s ≤ s.encLen.toNat)
include hroom

/-- With all bytes there, each of the `N` iterations has its own. -/
theorem DecodeReads.exists_next (hi : t.hidden.i < s.n.toNat) : ∃ u, decodeOne t = .done () u := by
  have hlen : t.encLen = s.encLen := by rw [h.frame]
  have hnext := offsetAt_mono (Wire.encBytes s) s.n.toNat (Nat.succ_le_of_lt hi)
  have hctl := (div_lt_ceil4 hi).trans_le ((ceil4_le_decodedSize s).trans hroom)
  refine decodeOne_of_room (fun hstart => ?_) ?_
  · rw [hlen, h.ccur_of_group_start hstart]
    exact hctl
  · rw [hlen, h.toNat_slotCode, h.dcur]
    exact hnext.trans hroom

theorem DecodeReads.loop {k : Nat} (hk : t.hidden.i + k ≤ s.n.toNat) :
    ∃ u, decodeLoop k t = .done () u ∧ DecodeReads s u ∧ u.hidden.i = t.hidden.i + k := by
  induction k generalizing t with
  | zero => exact ⟨t, rfl, h, rfl⟩
  | succ k ih =>
    obtain ⟨p, hp⟩ := h.exists_next hroom (by omega)
    obtain ⟨hi, -⟩ := decodeOne_counters hp
    obtain ⟨u, hu, hreads, hiu⟩ := ih (h.next hp) (by omega)
    exact ⟨u, Run.bind_eq_done.2 ⟨(), p, hp, hu⟩, hreads, by omega⟩

/-! ### The group loop -/

/-- A group step stands where four scalar iterations do: no control byte is held there. -/
theorem DecodeReads.groupStep (hi : t.hidden.i % 4 = 0) (hguard : vecGuard t = true) :
    ∃ u, groupStep t = .done () u ∧ DecodeReads s u ∧ u.hidden.i = t.hidden.i + 4 := by
  obtain ⟨hwindow, hn⟩ := vecGuard_eq_true.1 hguard
  rw [h.frame.n_eq] at hn
  have hctl : t.hidden.ccur < t.encLen.toNat := by
    have hlt := div_lt_ceil4 (show t.hidden.i < s.n.toNat by omega)
    have hdata := h.counters.2.1
    have hccur := h.ccur_of_group_start hi
    omega
  obtain ⟨p, hp, hreads, hip⟩ := h.loop hroom hn
  obtain ⟨u, q, hu, hq, hsame, hiu, -, hdcur, hcarry⟩ :=
    groupStep_eq_decodeLoop_four hi hctl hwindow
  obtain ⟨⟩ := hp.symm.trans hq
  have hval : u.val = p.val := by rw [hsame]
  refine ⟨u, hu, ⟨h.frame.trans (groupStep_frame hu), groupStep_keeps_counters hu h.counters, ?_,
    ?_, fun hne => absurd hne (by omega), ?_⟩, hiu.trans hip⟩
  · rw [hdcur, hiu]; exact hreads.dcur
  · rw [hcarry, hiu]; exact hreads.carry
  · rw [hval, hiu]; exact hreads.values

theorem DecodeReads.groupLoop {k : Nat} (hi : t.hidden.i % 4 = 0) (hn : t.hidden.i ≤ s.n.toNat) :
    ∃ u, groupLoop k t = .done () u ∧ DecodeReads s u ∧ u.hidden.i ≤ s.n.toNat := by
  induction k generalizing t with
  | zero => exact ⟨t, rfl, h, hn⟩
  | succ k ih =>
    rw [Machine.groupLoop]
    split
    · next hguard =>
      obtain ⟨p, hp, hreads, hip⟩ := h.groupStep hroom hi hguard
      have hleft := (vecGuard_eq_true.1 hguard).2
      rw [h.frame.n_eq] at hleft
      obtain ⟨u, hu, hend⟩ := ih hreads (by omega) (by omega)
      exact ⟨u, Run.bind_eq_done.2 ⟨(), p, hp, hu⟩, hend⟩
    · exact ⟨t, rfl, h, hn⟩

/-! ### The decode command -/

theorem DecodeReads.scalarDecodeFrom (hn : t.hidden.i ≤ s.n.toNat) :
    ∃ u, scalarDecodeFrom t = .done () (publish u) ∧ DecodeReads s u ∧
      u.hidden.i = s.n.toNat := by
  obtain ⟨u, hu, hreads, hi⟩ := h.loop hroom (k := s.n.toNat - t.hidden.i) (by omega)
  refine ⟨u, ?_, hreads, by omega⟩
  rw [Machine.scalarDecodeFrom, h.frame.n_eq, hu]
  rfl

end

/-- A decode that has all its bytes ends normally after `N` values, under either engine. -/
theorem decodeCommand_of_room {s : State} (hroom : Wire.decodedSize s ≤ s.encLen.toNat) :
    ∃ u, decodeCommand s = .done () (publish u) ∧ DecodeReads s u ∧ u.hidden.i = s.n.toNat := by
  have hstart := startDecode_reads s
  rw [decodeCommand]
  split
  · obtain ⟨t, ht, hreads, hn⟩ :=
      hstart.groupLoop hroom (k := s.n.toNat / 4) rfl (Nat.zero_le _)
    rw [vecDecode, ht, Run.bind_done]
    exact hreads.scalarDecodeFrom hroom hn
  · exact hstart.scalarDecodeFrom hroom (Nat.zero_le _)

/-- What a decode of all its values publishes. -/
theorem DecodeReads.publish {s u : State} (h : DecodeReads s u) (hi : u.hidden.i = s.n.toNat) :
    (publish u).result = BitVec.ofNat 35 (Wire.decodedSize s) ∧
      (publish u).prev = if s.hidden.delta
        then Wire.lastValue (wireValue s) s.prev s.n.toNat else s.prev := by
  have hdelta : u.hidden.delta = s.hidden.delta := by rw [h.frame]
  have hprev : u.prev = s.prev := by rw [h.frame]
  have hcarry := hi ▸ h.carry
  refine ⟨by rw [publish_result, h.dcur, hi], ?_⟩
  rw [publish_prev, hdelta, hprev]
  split
  · next hd => exact hcarry hd
  · rfl

/-- A decode command that has all its bytes completes, with the wire format's values in VAL. -/
theorem exec_decoder_of_room {zig delta : Bool} {s : State} (hs : Admitted s)
    (hroom : Wire.decodedSize s ≤ s.encLen.toNat) :
    ∃ t, exec (.decoder zig delta) s = .next t ∧ Completed t ∧
      t.result = BitVec.ofNat 35 (Wire.decodedSize s) ∧
      t.prev = (if delta
        then Wire.lastValue (Wire.valueAt zig delta (Wire.encBytes s) s.n.toNat s.prev) s.prev
          s.n.toNat
        else s.prev) ∧
      ∀ i < s.n.toNat,
        Memory.read t.val i = Wire.valueAt zig delta (Wire.encBytes s) s.n.toNat s.prev i := by
  obtain ⟨u, hu, hreads, hi⟩ := decodeCommand_of_room (s := atIssue (.decoder zig delta) s) hroom
  obtain ⟨hresult, hprev⟩ := hreads.publish hi
  have hvalue : wireValue (atIssue (.decoder zig delta) s) =
      Wire.valueAt zig delta (Wire.encBytes s) s.n.toNat s.prev := by
    funext i
    rw [wireValue, atIssue_decoder_zig, atIssue_decoder_delta]; rfl
  rw [hvalue, atIssue_decoder_delta] at hprev
  refine ⟨_, (exec_decoder_of_admitted hs).trans (congrArg finish hu), completed_complete _,
    hresult, hprev, fun i hlt => ?_⟩
  rw [← hvalue]
  exact hreads.values i (hi.symm ▸ hlt)

end Sys2Proof.Machine
end

section
/-! PROOFS. Family 42_scalar_operations.md: decoding an encoding restores the values
(42_scalar_operations.md R112). -/

namespace Sys2Proof.Machine

open Sys2Proof.Safety

/-- The last of `n` values is one of them, or the carry. -/
theorem lastValue_congr {val val' : Nat → Word} {n : Nat} (prev : Word)
    (h : ∀ i < n, val' i = val i) : Wire.lastValue val' prev n = Wire.lastValue val prev n := by
  cases n with
  | zero => rfl
  | succ n => exact h n (Nat.lt_succ_self n)

/-- A decode command on a buffer that holds an encoding made under the same options, `N` and `PREV`
restores what was encoded. -/
theorem exec_decoder_of_holdsEncoding {zig delta : Bool} {u : State} {val : Nat → Word}
    (hu : Admitted u)
    (hbytes : HoldsEncoding zig delta val u.prev u.n.toNat u.n.toNat (Memory.read u.enc) u.enc)
    (hlen : Wire.encodedOffset zig delta val u.prev u.n.toNat u.n.toNat ≤ u.encLen.toNat) :
    ∃ r, exec (.decoder zig delta) u = .next r ∧ Completed r ∧
      r.result = BitVec.ofNat 35 (Wire.encodedOffset zig delta val u.prev u.n.toNat u.n.toNat) ∧
      r.prev = (if delta then Wire.lastValue val u.prev u.n.toNat else u.prev) ∧
      ∀ i < u.n.toNat, Memory.read r.val i = val i := by
  have hsize : Wire.decodedSize u = _ := hbytes.offsetAt_eq le_rfl
  obtain ⟨r, hr, hdone, hresult, hprev, hval⟩ :=
    exec_decoder_of_room (zig := zig) (delta := delta) hu (hsize.trans_le hlen)
  refine ⟨r, hr, hdone, hsize ▸ hresult, ?_, fun i hi => (hval i hi).trans (hbytes.valueAt_eq hi)⟩
  rw [hprev, lastValue_congr u.prev fun i hi => hbytes.valueAt_eq hi]

/-- Settles O20: the encode leaves a buffer that holds the encoding; the decode reads the wire format's
values from it, and these are the values encoded. -/
theorem encodeThenDecodeRestores : Obligations.EncodeThenDecodeRestores := by
  unfold Obligations.EncodeThenDecodeRestores
  intro zig delta s hs hcapacity
  have hroom := (encodedSize_le zig delta s).trans hcapacity
  obtain ⟨t, ht, hexec⟩ := exec_encoder_of_room ⟨hs, fun _ => hcapacity⟩ hroom
  have hresult := encodeSeq_atIssue_result ht
  have hprev := encodeSeq_prev ht
  have hbytes := encodeSeq_holdsEncoding ht
  rw [atIssue_encoder_delta] at hprev
  rw [atIssue_encoder_zig, atIssue_encoder_delta] at hbytes
  refine ⟨_, hexec, completed_complete t, fun u hu hn hup hlen hagree => ?_⟩
  rw [hresult, toNat_ofNat_of_le_encLen hroom] at hlen hagree
  obtain ⟨r, hr, hdone, hrresult, hrprev, hrval⟩ :=
    exec_decoder_of_holdsEncoding (zig := zig) (delta := delta) (val := Wire.valWords s) hu
      (hn ▸ hup ▸ hbytes.of_agree hagree) (hn ▸ hup ▸ hlen)
  rw [hn, hup] at hrresult hrprev
  rw [hn] at hrval
  exact ⟨r, hr, hdone, hrresult.trans hresult.symm, hrprev.trans hprev.symm, hrval⟩

end Sys2Proof.Machine
end

section
/-! PROOFS. Family 43_vector_decode.md: the tables of the vector engine and its lanes
(43_vector_decode.md R120, R121, R123, R125). -/

namespace Sys2Proof.Machine

/-! ### The tables -/

/-- The code of slot `j` is the bit field of 30_encoding.md R51. -/
theorem slotCode_eq_extractLsb' (cb : Byte) (j : Nat) : slotCode cb j = cb.extractLsb' (2 * j) 2 := by
  apply BitVec.eq_of_toNat_eq
  simp [slotCode]

/-- Settles O42: each width is the code's bit field plus 1; a code is at most 3. -/
theorem byteCountTable : Obligations.ByteCountTable := by
  unfold Obligations.ByteCountTable
  intro cb
  have hcount : byteCount cb = 4 + (cb.extractLsb' 0 2).toNat + (cb.extractLsb' 2 2).toNat +
      (cb.extractLsb' 4 2).toNat + (cb.extractLsb' 6 2).toNat := by
    simp only [byteCount, slotCode_eq_extractLsb', Nat.mul_zero, Nat.mul_one, Nat.reduceMul]
    omega
  exact ⟨hcount, by omega, byteCount_le cb⟩

/-- A slot starts behind the widths of the slots before it. -/
theorem slotOffset_eq_sum (cb : Byte) (j : Nat) :
    slotOffset cb j = ∑ k ∈ Finset.range j, ((slotCode cb k).toNat + 1) := by
  induction j with
  | zero => rfl
  | succ j ih => rw [slotOffset, ih, Finset.sum_range_succ]

/-- Entry `b` of lane `j` of a row: byte `b` of slot `j`, if the slot has it. -/
theorem shuffleMask_lane (cb : Byte) (j : Nat) {b : Nat} (hb : b < 4) :
    shuffleMask cb (4 * j + b) =
      if b < (slotCode cb j).toNat + 1 then some (slotOffset cb j + b) else none := by
  rw [shuffleMask, show (4 * j + b) % 4 = b by omega, show (4 * j + b) / 4 = j by omega]

/-- Keeping the first `w` of the four entries of a lane. -/
theorem filterMap_range_four (f : Nat → Nat) {w : Nat} (hw : w ≤ 4) :
    (List.range 4).filterMap (fun b => if b < w then some (f b) else none) =
      (List.range w).map f := by
  interval_cases w <;> rfl

/-- The bytes lane `j` takes are those of slot `j`, in order. -/
theorem filterMap_shuffleMask_lane (cb : Byte) (j : Nat) :
    (List.range 4).filterMap (fun b => shuffleMask cb (4 * j + b)) =
      (List.range ((slotCode cb j).toNat + 1)).map (slotOffset cb j + ·) := by
  rw [← filterMap_range_four _ (Nat.succ_le_succ (slotCode_le cb j))]
  exact List.filterMap_congr fun b hb => shuffleMask_lane cb j (List.mem_range.1 hb)

/-- The first `j` lanes take the bytes of the first `j` slots, each once and in order. -/
theorem filterMap_shuffleMask (cb : Byte) (j : Nat) :
    (List.range (4 * j)).filterMap (shuffleMask cb) = List.range (slotOffset cb j) := by
  induction j with
  | zero => rfl
  | succ j ih =>
    rw [Nat.mul_succ, List.range_add, List.filterMap_append, ih, List.filterMap_map, slotOffset,
      List.range_add, ← filterMap_shuffleMask_lane]
    rfl

/-- An entry that is not the sentinel points into its slot, so within the window. -/
theorem shuffleMask_lt {cb : Byte} {p k : Nat} (hp : p < 16) (h : shuffleMask cb p = some k) :
    k < 16 := by
  have hend := slotOffset_le cb (p / 4 + 1)
  rw [slotOffset] at hend
  rw [shuffleMask, Option.ite_none_right_eq_some] at h
  obtain ⟨hb, hk⟩ := h
  rw [Option.some.injEq] at hk
  omega

/-- Settles O43: a row lane by lane; four lanes take the bytes of four slots. -/
theorem shuffleMaskTable : Obligations.ShuffleMaskTable := by
  unfold Obligations.ShuffleMaskTable
  refine ⟨fun cb j b _ hb => ?_, fun cb => ?_, fun cb p k hp h => shuffleMask_lt hp h⟩
  · simp only [shuffleMask_lane cb j hb, slotOffset_eq_sum, slotCode_eq_extractLsb']
  · rw [byteCount_eq_slotOffset]
    exact filterMap_shuffleMask cb 4

/-! ### The lanes -/

/-- Settles O45, by the closed form of the four lanes. -/
theorem prefixSumIsTheRunningSum : Obligations.PrefixSumIsTheRunningSum := by
  unfold Obligations.PrefixSumIsTheRunningSum
  intro carry v
  rw [prefixSum_eq]
  exact ⟨rfl, rfl, rfl, rfl⟩

/-- The state with the data cursor at slot `j` of the group whose elements start at `dcur`. -/
def atSlot (cb : Byte) (j : Nat) (s : State) : State :=
  { s with hidden := { s.hidden with dcur := s.hidden.dcur + slotOffset cb j } }

/-- The data get of slot `j` returns lane `j` and leaves the cursor at the next slot. -/
theorem dataGet_atSlot {s : State} (cb : Byte) {j : Nat} (hj : j < 4)
    (hwindow : s.hidden.dcur + 16 ≤ s.encLen.toNat) :
    dataGet ((slotCode cb j).toNat + 1) (atSlot cb j s) =
      .done (permuteLane (BitVec.ofNat 128 (Memory.readLE s.enc s.hidden.dcur 16))
        (shuffleMask cb) j) (atSlot cb (j + 1) s) := by
  have hend := slotOffset_le cb (j + 1)
  rw [slotOffset] at hend
  have hin : (atSlot cb j s).hidden.dcur + ((slotCode cb j).toNat + 1) ≤ s.encLen.toNat := by
    simp only [atSlot]
    omega
  refine dataGet_eq_done.2 ⟨hin, permuteLane_shuffleMask s.enc s.hidden.dcur cb hj, ?_⟩
  simp only [atSlot, slotOffset, Nat.add_assoc]

/-- Settles O44: the four data gets, slot by slot. -/
theorem permuteAgreesWithDataGet : Obligations.PermuteAgreesWithDataGet := by
  unfold Obligations.PermuteAgreesWithDataGet
  intro s cb hwindow
  refine ⟨atSlot cb 1 s, atSlot cb 2 s, atSlot cb 3 s, atSlot cb 4 s,
    dataGet_atSlot cb (j := 0) (by decide) hwindow, dataGet_atSlot cb (by decide) hwindow,
    dataGet_atSlot cb (by decide) hwindow, dataGet_atSlot cb (by decide) hwindow, ?_⟩
  rw [byteCount_eq_slotOffset]
  rfl

end Sys2Proof.Machine
end

section
/-! PROOFS. Family 43_vector_decode.md: the group loop ends at its failed guard, at the start of a group
(43_vector_decode.md R127, R128). -/

namespace Sys2Proof.Machine

/-- At the start of a group the control cursor counts the groups before it. -/
theorem DecodeCounters.ccur_of_group_start {n : Nat} {h : Hidden} (hc : DecodeCounters n h)
    (hi : h.i % 4 = 0) : h.ccur = h.i / 4 := by
  have hccur := hc.1
  unfold ceil4 at hccur
  omega

/-- Under the guard the control byte of the group is in bounds: it lies before the data. -/
theorem DecodeCounters.ccur_lt_encLen {s : State} (hc : DecodeCounters s.n.toNat s.hidden)
    (hi : s.hidden.i % 4 = 0) (hguard : vecGuard s = true) : s.hidden.ccur < s.encLen.toNat := by
  obtain ⟨hwindow, hn⟩ := vecGuard_eq_true.1 hguard
  have hctl := div_lt_ceil4 (show s.hidden.i < s.n.toNat by omega)
  have hdata := hc.2.1
  have hccur := hc.ccur_of_group_start hi
  omega

/-- How a decode stands at the start of a group. -/
structure AtGroupStart (s : State) : Prop where
  counters : DecodeCounters s.n.toNat s.hidden
  aligned : s.hidden.i % 4 = 0
  i_le : s.hidden.i ≤ s.n.toNat

theorem startDecode_atGroupStart (s : State) : AtGroupStart (startDecode s) :=
  ⟨startDecode_counters s, rfl, Nat.zero_le _⟩

/-- Under the guard a group step ends normally, at the start of the next group. -/
theorem AtGroupStart.groupStep {s : State} (h : AtGroupStart s) (hguard : vecGuard s = true) :
    ∃ t, groupStep s = .done () t ∧ AtGroupStart t ∧ t.n = s.n ∧ t.hidden.i = s.hidden.i + 4 := by
  obtain ⟨hwindow, hn⟩ := vecGuard_eq_true.1 hguard
  have haligned := h.aligned
  obtain ⟨t, ht⟩ : ∃ t, Machine.groupStep s = .done () t :=
    ⟨_, groupStep_eq_done.2 ⟨h.counters.ccur_lt_encLen haligned hguard, hwindow, rfl⟩⟩
  obtain ⟨hi, -⟩ := groupStep_counters ht
  have hnt := (groupStep_frame ht).n_eq
  refine ⟨t, ht, ⟨?_, by omega, by rw [hnt]; omega⟩, hnt, hi⟩
  rw [hnt]
  exact groupStep_keeps_counters ht h.counters

/-- With enough steps allowed for the values left, the group loop ends because its guard has failed. -/
theorem AtGroupStart.groupLoop {k : Nat} {s : State} (h : AtGroupStart s)
    (hk : s.n.toNat < s.hidden.i + 4 * (k + 1)) :
    ∃ t, groupLoop k s = .done () t ∧ AtGroupStart t ∧ vecGuard t = false := by
  induction k generalizing s with
  | zero =>
    refine ⟨s, rfl, h, Bool.eq_false_iff.2 fun hguard => ?_⟩
    obtain ⟨-, hn⟩ := vecGuard_eq_true.1 hguard
    omega
  | succ k ih =>
    rw [Machine.groupLoop]
    split
    · next hguard =>
      obtain ⟨p, hp, hstart, hn, hi⟩ := h.groupStep hguard
      obtain ⟨t, ht, hend⟩ := ih hstart (by rw [hn]; omega)
      exact ⟨t, Run.bind_eq_done.2 ⟨(), p, hp, ht⟩, hend⟩
    · next hguard => exact ⟨s, rfl, h, Bool.eq_false_iff.2 hguard⟩

/-- Without the guard no group step is taken. -/
theorem groupLoop_of_not_vecGuard (k : Nat) {s : State} (h : vecGuard s = false) :
    groupLoop k s = .done () s := by
  cases k with
  | zero => rfl
  | succ k => rw [groupLoop, h]; rfl

/-- Settles O22: the loop ends at its failed guard, since `N div 4` steps use up the full groups, and the
counters are those of the start of a group. -/
theorem groupLoopHandsOverAtTheGuard : Obligations.GroupLoopHandsOverAtTheGuard := by
  unfold Obligations.GroupLoopHandsOverAtTheGuard
  intro s
  obtain ⟨t, ht, hstart, hguard⟩ := (startDecode_atGroupStart s).groupLoop (k := s.n.toNat / 4)
    (by rw [startDecode_n, startDecode_hidden_i]; omega)
  have hframe := groupLoop_frame ht
  have hn : t.n = s.n := hframe.n_eq
  refine ⟨t, ht, hguard, hstart.aligned, hstart.counters.ccur_of_group_start hstart.aligned,
    hn ▸ hstart.i_le, ?_, by rw [hframe]; rfl, by rw [hframe]; rfl, fun hall => hall ▸ hstart.aligned,
    fun hshort => ?_⟩
  · rw [vecDecode, ht, Run.bind_done]
  · have hfails : vecGuard (startDecode s) = false := Bool.eq_false_iff.2 fun hholds => by
      obtain ⟨hwindow, -⟩ := vecGuard_eq_true.1 hholds
      exact absurd hwindow (Nat.not_le.2 hshort)
    rw [groupLoop_of_not_vecGuard _ hfails] at ht
    cases ht
    rfl

end Sys2Proof.Machine
end

section
/-! PROOFS. Family 43_vector_decode.md: the two engines end alike (43_vector_decode.md R129). -/

namespace Sys2Proof.Machine

/-! ### Ends alike but for the hidden state -/

/-- Two pieces of an operation end alike for the host. -/
abbrev Run.SameEnd (r r' : Run Unit) : Prop := Run.Alike Wire.SameButHidden Wire.SameButHidden r r'

theorem sameButHidden_trans {s t u : State} (h : Wire.SameButHidden s t)
    (h' : Wire.SameButHidden t u) : Wire.SameButHidden s u := by
  unfold Wire.SameButHidden at *
  rw [h, h']

theorem Run.SameEnd.refl (r : Run Unit) : Run.SameEnd r r := by
  cases r with
  | done a s => exact .done a rfl
  | raised c info s => exact .raised c info rfl

theorem Run.SameEnd.trans {r r' r'' : Run Unit} (h : Run.SameEnd r r') (h' : Run.SameEnd r' r'') :
    Run.SameEnd r r'' := by
  cases h with
  | done a h => cases h' with | done _ h' => exact .done a (sameButHidden_trans h h')
  | raised c info h => cases h' with | raised _ _ h' => exact .raised c info (sameButHidden_trans h h')

/-! ### What the scalar engine does not read -/

/-- The state with the registers of the vector engine, `acc` and the control byte held as in `h`. -/
def withUnread (h : Hidden) (s : State) : State :=
  { s with hidden := { s.hidden with
      acc := h.acc, cb := h.cb, window := h.window, lanes := h.lanes } }

/-- `s` is `t` but for what the scalar decode does not read: the registers of the vector engine, `acc`, and
the control byte held where it is spent; the byte `held` gives is the same. -/
structure ScalarSame (held : State → Byte) (s t : State) : Prop where
  eq : s = withUnread s.hidden t
  held : held s = held t

theorem ScalarSame.sameButHidden {held : State → Byte} {s t : State} (h : ScalarSame held s t) :
    Wire.SameButHidden s t := by
  rw [h.eq]; rfl

theorem ScalarSame.exists_eq {held : State → Byte} {s t : State} (h : ScalarSame held s t) :
    ∃ g, s = withUnread g t :=
  ⟨_, h.eq⟩

theorem ctlGet_scalarSame {s t : State} (h : ScalarSame ctlByte s t) :
    Run.Alike Wire.SameButHidden (ScalarSame fun p => p.hidden.cb) (ctlGet s) (ctlGet t) := by
  have hbyte := h.held
  obtain ⟨g, rfl⟩ := h.exists_eq
  by_cases hin : t.hidden.i % 4 = 0 → t.hidden.ccur < t.encLen.toNat
  · rw [ctlGet_eq_done.2 ⟨hin, rfl, rfl⟩,
      (ctlGet_eq_done (s := withUnread g t)).2 ⟨hin, rfl, rfl⟩, hbyte]
    exact .done _ ⟨rfl, rfl⟩
  · obtain ⟨hi, hout⟩ := Classical.not_imp.1 hin
    rw [ctlGet_eq_raised.2 ⟨hi, Nat.not_lt.1 hout, rfl, rfl, rfl⟩,
      (ctlGet_eq_raised (s := withUnread g t)).2 ⟨hi, Nat.not_lt.1 hout, rfl, rfl, rfl⟩]
    exact .raised _ _ rfl

theorem dataGet_scalarSame {s t : State} (k : Nat) (h : ScalarSame (fun p => p.hidden.cb) s t) :
    Run.Alike Wire.SameButHidden (ScalarSame fun p => p.hidden.cb) (dataGet k s) (dataGet k t) := by
  have hbyte := h.held
  obtain ⟨g, rfl⟩ := h.exists_eq
  by_cases hin : t.hidden.dcur + k ≤ t.encLen.toNat
  · rw [dataGet_eq_done.2 ⟨hin, rfl, rfl⟩,
      (dataGet_eq_done (s := withUnread g t)).2 ⟨hin, rfl, rfl⟩]
    exact .done _ ⟨rfl, hbyte⟩
  · have hout := Nat.not_le.1 hin
    rw [dataGet_eq_raised.2 ⟨hout, rfl, rfl, rfl⟩,
      (dataGet_eq_raised (s := withUnread g t)).2 ⟨hout, rfl, rfl, rfl⟩]
    exact .raised _ _ rfl

/-- The end of an iteration keeps the control byte and reads no register of the vector engine. -/
theorem ScalarSame.next {s t : State} (u : Word) (h : ScalarSame (fun p => p.hidden.cb) s t) :
    ScalarSame ctlByte (nextIndex (storeValue (decodeTransform u s).1 (decodeTransform u s).2))
      (nextIndex (storeValue (decodeTransform u t).1 (decodeTransform u t).2)) := by
  have hbyte := h.held
  obtain ⟨g, rfl⟩ := h.exists_eq
  have hvalue : (decodeTransform u (withUnread g t)).1 = (decodeTransform u t).1 := by
    rw [decodeTransform_fst, decodeTransform_fst]; rfl
  rw [decodeTransform_snd, decodeTransform_snd, hvalue]
  exact ⟨rfl, congrArg (fun b => if (t.hidden.i + 1) % 4 = 0
    then Memory.read t.enc t.hidden.ccur else b) hbyte⟩

theorem decodeOne_scalarSame {s t : State} (h : ScalarSame ctlByte s t) :
    Run.Alike Wire.SameButHidden (ScalarSame ctlByte) (decodeOne s) (decodeOne t) :=
  (ctlGet_scalarSame h).bind fun _ _ _ _ hq =>
    (dataGet_scalarSame _ hq).bind fun u _ _ _ hs => .done () (hs.next u)

theorem decodeLoop_scalarSame {s t : State} (k : Nat) (h : ScalarSame ctlByte s t) :
    Run.Alike Wire.SameButHidden (ScalarSame ctlByte) (decodeLoop k s) (decodeLoop k t) := by
  induction k generalizing s t with
  | zero => exact .done () h
  | succ k ih => exact (decodeOne_scalarSame h).bind fun _ _ _ _ hq => ih hq

theorem ScalarSame.publish {held : State → Byte} {s t : State} (h : ScalarSame held s t) :
    Wire.SameButHidden (publish s) (publish t) := by
  obtain ⟨g, rfl⟩ := h.exists_eq
  rfl

theorem scalarDecodeFrom_scalarSame {s t : State} (h : ScalarSame ctlByte s t) :
    Run.SameEnd (scalarDecodeFrom s) (scalarDecodeFrom t) := by
  have hcount : s.n.toNat - s.hidden.i = t.n.toNat - t.hidden.i := by rw [h.eq]; rfl
  rw [scalarDecodeFrom, scalarDecodeFrom, hcount]
  exact (decodeLoop_scalarSame _ h).bind fun _ _ _ _ hq => .done () hq.publish

/-! ### The group loop against the scalar engine -/

/-- The scalar engine goes on from where its first `j` iterations end. -/
theorem scalarDecodeFrom_of_decodeLoop {j : Nat} {s q : State} (hq : decodeLoop j s = .done () q)
    (hi : q.hidden.i = s.hidden.i + j) (hj : s.hidden.i + j ≤ s.n.toNat) :
    scalarDecodeFrom s = scalarDecodeFrom q := by
  have hcount : s.n.toNat - s.hidden.i = j + (q.n.toNat - q.hidden.i) := by
    rw [(decodeLoop_frame hq).n_eq]
    omega
  rw [scalarDecodeFrom, scalarDecodeFrom, hcount, decodeLoop_add, hq, Run.bind_done]

/-- Two states of one decode with the same counters, carry and values differ only in what the scalar
decode does not read. -/
theorem DecodeFrame.eq_withUnread {s t u : State} (ht : DecodeFrame s t) (hu : DecodeFrame s u)
    (hval : t.val = u.val) (hi : t.hidden.i = u.hidden.i) (hccur : t.hidden.ccur = u.hidden.ccur)
    (hdcur : t.hidden.dcur = u.hidden.dcur) (hcarry : t.hidden.carry = u.hidden.carry) :
    t = withUnread t.hidden u := by
  rw [ht, hu]
  simp only [withUnread, hval, hi, hccur, hdcur, hcarry]

/-- A group step puts the scalar engine where four iterations of its own would. -/
theorem AtGroupStart.scalarDecodeFrom_groupStep {s t : State} (h : AtGroupStart s)
    (hguard : vecGuard s = true) (ht : Machine.groupStep s = .done () t) :
    Run.SameEnd (scalarDecodeFrom t) (scalarDecodeFrom s) := by
  obtain ⟨hwindow, hn⟩ := vecGuard_eq_true.1 hguard
  have hctl := h.counters.ccur_lt_encLen h.aligned hguard
  obtain ⟨p, q, hp, hq, hsame, hi, hccur, hdcur, hcarry⟩ :=
    groupStep_eq_decodeLoop_four h.aligned hctl hwindow
  obtain ⟨⟩ := ht.symm.trans hp
  have hit := (groupStep_counters ht).1
  rw [scalarDecodeFrom_of_decodeLoop hq (by omega) hn]
  have heq : t = withUnread t.hidden q := (groupStep_frame ht).eq_withUnread (decodeLoop_frame hq)
    (by rw [hsame]) hi hccur hdcur hcarry
  have haligned : t.hidden.i % 4 = 0 := by rw [hit, Nat.add_mod_right, h.aligned]
  refine scalarDecodeFrom_scalarSame ⟨heq, ?_⟩
  rw [ctlByte, ctlByte, ← hi, if_pos haligned, if_pos haligned, hsame, hccur]

/-- Group steps first or not, the scalar engine ends alike. -/
theorem AtGroupStart.groupLoop_scalarDecodeFrom {k : Nat} {s : State} (h : AtGroupStart s) :
    Run.SameEnd ((Machine.groupLoop k s).bind fun _ t => scalarDecodeFrom t) (scalarDecodeFrom s) := by
  induction k generalizing s with
  | zero => exact .refl _
  | succ k ih =>
    rw [Machine.groupLoop]
    split
    · next hguard =>
      obtain ⟨p, hp, hstart, -⟩ := h.groupStep hguard
      rw [hp, Run.bind_done]
      exact (ih hstart).trans (h.scalarDecodeFrom_groupStep hguard hp)
    · exact .refl _

/-- The scalar engine raises nothing but `EncBounds`. -/
theorem scalarDecodeFrom_raised {s t : State} {c : Cause} {info : Nat}
    (h : scalarDecodeFrom s = .raised c info t) : c = .encBounds := by
  rcases Run.bind_eq_raised.1 h with h | ⟨_, _, _, h⟩
  · exact (decodeLoop_raised h).1
  · cases h

/-- Settles O21: each group step stands for four scalar iterations, and the rest of the decode reads
nothing in which they differ. -/
theorem vectorEngineEqualsScalarEngine : Obligations.VectorEngineEqualsScalarEngine := by
  unfold Obligations.VectorEngineEqualsScalarEngine
  refine ⟨fun s => ?_, fun s hguard hi hctl => ?_⟩
  · have hend : Run.SameEnd (vecDecode s) (scalarDecodeFrom (startDecode s)) :=
      (startDecode_atGroupStart s).groupLoop_scalarDecodeFrom
    generalize hv : vecDecode s = r, hu : scalarDecodeFrom (startDecode s) = r' at hend
    cases hend with
    | done _ hsame => exact .inl ⟨_, _, rfl, rfl, hsame⟩
    | raised c info hsame =>
      obtain rfl := scalarDecodeFrom_raised hu
      exact .inr ⟨info, _, _, rfl, rfl, hsame⟩
  · exact groupStep_eq_decodeLoop_four hi hctl (vecGuard_eq_true.1 hguard).1

end Sys2Proof.Machine
end

section
/-! PROOFS. Family 44_dispatch_sizing.md: the sizing command (44_dispatch_sizing.md R144) and the size it
gives (R143). -/

namespace Sys2Proof.Machine

open Sys2Proof.Safety

/-! ### `MaxEncodedSize` -/

/-- The size of a 32-bit count of values is held whole by `RESULT` (10_state.md R21). -/
theorem maxEncodedSize_lt {n : Nat} (h : n < 2 ^ 32) : maxEncodedSize n < 2 ^ 35 := by
  unfold maxEncodedSize ceil4; omega

theorem maxEncodedSize_strictMono : StrictMono maxEncodedSize := fun _ _ h =>
  Nat.add_lt_add_of_le_of_lt (ceil4_mono h.le) (by omega)

/-- Numbers take four bytes each exactly when none takes fewer. -/
theorem sum_width_eq_iff (f : Nat → Word) (n : Nat) :
    ∑ i ∈ Finset.range n, width (f i) = 4 * n ↔ ∀ i < n, width (f i) = 4 := by
  have hsum := Finset.sum_eq_sum_iff_of_le (s := Finset.range n) fun i _ => width_le (f i)
  simpa [mul_comm] using hsum

theorem encodedOffset_le (zig delta : Bool) (val : Nat → Word) (prev : Word) (n : Nat) :
    Wire.encodedOffset zig delta val prev n n ≤ maxEncodedSize n := by
  rw [encodedOffset_eq_sum]
  exact Nat.add_le_add_left (sum_width_le _ n) _

theorem encodedOffset_eq_iff (zig delta : Bool) (val : Nat → Word) (prev : Word) (n : Nat) :
    Wire.encodedOffset zig delta val prev n n = maxEncodedSize n ↔
      ∀ i < n, width (Wire.toStore zig delta val prev i) = 4 := by
  rw [encodedOffset_eq_sum, maxEncodedSize, Nat.add_left_cancel_iff, sum_width_eq_iff]

/-- Settles O31: the size of an encoding is the control bytes and a sum of widths, each at most 4. -/
theorem maxEncodedSizeIsTheBound : Obligations.MaxEncodedSizeIsTheBound := by
  unfold Obligations.MaxEncodedSizeIsTheBound
  exact ⟨fun _ => rfl, rfl, rfl, rfl, rfl, rfl, rfl, rfl, rfl, rfl, rfl,
    fun _ h => maxEncodedSize_lt h, fun _ _ h => maxEncodedSize_strictMono h,
    fun zig delta val prev n =>
      ⟨encodedOffset_le zig delta val prev n, encodedOffset_eq_iff zig delta val prev n⟩⟩

/-! ### `SVB.SIZE` -/

/-- An admitted sizing command is its body with the options latched. -/
theorem exec_size_of_admitted {s : State} (h : Admitted s) :
    exec .size s = finish (sizeCommand (atIssue .size s)) := by
  obtain ⟨hissue, hn⟩ := h
  rw [exec_eq_execCode, execCode_of_issuable hissue]
  exact congrArg finish (runCommand_size (s := { s with status := Status.issued s.status }) hn)

/-- A command with `N` past `N_MAX` ends as a fault at issue does, with its own code in `FINFO`
(60_exceptions.md R152). -/
theorem exec_of_nMax_lt (i : Instr) {s : State} (hissue : Issuable s)
    (hn : s.cfg.nMax < s.n.toNat) :
    exec i s = .next (raiseFault .illegalCommand (encode i).toNat
      { s with status := Status.issued s.status }) := by
  rw [exec_eq_execCode, execCode_of_issuable hissue]
  exact congrArg finish
    (runCommand_of_nMax_lt (i := i) (s := { s with status := Status.issued s.status }) hn)

/-- Settles O16: the body writes `RESULT` alone, and `N` past `N_MAX` is turned away before it. -/
theorem sizeCommandResult : Obligations.SizeCommandResult := by
  unfold Obligations.SizeCommandResult
  intro s
  refine ⟨fun hadm => ⟨(atIssue .size s).hidden, ?_, ?_⟩, fun hissue hn => ?_⟩
  · rw [exec_size_of_admitted hadm]
    simp only [sizeCommand, finish, complete, atIssue, latchOptions, Status.completed_issued]
  · rw [BitVec.toNat_ofNat, Nat.mod_eq_of_lt (maxEncodedSize_lt s.n.isLt)]
    rfl
  · exact ⟨_, exec_of_nMax_lt .size hissue hn, Status.state_faulted .., Status.cause_faulted ..,
      toNat_finfo_code _⟩

end Sys2Proof.Machine
end

section
/-! PROOFS. Family 44_dispatch_sizing.md: what a command answers does not depend on the vector engine
being there (44_dispatch_sizing.md R141). -/

namespace Sys2Proof.Machine

/-! ### Pieces that do not read the setting -/

/-- What the engine choice is made from (44_dispatch_sizing.md R140): the input, the parameters and the
sample latched at issue. -/
structure Setting where
  avail : Bool
  cfg : Config
  vec : Bool

/-- The state under another setting. -/
def withSetting (e : Setting) (s : State) : State :=
  { s with vecAvail := e.avail, cfg := e.cfg, hidden := { s.hidden with vec := e.vec } }

@[simp] theorem withSetting_hidden_dir (e : Setting) (s : State) :
    (withSetting e s).hidden.dir = s.hidden.dir := rfl

/-- The same end, with the state it leaves changed by `w`. -/
def Run.mapState {α : Type} (w : State → State) (r : Run α) : Run α :=
  match r with
  | .done a s => .done a (w s)
  | .raised c info s => .raised c info (w s)

/-- A piece of an operation that neither reads nor writes the setting. -/
def IgnoresSetting {α : Type} (f : State → Run α) : Prop :=
  ∀ (e : Setting) (s : State), f (withSetting e s) = (f s).mapState (withSetting e)

theorem IgnoresSetting.bind {α β : Type} {f : State → Run α} {g : α → State → Run β}
    (hf : IgnoresSetting f) (hg : ∀ a, IgnoresSetting (g a)) :
    IgnoresSetting fun s => (f s).bind g := by
  intro e s
  dsimp only
  rw [hf]
  cases f s with
  | done a t => exact hg a e t
  | raised c info t => rfl

theorem IgnoresSetting.ite {α : Type} {p : State → Prop} [DecidablePred p] {f g : State → Run α}
    (hp : ∀ e s, p (withSetting e s) = p s) (hf : IgnoresSetting f) (hg : IgnoresSetting g) :
    IgnoresSetting fun s => if p s then f s else g s := by
  intro e s
  simp only [hp]
  split
  · exact hf e s
  · exact hg e s

/-! ### The streams -/

theorem memRead_ignoresSetting (a k : Nat) : IgnoresSetting (memRead a k) :=
  .ite (fun _ _ => rfl) (fun _ _ => rfl) (fun _ _ => rfl)

theorem memWrite_ignoresSetting (a k : Nat) (v : Word) : IgnoresSetting (memWrite a k v) :=
  .ite (fun _ _ => rfl) (fun _ _ => rfl) (fun _ _ => rfl)

theorem dataPut_ignoresSetting (u : Word) (k : Nat) : IgnoresSetting (dataPut u k) :=
  .bind (fun e s => memWrite_ignoresSetting s.hidden.dcur k u e s) fun _ _ _ => rfl

theorem dataGet_ignoresSetting (k : Nat) : IgnoresSetting (dataGet k) :=
  .bind (fun e s => memRead_ignoresSetting s.hidden.dcur k e s) fun _ _ _ => rfl

theorem ctlPut_ignoresSetting (c : WidthCode) : IgnoresSetting (ctlPut c) :=
  .ite (fun _ _ => rfl)
    (.bind (fun e s => memWrite_ignoresSetting s.hidden.ccur 1 _ e
      { s with hidden := { s.hidden with acc := accWith c s } }) fun _ _ _ => rfl)
    (fun _ _ => rfl)

theorem ctlFlush_ignoresSetting : IgnoresSetting ctlFlush :=
  .ite (fun _ _ => rfl)
    (.bind (fun e s => memWrite_ignoresSetting s.hidden.ccur 1 _ e s) fun _ _ _ => rfl)
    (fun _ _ => rfl)

theorem ctlFetch_ignoresSetting : IgnoresSetting ctlFetch :=
  .ite (fun _ _ => rfl)
    (.bind (fun e s => memRead_ignoresSetting s.hidden.ccur 1 e s) fun _ _ _ => rfl)
    (fun _ _ => rfl)

theorem ctlGet_ignoresSetting : IgnoresSetting ctlGet :=
  ctlFetch_ignoresSetting.bind fun _ _ _ => rfl

/-! ### The scalar engine -/

theorem encodeTransform_withSetting (e : Setting) (x : Word) (s : State) :
    encodeTransform x (withSetting e s) =
      ((encodeTransform x s).1, withSetting e (encodeTransform x s).2) := by
  unfold encodeTransform withSetting
  cases s.hidden.delta <;> rfl

theorem decodeTransform_withSetting (e : Setting) (u : Word) (s : State) :
    decodeTransform u (withSetting e s) =
      ((decodeTransform u s).1, withSetting e (decodeTransform u s).2) := by
  unfold decodeTransform withSetting
  cases s.hidden.delta <;> rfl

theorem encodeOne_ignoresSetting : IgnoresSetting encodeOne := by
  intro e s
  unfold encodeOne
  rw [encodeTransform_withSetting]
  exact ((dataPut_ignoresSetting _ _).bind fun _ =>
    (ctlPut_ignoresSetting _).bind fun _ _ _ => rfl) e _

theorem decodeOne_ignoresSetting : IgnoresSetting decodeOne :=
  ctlGet_ignoresSetting.bind fun c => (dataGet_ignoresSetting (c.toNat + 1)).bind fun u e t => by
    rw [decodeTransform_withSetting]; rfl

theorem encodeLoop_ignoresSetting (k : Nat) : IgnoresSetting (encodeLoop k) := by
  induction k with
  | zero => exact fun _ _ => rfl
  | succ k ih => exact encodeOne_ignoresSetting.bind fun _ => ih

theorem decodeLoop_ignoresSetting (k : Nat) : IgnoresSetting (decodeLoop k) := by
  induction k with
  | zero => exact fun _ _ => rfl
  | succ k ih => exact decodeOne_ignoresSetting.bind fun _ => ih

theorem encodeSeq_ignoresSetting : IgnoresSetting encodeSeq := fun e s =>
  ((encodeLoop_ignoresSetting s.n.toNat).bind fun _ =>
    ctlFlush_ignoresSetting.bind fun _ _ _ => rfl) e (startEncode s)

theorem scalarDecodeFrom_ignoresSetting : IgnoresSetting scalarDecodeFrom := fun e s =>
  ((decodeLoop_ignoresSetting (s.n.toNat - s.hidden.i)).bind fun _ _ _ => rfl) e s

/-! ### The vector engine -/

/-- Whichever engine a decode takes, it ends as the scalar one does (43_vector_decode.md R129). -/
theorem decodeCommand_sameEnd (s : State) :
    Run.SameEnd (decodeCommand s) (scalarDecodeFrom (startDecode s)) := by
  unfold decodeCommand
  split
  · exact (startDecode_atGroupStart s).groupLoop_scalarDecodeFrom
  · exact .refl _

theorem scalarDecodeFrom_raised_dir {s t : State} {c : Cause} {info : Nat}
    (h : scalarDecodeFrom s = .raised c info t) : t.hidden.dir = s.hidden.dir := by
  rcases Run.bind_eq_raised.1 h with h | ⟨_, _, _, h⟩
  · rw [(decodeLoop_raised h).2]
  · cases h

/-- A decode that faults still has its direction latched. -/
theorem decodeCommand_raised_dir {s t : State} {c : Cause} {info : Nat}
    (h : decodeCommand s = .raised c info t) : t.hidden.dir = s.hidden.dir := by
  unfold decodeCommand at h
  split at h
  · rcases Run.bind_eq_raised.1 h with h | ⟨_, p, hp, h⟩
    · rw [(groupLoop_raised h).2, startDecode_hidden_dir]
    · rw [scalarDecodeFrom_raised_dir h, groupLoop_frame hp, startDecode_hidden_dir]
  · exact scalarDecodeFrom_raised_dir (s := startDecode s) h

/-! ### Ends alike but for the setting and the hidden state -/

/-- `t` is what a host sees of `s`, under another setting. -/
def SameButSetting (e : Setting) (s t : State) : Prop :=
  t = { s with vecAvail := e.avail, cfg := e.cfg, hidden := t.hidden }

theorem SameButSetting.exists_eq {e : Setting} {s t : State} (h : SameButSetting e s t) :
    ∃ g, t = { s with vecAvail := e.avail, cfg := e.cfg, hidden := g } :=
  ⟨_, h⟩

/-- The same, with the direction that a fault reads (60_exceptions.md R157). -/
def SameAtFault (e : Setting) (s t : State) : Prop :=
  SameButSetting e s t ∧ t.hidden.dir = s.hidden.dir

/-- Two runs of a command, the second under another setting, end alike. -/
abbrev Run.SettingAlike (e : Setting) (r r' : Run Unit) : Prop :=
  Run.Alike (SameAtFault e) (SameButSetting e) r r'

theorem SameButSetting.of_sameButHidden {e : Setting} {s s' t : State}
    (hs : Wire.SameButHidden s t) (hs' : Wire.SameButHidden s' (withSetting e t)) :
    SameButSetting e s s' := by
  unfold SameButSetting
  rw [hs, hs']
  rfl

theorem IgnoresSetting.alike {f : State → Run Unit} (hf : IgnoresSetting f) (e : Setting)
    (s : State) : Run.SettingAlike e (f s) (f (withSetting e s)) := by
  rw [hf]
  cases f s with
  | done a t => exact .done a rfl
  | raised c info t => exact .raised c info ⟨rfl, rfl⟩

theorem encodeCommand_of_short {s : State} (hstrict : s.cfg.strictContract = true)
    (hshort : s.encLen.toNat < maxEncodedSize s.n.toNat) :
    encodeCommand s = .raised .contractCheck s.encLen.toNat s :=
  if_pos (by simp [hstrict, hshort])

/-- The contract check reads one parameter; the encode reads nothing of the setting. -/
theorem encodeCommand_settingAlike {e : Setting} {s : State}
    (hstrict : e.cfg.strictContract = s.cfg.strictContract) :
    Run.SettingAlike e (encodeCommand s) (encodeCommand (withSetting e s)) := by
  by_cases hmet : s.cfg.strictContract = true → maxEncodedSize s.n.toNat ≤ s.encLen.toNat
  · rw [encodeCommand_of_contract hmet,
      encodeCommand_of_contract (s := withSetting e s) fun hon => hmet (hstrict.symm.trans hon)]
    exact encodeSeq_ignoresSetting.alike e s
  · obtain ⟨hon, hcap⟩ := Classical.not_imp.1 hmet
    have hshort := Nat.not_le.1 hcap
    rw [encodeCommand_of_short hon hshort,
      encodeCommand_of_short (s := withSetting e s) (hstrict.trans hon) hshort]
    exact .raised _ _ ⟨rfl, rfl⟩

/-- Both decodes end as the scalar engine does, which reads nothing of the setting. -/
theorem decodeCommand_settingAlike (e : Setting) (s : State) :
    Run.SettingAlike e (decodeCommand s) (decodeCommand (withSetting e s)) := by
  have hend := decodeCommand_sameEnd s
  have hend' : Run.SameEnd (decodeCommand (withSetting e s))
      ((scalarDecodeFrom (startDecode s)).mapState (withSetting e)) :=
    scalarDecodeFrom_ignoresSetting e (startDecode s) ▸ decodeCommand_sameEnd _
  generalize scalarDecodeFrom (startDecode s) = r at hend hend'
  generalize hd : decodeCommand s = q, hd' : decodeCommand (withSetting e s) = q' at hend hend'
  cases hend with
  | done a h => cases hend' with | done _ h' => exact .done a (.of_sameButHidden h h')
  | raised c info h =>
    cases hend' with
    | raised _ _ h' =>
      have hdir := (decodeCommand_raised_dir hd').trans (decodeCommand_raised_dir hd).symm
      exact .raised c info ⟨.of_sameButHidden h h', hdir⟩

/-- The body of a command, by the three kinds of command. -/
theorem commandBody_settingAlike {e : Setting} {s : State} (c : OpCode)
    (hstrict : e.cfg.strictContract = s.cfg.strictContract) :
    Run.SettingAlike e (commandBody c s) (commandBody c (withSetting e s)) := by
  rw [commandBody, commandBody, withSetting_hidden_dir]
  split
  · exact .done () rfl
  · split
    · exact decodeCommand_settingAlike e s
    · exact encodeCommand_settingAlike hstrict

/-- A fault reads nothing of the setting, and of the hidden state the direction only. -/
theorem SameAtFault.raiseFault {e : Setting} {s t : State} (h : SameAtFault e s t) (c : Cause)
    (info : Nat) :
    SameButSetting e (Machine.raiseFault c info s) (Machine.raiseFault c info t) := by
  obtain ⟨hsame, hdir⟩ := h
  obtain ⟨g, rfl⟩ := hsame.exists_eq
  cases c with
  | illegalCommand => rfl
  | contractCheck => rfl
  | encBounds =>
    unfold SameButSetting Machine.raiseFault faultedSpaces
    rw [hdir]
    cases s.hidden.dir <;> rfl

theorem Run.SettingAlike.finish {e : Setting} {r r' : Run Unit} (h : Run.SettingAlike e r r') :
    ∃ t u, Machine.finish r = .next t ∧ Machine.finish r' = .next u ∧ SameButSetting e t u := by
  cases h with
  | done _ h => exact ⟨_, _, rfl, rfl, by rw [h]; rfl⟩
  | raised c info h => exact ⟨_, _, rfl, rfl, h.raiseFault c info⟩

/-! ### The command -/

/-- The setting an issue of a command latches (10_state.md R18, 44_dispatch_sizing.md R140). -/
def Setting.sampled (avail built : Bool) (c : Config) : Setting :=
  { avail := avail, cfg := { c with hasVec := built }, vec := built && avail }

/-- The two checks at issue read neither `VEC_AVAIL` nor `HAS_VEC`; the latch samples them. -/
theorem runCommand_settingAlike (avail built : Bool) (c : OpCode) (s : State) :
    Run.SettingAlike (.sampled avail built s.cfg) (runCommand c s)
      (runCommand c { s with vecAvail := avail, cfg := { s.cfg with hasVec := built } }) := by
  unfold runCommand
  split
  · exact .raised _ _ ⟨rfl, rfl⟩
  · dsimp only
    split
    · exact .raised _ _ ⟨rfl, rfl⟩
    · exact commandBody_settingAlike (s := latchOptions c s) c rfl

/-- Settles O24: only the engine choice reads the two inputs, and the two engines end alike. -/
theorem resultsDoNotDependOnVecAvail : Obligations.ResultsDoNotDependOnVecAvail := by
  unfold Obligations.ResultsDoNotDependOnVecAvail
  intro i s avail built
  rw [exec_eq_execCode, exec_eq_execCode]
  by_cases hs : Safety.Issuable s
  · rw [execCode_of_issuable hs, execCode_of_issuable (s := { s with
      vecAvail := avail, cfg := { s.cfg with hasVec := built } }) hs]
    exact (runCommand_settingAlike avail built (encode i)
      { s with status := Status.issued s.status }).finish
  · have hfault := not_not.1 hs
    exact ⟨s, _, if_pos hfault, if_pos hfault, rfl⟩

end Sys2Proof.Machine
end

section
/-! PROOFS. Family 60_exceptions.md: faults at issue (60_exceptions.md R152) and the block in `FAULT`
(R158). -/

namespace Sys2Proof.Machine

open Sys2Proof.Safety

/-! ### A fault at issue -/

/-- A fault the body has not gone past is `issueFault`, whatever the hidden state holds. -/
theorem raiseFault_at_issue {c : Cause} (hc : c ≠ .encBounds) (info : Nat) (s : State) (h : Hidden) :
    raiseFault c info { s with status := Status.issued s.status, hidden := h } =
      { Wire.issueFault c info s with hidden := h } := by
  cases c with
  | encBounds => exact absurd rfl hc
  | illegalCommand | contractCheck => simp only [raiseFault, faultedSpaces, Status.faulted_issued]

theorem raiseFault_illegalCommand_at_issue (info : Nat) (s : State) :
    raiseFault .illegalCommand info { s with status := Status.issued s.status } =
      Wire.issueFault .illegalCommand info s :=
  raiseFault_at_issue (c := .illegalCommand) (by decide) info s s.hidden

/-- Settles O6: both checks raise before the body, and 32 bits hold no `N` above the default `N_MAX`. -/
theorem illegalCommandAtIssue : Obligations.IllegalCommandAtIssue := by
  unfold Obligations.IllegalCommandAtIssue
  refine ⟨fun c s hcode hs => ?_, fun i s hn hs => ?_, fun s hmax => ?_⟩
  · rw [execCode_of_reserved ((reserved_iff_nine_le c).2 hcode) hs,
      raiseFault_illegalCommand_at_issue]
  · rw [exec_of_nMax_lt i hs hn, raiseFault_illegalCommand_at_issue]
  · rw [hmax]
    exact Nat.le_sub_one_of_lt s.n.isLt

/-! ### The block in `FAULT` -/

/-- The frame `Exec(c)` in `FAULT`: no command is issued. -/
theorem execCode_of_fault (c : OpCode) {s : State} (hs : ¬ Issuable s) : execCode c s = .next s :=
  if_pos (not_not.1 hs)

theorem exec_of_fault (i : Instr) {s : State} (hs : ¬ Issuable s) : exec i s = .next s :=
  (exec_eq_execCode i s).trans (execCode_of_fault _ hs)

/-- A code that is not reserved names a command (30_encoding.md R60, R61). -/
theorem exists_decodeCode_of_not_reserved {c : OpCode} (h : ¬ CommandWord.reserved c = true) :
    ∃ i, decodeCode c = .ok i := by
  rw [decodeCode, if_neg h]
  split
  · exact ⟨_, rfl⟩
  · split <;> exact ⟨_, rfl⟩

section
variable {s : State} {rest : List HostMove}

/-- A write of `OP` that names a command runs it (10_state.md R12). -/
theorem step_of_command {v : Cw} {i : Instr} (hhost : s.host = .write .op v :: rest)
    (hi : decodeCode (v.setWidth 4) = .ok i) : step s = exec i { s with host := rest } := by
  simp only [step, fetch, hhost, fetchMove, fetchCommand, decodeBytes, commandBytes,
    decodeByte_low_byte, hi]

theorem step_of_write {r : Reg} {v : Cw} (hr : r ≠ .op) (hhost : s.host = .write r v :: rest) :
    step s = .next (writeReg r v { s with host := rest }) := by
  cases r with
  | op => exact absurd rfl hr
  | n | prev | encLen | status | result | finfo => simp only [step, fetch, hhost, fetchMove]

theorem step_of_read {r : Reg} (hhost : s.host = .read r :: rest) :
    step s = .next (readReg r { s with host := rest }) := by
  simp only [step, fetch, hhost, fetchMove]

theorem step_of_reset (hhost : s.host = .reset :: rest) :
    step s = .next (resetBlock { s with host := rest }) := by
  simp only [step, fetch, hhost, fetchMove]

/-- In `FAULT` a write of `OP` does nothing, be its code a command's or reserved. -/
theorem step_of_write_op_of_fault {v : Cw} (hs : ¬ Issuable s)
    (hhost : s.host = .write .op v :: rest) : step s = .next { s with host := rest } := by
  by_cases hres : CommandWord.reserved (v.setWidth 4) = true
  · rw [step_of_reserved hhost hres, execCode_of_fault _ (s := { s with host := rest }) hs]
  · obtain ⟨i, hi⟩ := exists_decodeCode_of_not_reserved hres
    rw [step_of_command hhost hi, exec_of_fault i (s := { s with host := rest }) hs]

end

@[simp] theorem writeReg_status (r : Reg) (v : Cw) (s : State) :
    (writeReg r v s).status = s.status := by
  cases r <;> rfl

@[simp] theorem readReg_status (r : Reg) (s : State) : (readReg r s).status = s.status := by
  cases r <;> rfl

@[simp] theorem readReg_readData (r : Reg) (s : State) : (readReg r s).readData = regValue r s := by
  cases r <;> rfl

/-- What a register is read as does not depend on the moves still to come. -/
@[simp] theorem regValue_host (r : Reg) (s : State) (moves : List HostMove) :
    regValue r { s with host := moves } = regValue r s := by
  cases r <;> rfl

theorem fillEnc_status {bytes : List Byte} {s t : State} (h : fillEnc bytes s = .next t) :
    t.status = s.status := by
  unfold fillEnc at h
  split at h <;> cases h
  rfl

theorem fillVal_status {words : List Word} {s t : State} (h : fillVal words s = .next t) :
    t.status = s.status := by
  unfold fillVal at h
  split at h <;> cases h
  rfl

/-- Reset is the only move that writes `STATUS` in `FAULT`. -/
theorem step_status_of_fault {s t : State} {m : HostMove} {rest : List HostMove}
    (hs : ¬ Issuable s) (hhost : s.host = m :: rest) (hm : m ≠ .reset) (h : step s = .next t) :
    t.status = s.status := by
  cases m with
  | write r v =>
    by_cases hr : r = .op
    · subst hr
      rw [step_of_write_op_of_fault hs hhost] at h
      cases h; rfl
    · rw [step_of_write hr hhost] at h
      cases h; exact writeReg_status ..
  | read r =>
    rw [step_of_read hhost] at h
    cases h; exact readReg_status ..
  | fillEnc bytes =>
    simp only [step, fetch, hhost, fetchMove] at h
    exact fillEnc_status (s := { s with host := rest }) h
  | fillVal words =>
    simp only [step, fetch, hhost, fetchMove] at h
    exact fillVal_status (s := { s with host := rest }) h
  | driveVec b =>
    simp only [step, fetch, hhost, fetchMove] at h
    cases h; rfl
  | reset => exact absurd rfl hm

/-- A value of at most 32 bits is held whole by `N` and by `PREV`. -/
theorem toNat_setWidth_word {v : Cw} (h : v.toNat < 2 ^ 32) : (v.setWidth 32).toNat = v.toNat := by
  rw [BitVec.toNat_setWidth, Nat.mod_eq_of_lt h]

/-- Settles O7: the frame answers the state as it is, and only reset writes `STATUS`. -/
theorem faultStateIsSticky : Obligations.FaultStateIsSticky := by
  unfold Obligations.FaultStateIsSticky
  refine ⟨fun i s => exec_of_fault i, fun c s => execCode_of_fault c,
    fun s v rest hs => ⟨fun hhost => ?_, fun hhost => ?_, fun hhost => ?_⟩,
    fun s r rest hs hhost => ?_, fun s t m rest => step_status_of_fault, fun s rest hhost => ?_⟩
  · exact ⟨_, step_of_write (r := .n) (by decide) hhost, toNat_setWidth_word, hs⟩
  · exact ⟨_, step_of_write (r := .prev) (by decide) hhost, toNat_setWidth_word, hs⟩
  · exact ⟨_, step_of_write (r := .encLen) (by decide) hhost, rfl, hs⟩
  · refine ⟨_, step_of_read hhost, ?_, ?_⟩
    · rw [readReg_readData, regValue_host]
    · rwa [Issuable, readReg_status]
  · exact ⟨_, step_of_reset hhost, by rw [Issuable, resetBlock_status]; decide⟩

end Sys2Proof.Machine
end

section
/-! PROOFS. Family 60_exceptions.md: an operation, however it ends, has left the cells past the range
handed over as they were (60_exceptions.md R157, 20_memory.md R31, R32). -/

namespace Sys2Proof.Machine

/-! ### Predicates kept to either end -/

/-- Whether it ends normally or raises, a piece of an operation leaves a state with `P`. -/
def Run.Leaves {α : Type} (P : State → Prop) (r : Run α) : Prop :=
  match r with
  | .done _ s => P s
  | .raised _ _ s => P s

theorem Run.Leaves.bind {α β : Type} {P : State → Prop} {r : Run α} {f : α → State → Run β}
    (h : r.Leaves P) (hf : ∀ a s, r = .done a s → P s → (f a s).Leaves P) : (r.bind f).Leaves P := by
  cases r with
  | done a s => exact hf a s rfl h
  | raised c info s => exact h

/-- Two contents of a space read alike from cell `n` on. -/
def Memory.AgreeFrom {w : Nat} (n : Nat) (m m' : List (Nat × BitVec w)) : Prop :=
  ∀ a, n ≤ a → Memory.read m' a = Memory.read m a

theorem Memory.AgreeFrom.write {w n a : Nat} {m m' : List (Nat × BitVec w)}
    (h : Memory.AgreeFrom n m m') (v : BitVec w) (ha : a < n) :
    Memory.AgreeFrom n m (Memory.write m' a v) := fun b hb => by
  rw [Memory.read_write_ne _ _ (by omega), h b hb]

theorem Memory.AgreeFrom.writeLE {n a k : Nat} {m m' : List (Nat × Byte)}
    (h : Memory.AgreeFrom n m m') (v : Word) (hk : a + k ≤ n) :
    Memory.AgreeFrom n m (Memory.writeLE m' a k v) := fun b hb => by
  rw [Memory.read_writeLE_outside _ _ (.inr (by omega)), h b hb]

/-- Freeing the range handed over leaves the cells past it. -/
theorem Memory.AgreeFrom.fill {w n : Nat} {m m' : List (Nat × BitVec w)}
    (h : Memory.AgreeFrom n m m') (f : Nat → BitVec w) :
    Memory.AgreeFrom n m (Memory.fill m' n f) := fun b hb => by
  rw [Memory.read_fill, if_neg (Nat.not_lt.2 hb), h b hb]

/-! ### An encode -/

/-- `ENC_LEN` is `len`, and from there on ENC reads as `m`. -/
def EncKept (len : Cw) (m : List Host.Cell) (s : State) : Prop :=
  s.encLen = len ∧ Memory.AgreeFrom len.toNat m s.enc

section
variable {len : Cw} {m : List Host.Cell} {s : State} (hs : EncKept len m s)
include hs

theorem memWrite_encKept (a k : Nat) (v : Word) : (memWrite a k v s).Leaves (EncKept len m) := by
  obtain ⟨rfl, hm⟩ := hs
  unfold memWrite
  split
  · next hin => exact ⟨rfl, hm.writeLE v hin⟩
  · exact ⟨rfl, hm⟩

theorem dataPut_encKept (u : Word) (k : Nat) : (dataPut u k s).Leaves (EncKept len m) :=
  (memWrite_encKept hs _ _ _).bind fun _ _ _ ht => ht

theorem ctlPut_encKept (c : WidthCode) : (ctlPut c s).Leaves (EncKept len m) := by
  unfold ctlPut
  dsimp only
  split
  · exact (memWrite_encKept (s := { s with hidden := { s.hidden with acc := accWith c s } })
      hs _ _ _).bind fun _ _ _ ht => ht
  · exact hs

theorem ctlFlush_encKept : (ctlFlush s).Leaves (EncKept len m) := by
  unfold ctlFlush
  split
  · exact (memWrite_encKept hs _ _ _).bind fun _ _ _ ht => ht
  · exact hs

theorem encodeTransform_encKept (x : Word) : EncKept len m (encodeTransform x s).2 := by
  rw [encodeTransform_snd]; exact hs

theorem encodeOne_encKept : (encodeOne s).Leaves (EncKept len m) :=
  (dataPut_encKept (encodeTransform_encKept hs _) _ _).bind fun _ _ _ ht =>
    (ctlPut_encKept ht _).bind fun _ _ _ hp => hp

theorem encodeLoop_encKept (k : Nat) : (encodeLoop k s).Leaves (EncKept len m) := by
  induction k generalizing s with
  | zero => exact hs
  | succ k ih => exact (encodeOne_encKept hs).bind fun _ _ _ ht => ih ht

theorem encodeSeq_encKept : (encodeSeq s).Leaves (EncKept len m) :=
  (encodeLoop_encKept (s := startEncode s) hs _).bind fun _ _ _ ht =>
    (ctlFlush_encKept ht).bind fun _ _ _ hu => hu

end

/-! ### A decode -/

/-- `N` is `n`, and from there on VAL reads as `m`. -/
def ValKept (n : Word) (m : List (Nat × Word)) (s : State) : Prop :=
  s.n = n ∧ Memory.AgreeFrom n.toNat m s.val

section
variable {n : Word} {m : List (Nat × Word)} {s : State} (hs : ValKept n m s)
include hs

/-- An iteration within the range stores its value there, or raises before it stores one. -/
theorem decodeOne_valKept (hi : s.hidden.i < n.toNat) : (decodeOne s).Leaves (ValKept n m) := by
  obtain ⟨hn, hm⟩ := hs
  cases hrun : decodeOne s with
  | done _ t =>
    obtain ⟨-, -, hval⟩ := decodeOne_writes hrun
    have hframe := decodeOne_frame hrun
    refine ⟨?_, ?_⟩
    · rw [hframe]; exact hn
    · rw [hval]; exact hm.write _ hi
  | raised c info t =>
    simp only [decodeOne, Run.bind_eq_raised] at hrun
    rcases hrun with h | ⟨_, p, hp, h | ⟨_, _, _, h⟩⟩
    · obtain ⟨-, -, -, -, rfl⟩ := ctlGet_eq_raised.1 h; exact ⟨hn, hm⟩
    · obtain ⟨-, -, rfl⟩ := ctlGet_eq_done.1 hp
      obtain ⟨-, -, -, rfl⟩ := dataGet_eq_raised.1 h; exact ⟨hn, hm⟩
    · cases h

theorem decodeLoop_valKept {k : Nat} (hk : k ≤ n.toNat - s.hidden.i) :
    (decodeLoop k s).Leaves (ValKept n m) := by
  induction k generalizing s with
  | zero => exact hs
  | succ k ih =>
    refine (decodeOne_valKept hs (by omega)).bind fun _ t hrun ht => ih ht ?_
    obtain ⟨hi, -⟩ := decodeOne_counters hrun
    omega

theorem scalarDecodeFrom_valKept : (scalarDecodeFrom s).Leaves (ValKept n m) := by
  have hn : s.n = n := hs.1
  exact (decodeLoop_valKept hs (by rw [hn])).bind fun _ _ _ ht => ht

end

end Sys2Proof.Machine
end

section
/-! PROOFS. Family 60_exceptions.md: which run of a command raises, and in which state; from that what a
fault leaves (60_exceptions.md R156, R157) and where the contract check counts (R159). -/

namespace Sys2Proof.Machine

open Sys2Proof.Safety

/-! ### The bodies -/

/-- An encode raises `EncBounds` only; it has changed ENC, within `ENC_LEN`, and the hidden state. -/
theorem encodeSeq_raised {s t : State} {c : Cause} {info : Nat}
    (h : encodeSeq s = .raised c info t) :
    c = .encBounds ∧ EncodeFrame s t ∧ Memory.AgreeFrom s.encLen.toNat s.enc t.enc := by
  have hkept := encodeSeq_encKept (s := s) ⟨rfl, fun _ _ => rfl⟩
  rw [h] at hkept
  obtain ⟨-, hagree⟩ := hkept
  rcases Run.bind_eq_raised.1 h with hloop | ⟨_, p, hp, h⟩
  · obtain ⟨hc, hframe⟩ := encodeLoop_raised hloop
    exact ⟨hc, hframe, hagree⟩
  · rcases Run.bind_eq_raised.1 h with hflush | ⟨_, _, _, h⟩
    · obtain ⟨-, -, hc, -, rfl⟩ := ctlFlush_eq_raised.1 hflush
      exact ⟨hc, encodeLoop_frame (s := startEncode s) hp, hagree⟩
    · cases h

/-- An encode command raises at the contract check or in the encode. -/
theorem encodeCommand_raised {s t : State} {c : Cause} {info : Nat}
    (h : encodeCommand s = .raised c info t) :
    (s.cfg.strictContract = true ∧ s.encLen.toNat < maxEncodedSize s.n.toNat ∧
      c = .contractCheck ∧ info = s.encLen.toNat ∧ t = s) ∨ encodeSeq s = .raised c info t := by
  by_cases hmet : s.cfg.strictContract = true → maxEncodedSize s.n.toNat ≤ s.encLen.toNat
  · rw [encodeCommand_of_contract hmet] at h
    exact .inr h
  · obtain ⟨hstrict, hcap⟩ := Classical.not_imp.1 hmet
    have hshort := Nat.not_le.1 hcap
    rw [encodeCommand_of_short hstrict hshort] at h
    cases h
    exact .inl ⟨hstrict, hshort, rfl, rfl, rfl⟩

/-- A decode by the scalar engine has changed VAL, within `N`, and the hidden state. -/
theorem scalarDecodeFrom_raised_frame {s t : State} {c : Cause} {info : Nat}
    (h : scalarDecodeFrom s = .raised c info t) :
    DecodeFrame s t ∧ Memory.AgreeFrom s.n.toNat s.val t.val := by
  have hkept := scalarDecodeFrom_valKept (s := s) ⟨rfl, fun _ _ => rfl⟩
  rw [h] at hkept
  obtain ⟨-, hagree⟩ := hkept
  rcases Run.bind_eq_raised.1 h with hloop | ⟨_, _, _, h⟩
  · exact ⟨(decodeLoop_raised hloop).2, hagree⟩
  · cases h

/-- A decode raises `EncBounds` only, and by either engine leaves what the scalar one does, less the
hidden state. -/
theorem decodeCommand_raised {s t : State} {c : Cause} {info : Nat}
    (h : decodeCommand s = .raised c info t) :
    c = .encBounds ∧ t = { s with val := t.val, hidden := t.hidden } ∧
      Memory.AgreeFrom s.n.toNat s.val t.val := by
  have hend := decodeCommand_sameEnd s
  rw [h] at hend
  generalize hscalar : scalarDecodeFrom (startDecode s) = r at hend
  cases hend with
  | raised _ _ hsame =>
    obtain ⟨hframe, hagree⟩ := scalarDecodeFrom_raised_frame hscalar
    refine ⟨scalarDecodeFrom_raised hscalar, ?_, ?_⟩
    · rw [hsame, hframe]; rfl
    · rw [hsame]; exact hagree

/-! ### The commands -/

@[simp] theorem atIssue_encoder_dir (zig delta : Bool) (s : State) :
    (atIssue (.encoder zig delta) s).hidden.dir = false := by
  cases zig <;> cases delta <;> rfl

@[simp] theorem atIssue_decoder_dir (zig delta : Bool) (s : State) :
    (atIssue (.decoder zig delta) s).hidden.dir = true := by
  cases zig <;> cases delta <;> rfl

/-- The raises of a command issued on `s`, one case for each cause and direction: the cause, its
information, and the state in which it is raised (60_exceptions.md R150). -/
inductive RaisedBy (i : Instr) (s : State) : Cause → Nat → State → Prop
  | illegalCommand (hn : s.cfg.nMax < s.n.toNat) :
    RaisedBy i s .illegalCommand (encode i).toNat { s with status := Status.issued s.status }
  | contractCheck {zig delta : Bool} (hi : i = .encoder zig delta)
    (hstrict : s.cfg.strictContract = true) (hshort : s.encLen.toNat < maxEncodedSize s.n.toNat) :
    RaisedBy i s .contractCheck s.encLen.toNat (atIssue i s)
  | encode {zig delta : Bool} {info : Nat} {u : State} (hi : i = .encoder zig delta)
    (hdir : u.hidden.dir = false)
    (hframe : u = { s with status := Status.issued s.status, enc := u.enc, hidden := u.hidden })
    (hagree : Memory.AgreeFrom s.encLen.toNat s.enc u.enc) : RaisedBy i s .encBounds info u
  | decode {zig delta : Bool} {info : Nat} {u : State} (hi : i = .decoder zig delta)
    (hdir : u.hidden.dir = true)
    (hframe : u = { s with status := Status.issued s.status, val := u.val, hidden := u.hidden })
    (hagree : Memory.AgreeFrom s.n.toNat s.val u.val) : RaisedBy i s .encBounds info u

theorem encodeCommand_atIssue_raised {zig delta : Bool} {s u : State} {c : Cause} {info : Nat}
    (h : encodeCommand (atIssue (.encoder zig delta) s) = .raised c info u) :
    RaisedBy (.encoder zig delta) s c info u := by
  rcases encodeCommand_raised h with ⟨hstrict, hshort, rfl, rfl, rfl⟩ | h
  · exact .contractCheck rfl hstrict hshort
  · obtain ⟨rfl, hframe, hagree⟩ := encodeSeq_raised h
    refine .encode rfl ?_ ?_ hagree
    · rw [hframe]; exact atIssue_encoder_dir zig delta s
    · rw [hframe]; rfl

theorem decodeCommand_atIssue_raised {zig delta : Bool} {s u : State} {c : Cause} {info : Nat}
    (h : decodeCommand (atIssue (.decoder zig delta) s) = .raised c info u) :
    RaisedBy (.decoder zig delta) s c info u := by
  obtain ⟨rfl, hframe, hagree⟩ := decodeCommand_raised h
  refine .decode rfl ?_ ?_ hagree
  · rw [decodeCommand_raised_dir h]; exact atIssue_decoder_dir zig delta s
  · rw [hframe]; rfl

/-- Every raise of a command is one of those. -/
theorem runCommand_raised {i : Instr} {s u : State} {c : Cause} {info : Nat}
    (h : runCommand (encode i) { s with status := Status.issued s.status } = .raised c info u) :
    RaisedBy i s c info u := by
  by_cases hn : s.cfg.nMax < s.n.toNat
  · rw [runCommand_of_nMax_lt (i := i) (s := { s with status := Status.issued s.status }) hn] at h
    cases h
    exact .illegalCommand hn
  · have hadm : ({ s with status := Status.issued s.status } : State).n.toNat ≤ s.cfg.nMax :=
      Nat.not_lt.1 hn
    rcases Instr.cases_by_kind i with ⟨zig, delta, rfl⟩ | ⟨zig, delta, rfl⟩ | rfl
    · rw [runCommand_encoder hadm] at h
      exact encodeCommand_atIssue_raised h
    · rw [runCommand_decoder hadm] at h
      exact decodeCommand_atIssue_raised h
    · rw [runCommand_size hadm] at h
      cases h

/-- The two ends of a command issued outside `FAULT`. -/
theorem exec_cases (i : Instr) {s : State} (hs : Issuable s) :
    (∃ u, exec i s = .next (complete u)) ∨
      ∃ c info u, RaisedBy i s c info u ∧ exec i s = .next (raiseFault c info u) := by
  rw [exec_eq_execCode]
  rcases execCode_cases (encode i) s with ⟨hfault, -⟩ | ⟨-, ⟨u, -, h⟩ | ⟨c, info, u, hrun, h⟩⟩
  · exact absurd hfault hs
  · exact .inl ⟨u, h⟩
  · exact .inr ⟨c, info, u, runCommand_raised hrun, h⟩

/-- No command stops the model: either end is a next state. -/
theorem exec_eq_next (i : Instr) {s : State} (hs : Issuable s) : ∃ t, exec i s = .next t := by
  rcases exec_cases i hs with ⟨u, h⟩ | ⟨c, info, u, -, h⟩
  · exact ⟨_, h⟩
  · exact ⟨_, h⟩

theorem issuable_complete (s : State) : Issuable (complete s) := by
  rw [Issuable, complete_status, Status.state_completed]
  decide

@[simp] theorem raiseFault_status (c : Cause) (info : Nat) (s : State) :
    (raiseFault c info s).status = Status.faulted s.status c := by
  rw [raiseFault_eq]

/-- A command that ends in `FAULT` has raised. -/
theorem exec_eq_fault {i : Instr} {s t : State} (hs : Issuable s) (h : exec i s = .next t)
    (ht : ¬ Issuable t) : ∃ c info u, RaisedBy i s c info u ∧ t = raiseFault c info u := by
  rcases exec_cases i hs with ⟨u, hu⟩ | ⟨c, info, u, hraised, hu⟩
  · cases hu.symm.trans h
    exact absurd (issuable_complete u) ht
  · cases hu.symm.trans h
    exact ⟨c, info, u, hraised, rfl⟩

/-! ### The registers after a fault -/

/-- Until it raises a command has written `STATUS`, the hidden state and the spaces, and no more. -/
theorem RaisedBy.exists_eq {i : Instr} {s u : State} {c : Cause} {info : Nat}
    (h : RaisedBy i s c info u) :
    ∃ g enc val, u = { s with
      status := Status.issued s.status, hidden := g, enc := enc, val := val } := by
  cases h with
  | illegalCommand | contractCheck => exact ⟨_, _, _, rfl⟩
  | encode _ _ hframe _ | decode _ _ hframe _ => exact ⟨_, _, _, hframe⟩

/-- The fault then writes its own registers. -/
theorem RaisedBy.frame {i : Instr} {s t u : State} {c : Cause} {info : Nat}
    (h : RaisedBy i s c info u) (ht : t = raiseFault c info u) :
    t = { s with
      status := Status.faulted s.status c
      finfo := BitVec.ofNat 35 info
      result := Config.freeResult s.draws
      prev := Config.freePrev s.draws
      draws := s.draws + 1
      hidden := t.hidden
      enc := t.enc
      val := t.val } := by
  obtain ⟨g, enc, val, rfl⟩ := h.exists_eq
  rw [raiseFault_eq, Status.faulted_issued] at ht
  rw [ht]

/-- Settles O9: until it raises a command writes none of the host's registers but `STATUS`, and the fault
then writes its own. -/
theorem faultWritesOnlyItsRegisters : Obligations.FaultWritesOnlyItsRegisters := by
  unfold Obligations.FaultWritesOnlyItsRegisters
  intro i s t hs h ht
  obtain ⟨c, info, u, hraised, hfault⟩ := exec_eq_fault hs h ht
  have hframe := hraised.frame hfault
  have hstatus : t.status = Status.faulted s.status c := by rw [hframe]
  refine ⟨c, t.finfo.toNat, ⟨?_, ?_, rfl⟩, hstatus, ?_⟩
  · rw [hstatus, Status.state_faulted]
  · rw [hstatus, Status.cause_faulted]
  · rw [BitVec.ofNat_toNat, BitVec.setWidth_eq, hframe]

/-! ### The spaces after a fault -/

theorem encoder_ne_decoder (zig delta zig' delta' : Bool) :
    Instr.encoder zig delta ≠ Instr.decoder zig' delta' := by
  revert zig delta zig' delta'; decide

/-- `IllegalCommand` and `ContractCheck` are raised before either space is accessed. -/
theorem RaisedBy.spaces_at_issue {i : Instr} {s u : State} {c : Cause} {info : Nat}
    (h : RaisedBy i s c info u) (hc : c ≠ .encBounds) :
    (raiseFault c info u).enc = s.enc ∧ (raiseFault c info u).val = s.val := by
  cases h with
  | illegalCommand | contractCheck => exact raiseFault_spaces hc ..
  | encode | decode => exact absurd rfl hc

/-- `EncBounds` in an encode: free values below `ENC_LEN`, which the encode has not gone past. -/
theorem RaisedBy.encode_spaces {zig delta : Bool} {s u : State} {info : Nat}
    (h : RaisedBy (.encoder zig delta) s .encBounds info u) :
    (raiseFault .encBounds info u).val = s.val ∧
      (∀ a, a < s.encLen.toNat →
        Memory.read (raiseFault .encBounds info u).enc a = Config.freeByte s.draws a) ∧
      Memory.AgreeFrom s.encLen.toNat s.enc (raiseFault .encBounds info u).enc := by
  cases h with
  | decode hi => exact absurd hi (encoder_ne_decoder _ _ _ _)
  | encode _ hdir hframe hagree =>
    obtain ⟨hval, henc⟩ := raiseFault_encode hdir info
    have hfill : (raiseFault .encBounds info u).enc =
        Memory.fill u.enc s.encLen.toNat (Config.freeByte s.draws) := by rw [henc, hframe]
    refine ⟨by rw [hval, hframe], fun a ha => ?_, hfill ▸ hagree.fill _⟩
    rw [hfill, Memory.read_fill, if_pos ha]

/-- `EncBounds` in a decode: free values below `N`, which the decode has not gone past. -/
theorem RaisedBy.decode_spaces {zig delta : Bool} {s u : State} {info : Nat}
    (h : RaisedBy (.decoder zig delta) s .encBounds info u) :
    (raiseFault .encBounds info u).enc = s.enc ∧
      (∀ a, a < s.n.toNat →
        Memory.read (raiseFault .encBounds info u).val a = Config.freeWord s.draws a) ∧
      Memory.AgreeFrom s.n.toNat s.val (raiseFault .encBounds info u).val := by
  cases h with
  | encode hi => exact absurd hi.symm (encoder_ne_decoder _ _ _ _)
  | decode _ hdir hframe hagree =>
    obtain ⟨henc, hval⟩ := raiseFault_decode hdir info
    have hfill : (raiseFault .encBounds info u).val =
        Memory.fill u.val s.n.toNat (Config.freeWord s.draws) := by rw [hval, hframe]
    refine ⟨by rw [henc, hframe], fun a ha => ?_, hfill ▸ hagree.fill _⟩
    rw [hfill, Memory.read_fill, if_pos ha]

/-- Settles O11: the fault frees the range handed over, and the engine has written nothing past it. -/
theorem spacesAfterFault : Obligations.SpacesAfterFault := by
  unfold Obligations.SpacesAfterFault
  intro i s t hs h ht
  obtain ⟨c, info, u, hraised, rfl⟩ := exec_eq_fault hs h ht
  rw [raiseFault_status, Status.cause_faulted]
  refine ⟨fun hc => hraised.spaces_at_issue fun hbounds => hc (congrArg some hbounds),
    fun hc => ?_⟩
  obtain rfl : c = .encBounds := Option.some.inj hc
  refine ⟨fun zig delta hi => ?_, fun zig delta hi => ?_⟩
  · subst hi; exact hraised.encode_spaces
  · subst hi; exact hraised.decode_spaces

/-! ### The contract check -/

/-- The check at issue of an encode (60_exceptions.md R159). -/
theorem exec_encoder_of_short {zig delta : Bool} {s : State} (hs : Admitted s)
    (hstrict : s.cfg.strictContract = true) (hshort : s.encLen.toNat < maxEncodedSize s.n.toNat) :
    exec (.encoder zig delta) s = .next { Wire.issueFault .contractCheck s.encLen.toNat s with
      hidden := (atIssue (.encoder zig delta) s).hidden } := by
  obtain ⟨hissue, hn⟩ := hs
  have hbody := runCommand_encoder (zig := zig) (delta := delta)
    (s := { s with status := Status.issued s.status }) hn
  have hrun := hbody.trans
    (encodeCommand_of_short (s := atIssue (.encoder zig delta) s) hstrict hshort)
  have hfault := raiseFault_at_issue (c := .contractCheck) (by decide) s.encLen.toNat s
    (atIssue (.encoder zig delta) s).hidden
  rw [exec_eq_execCode, execCode_of_issuable hissue, hrun]
  exact congrArg Host.Outcome.next hfault

/-- Only an encode under `STRICT_CONTRACT` ends in `ContractCheck`. -/
theorem contractCheck_of_cause {i : Instr} {s t : State} (hs : Issuable s)
    (h : exec i s = .next t) (hcause : Status.cause t.status = some .contractCheck) :
    s.cfg.strictContract = true ∧ ∃ zig delta, i = .encoder zig delta := by
  rcases exec_cases i hs with ⟨u, hu⟩ | ⟨c, info, u, hraised, hu⟩
  · cases hu.symm.trans h
    rw [complete_status, Status.cause_completed] at hcause
    cases hcause
  · cases hu.symm.trans h
    rw [raiseFault_status, Status.cause_faulted] at hcause
    cases hcause
    cases hraised with
    | contractCheck hi hstrict _ => exact ⟨hstrict, _, _, hi⟩

/-- An iteration that ends normally has put its element below `ENC_LEN`. -/
theorem encodeOne_dcur_le {s t : State} (h : encodeOne s = .done () t) :
    t.hidden.dcur ≤ t.encLen.toNat := by
  obtain ⟨p, q, hp, hq, rfl⟩ := encodeOne_eq_done.1 h
  obtain ⟨hroom, rfl⟩ := dataPut_eq_done.1 hp
  rcases ctlPut_eq_done.1 hq with ⟨-, rfl⟩ | ⟨-, -, rfl⟩ <;> exact hroom

theorem encodeLoop_dcur_le {k : Nat} {s t : State} (h : encodeLoop (k + 1) s = .done () t) :
    t.hidden.dcur ≤ t.encLen.toNat := by
  induction k generalizing s with
  | zero =>
    obtain ⟨_, p, hp, h⟩ := Run.bind_eq_done.1 h
    cases h
    exact encodeOne_dcur_le hp
  | succ k ih =>
    obtain ⟨_, p, -, h⟩ := Run.bind_eq_done.1 h
    exact ih h

/-- An encode that ends normally had room for its encoding. -/
theorem encodedSize_le_of_encodeSeq {s u : State} (h : encodeSeq s = .done () u) :
    Wire.encodedSize s.hidden.zig s.hidden.delta s ≤ s.encLen.toNat := by
  obtain ⟨t, _, hloop, hstands, hi, -, -⟩ := encodeSeq_eq_done h
  have hdcur : t.hidden.dcur = Wire.encodedSize s.hidden.zig s.hidden.delta s := by
    rw [hstands.dcur, hi]
  rw [← hdcur, ← hstands.frame.encLen_eq]
  cases hn : s.n.toNat with
  | zero =>
    have hempty : Wire.encodedSize s.hidden.zig s.hidden.delta s = 0 := by
      rw [Wire.encodedSize, hn]; rfl
    rw [hdcur, hempty]
    exact Nat.zero_le _
  | succ k =>
    rw [hn] at hloop
    exact encodeLoop_dcur_le hloop

/-- The encode commands that complete are those whose encoding fits. -/
theorem exec_encoder_completed_iff {zig delta : Bool} {s : State} (hs : EncodeAdmitted s) :
    ∃ t, exec (.encoder zig delta) s = .next t ∧
      (Completed t ↔ Wire.encodedSize zig delta s ≤ s.encLen.toNat) := by
  by_cases hroom : Wire.encodedSize zig delta s ≤ s.encLen.toNat
  · obtain ⟨t, -, ht⟩ := exec_encoder_of_room hs hroom
    exact ⟨_, ht, iff_of_true (completed_complete t) hroom⟩
  · have hissue : Issuable s := hs.1.1
    obtain ⟨t, ht⟩ := exec_eq_next (.encoder zig delta) hissue
    refine ⟨t, ht, iff_of_false (fun hdone => hroom ?_) hroom⟩
    obtain ⟨u, hu, -⟩ := exec_encoder_of_completed hs ht hdone
    simpa using encodedSize_le_of_encodeSeq hu

theorem not_completed_issueFault (c : Cause) (info : Nat) (s : State) (h : Hidden) :
    ¬ Completed { Wire.issueFault c info s with hidden := h } := by
  rintro ⟨hdone, -⟩
  rw [Status.state_faulted] at hdone
  cases hdone

/-- The same state with `STRICT_CONTRACT` as given. -/
abbrev withStrict (strict : Bool) (s : State) : State :=
  { s with cfg := { s.cfg with strictContract := strict } }

/-- Where the encoding fits only below the contract's size the two settings differ; nowhere else. -/
theorem exec_encoder_withStrict {zig delta : Bool} {s : State} (hs : Admitted s)
    (hgap : ¬ (Wire.encodedSize zig delta s ≤ s.encLen.toNat ∧
      s.encLen.toNat < maxEncodedSize s.n.toNat)) :
    ∃ t u, exec (.encoder zig delta) (withStrict true s) = .next t ∧
      exec (.encoder zig delta) (withStrict false s) = .next u ∧ (Completed t ↔ Completed u) := by
  obtain ⟨u, hu, hiff⟩ := exec_encoder_completed_iff (zig := zig) (delta := delta)
    (s := withStrict false s) ⟨hs, nofun⟩
  rcases Nat.lt_or_ge s.encLen.toNat (maxEncodedSize s.n.toNat) with hshort | hcap
  · have hroom : ¬ Wire.encodedSize zig delta s ≤ s.encLen.toNat :=
      fun hfits => hgap ⟨hfits, hshort⟩
    exact ⟨_, u, exec_encoder_of_short (s := withStrict true s) hs rfl hshort, hu,
      iff_of_false (not_completed_issueFault _ _ _ _) fun hdone => hroom (hiff.1 hdone)⟩
  · obtain ⟨t, ht, hiff'⟩ := exec_encoder_completed_iff (zig := zig) (delta := delta)
      (s := withStrict true s) ⟨hs, fun _ => hcap⟩
    exact ⟨t, u, ht, hu, hiff'.trans hiff.symm⟩

/-- Settles O8: past the check an encode completes exactly when its encoding fits, whatever the
setting. -/
theorem contractCheckAtIssue : Obligations.ContractCheckAtIssue := by
  unfold Obligations.ContractCheckAtIssue
  refine ⟨fun zig delta s hs hstrict hshort => ⟨_, exec_encoder_of_short hs hstrict hshort⟩,
    fun i s t => contractCheck_of_cause, fun zig delta s hs hloose hroom => ?_,
    fun zig delta s => exec_encoder_withStrict⟩
  obtain ⟨t, ht, hiff⟩ := exec_encoder_completed_iff (zig := zig) (delta := delta)
    ⟨hs, fun hstrict => Bool.noConfusion (hloose.symm.trans hstrict)⟩
  exact ⟨t, ht, hiff.2 hroom⟩

end Sys2Proof.Machine
end

section
/-! PROOFS. Family 70_reset_and_hazards.md: the state a decode that ends normally leaves, and the bytes it
needs for that (70_reset_and_hazards.md R175). -/

namespace Sys2Proof.Machine

open Sys2Proof.Safety

/-! ### Buffers alike as far as the elements go -/

theorem number_congr {f g : Nat → Byte} {a k : Nat} (h : ∀ b, a ≤ b → b < a + k → g b = f b) :
    Wire.number g a k = Wire.number f a k := by
  induction k with
  | zero => rfl
  | succ k ih =>
    rw [Wire.number, Wire.number, ih fun b hb hlt => h b hb (by omega),
      h (a + k) (Nat.le_add_right ..) (by omega)]

section
variable {f g : Nat → Byte} {n : Nat} (h : ∀ a < Wire.offsetAt f n n, g a = f a)
include h

theorem widthAt_congr {i : Nat} (hi : i < n) : Wire.widthAt g i = Wire.widthAt f i := by
  have hctl : i / 4 < Wire.offsetAt f n n :=
    (div_lt_ceil4 hi).trans_le (offsetAt_mono f n (Nat.zero_le n))
  rw [Wire.widthAt, Wire.widthAt, Wire.codeAt, Wire.codeAt, h _ hctl]

theorem offsetAt_congr {i : Nat} (hi : i ≤ n) : Wire.offsetAt g n i = Wire.offsetAt f n i := by
  induction i with
  | zero => rfl
  | succ i ih => rw [Wire.offsetAt, Wire.offsetAt, ih (by omega), widthAt_congr h hi]

theorem storedAt_congr {i : Nat} (hi : i < n) : Wire.storedAt g n i = Wire.storedAt f n i := by
  have hend : Wire.offsetAt f n i + Wire.widthAt f i ≤ Wire.offsetAt f n n :=
    offsetAt_mono f n (Nat.succ_le_of_lt hi)
  rw [Wire.storedAt, Wire.storedAt, offsetAt_congr h hi.le, widthAt_congr h hi,
    number_congr fun b _ hb => h b (hb.trans_le hend)]

theorem differenceAt_congr (zig : Bool) {i : Nat} (hi : i < n) :
    Wire.differenceAt zig g n i = Wire.differenceAt zig f n i := by
  rw [Wire.differenceAt, Wire.differenceAt, storedAt_congr h hi]

theorem valueAt_congr (zig delta : Bool) (prev : Word) {i : Nat} (hi : i < n) :
    Wire.valueAt zig delta g n prev i = Wire.valueAt zig delta f n prev i := by
  induction i with
  | zero => rw [Wire.valueAt, Wire.valueAt, differenceAt_congr h zig hi]
  | succ i ih => rw [Wire.valueAt, Wire.valueAt, differenceAt_congr h zig hi, ih (by omega)]

end

theorem Memory.fill_congr {w n : Nat} (m : List (Nat × BitVec w)) {f g : Nat → BitVec w}
    (h : ∀ i < n, g i = f i) : Memory.fill m n g = Memory.fill m n f := by
  induction n with
  | zero => rfl
  | succ n ih =>
    rw [Memory.fill, Memory.fill, ih fun i hi => h i (by omega), h n (Nat.lt_succ_self n)]

/-! ### A decode loop that ends normally -/

/-- An iteration that ends normally has taken its element from below `ENC_LEN`. -/
theorem decodeOne_dcur_le {s t : State} (h : decodeOne s = .done () t) :
    t.hidden.dcur ≤ s.encLen.toNat := by
  obtain ⟨c, p, u, q, hp, hq, rfl⟩ := decodeOne_eq_done.1 h
  obtain ⟨-, -, rfl⟩ := ctlGet_eq_done.1 hp
  obtain ⟨hroom, -, rfl⟩ := dataGet_eq_done.1 hq
  rw [decodeTransform_snd]
  exact hroom

/-- The scalar decode that started in `s` has come to `t` with the values so far put into VAL one after
the other and their bytes below `ENC_LEN`. -/
structure DecodeFilled (s t : State) : Prop where
  reads : DecodeReads s t
  val : t.val = Memory.fill s.val t.hidden.i (wireValue s)
  bounded : t.hidden.i ≠ 0 → t.hidden.dcur ≤ s.encLen.toNat

theorem startDecode_filled (s : State) : DecodeFilled s (startDecode s) :=
  ⟨startDecode_reads s, rfl, fun h => absurd rfl h⟩

theorem DecodeFilled.next {s t u : State} (h : DecodeFilled s t) (hu : decodeOne t = .done () u) :
    DecodeFilled s u := by
  obtain ⟨hi, -⟩ := decodeOne_counters hu
  obtain ⟨-, -, hval⟩ := decodeOne_writes hu
  have hlen : t.encLen = s.encLen := by rw [h.reads.frame]
  refine ⟨h.reads.next hu, ?_, fun _ => hlen ▸ decodeOne_dcur_le hu⟩
  rw [hval, h.reads.nextValue_eq, h.val, hi, Memory.fill]

theorem DecodeFilled.of_loop {k : Nat} {s t u : State} (h : DecodeFilled s t)
    (hu : decodeLoop k t = .done () u) : DecodeFilled s u ∧ u.hidden.i = t.hidden.i + k := by
  induction k generalizing t with
  | zero => cases hu; exact ⟨h, rfl⟩
  | succ k ih =>
    obtain ⟨_, p, hp, hu⟩ := Run.bind_eq_done.1 hu
    obtain ⟨hi, -⟩ := decodeOne_counters hp
    obtain ⟨hfilled, hk⟩ := ih (h.next hp) hu
    exact ⟨hfilled, by omega⟩

/-! ### A decode command that ends normally -/

/-- A decode by either engine that ends normally has had all its values, and publishes what the scalar
engine does. -/
theorem decodeCommand_eq_done {s v : State} (h : decodeCommand s = .done () v) :
    ∃ u, Wire.SameButHidden v (publish u) ∧ DecodeFilled s u ∧ u.hidden.i = s.n.toNat := by
  have hend := decodeCommand_sameEnd s
  rw [h] at hend
  generalize hscalar : scalarDecodeFrom (startDecode s) = r at hend
  cases hend with
  | done _ hsame =>
    obtain ⟨_, u, hloop, hpublish⟩ := Run.bind_eq_done.1 hscalar
    cases hpublish
    obtain ⟨hfilled, hi⟩ := (startDecode_filled s).of_loop hloop
    exact ⟨u, hsame, hfilled, hi.trans (Nat.zero_add _)⟩

/-- A decode that ends normally had all its bytes below `ENC_LEN`. -/
theorem decodedSize_le_of_decodeCommand {s v : State} (h : decodeCommand s = .done () v) :
    Wire.decodedSize s ≤ s.encLen.toNat := by
  obtain ⟨u, -, hfilled, hi⟩ := decodeCommand_eq_done h
  have hdcur := hfilled.reads.dcur
  have hbounded := hfilled.bounded
  rw [hi] at hdcur hbounded
  by_cases hn : s.n.toNat = 0
  · have hempty : Wire.decodedSize s = 0 := by rw [Wire.decodedSize, hn]; rfl
    exact hempty.trans_le (Nat.zero_le _)
  · exact hdcur.ge.trans (hbounded hn)

/-- The state a decode command that has all its bytes ends in, less what it leaves in the hidden state
(42_scalar_operations.md R102). -/
def decodedState (zig delta : Bool) (s : State) : State :=
  { s with
      status := Status.completed s.status
      result := BitVec.ofNat 35 (Wire.decodedSize s)
      prev := if delta
        then Wire.lastValue (Wire.valueAt zig delta (Wire.encBytes s) s.n.toNat s.prev) s.prev s.n.toNat
        else s.prev
      val := Memory.fill s.val s.n.toNat
        (Wire.valueAt zig delta (Wire.encBytes s) s.n.toNat s.prev) }

/-- The values of the buffer under the options an admitted decode command has latched. -/
theorem wireValue_atIssue (zig delta : Bool) (s : State) :
    wireValue (atIssue (.decoder zig delta) s) =
      Wire.valueAt zig delta (Wire.encBytes s) s.n.toNat s.prev := by
  funext i
  rw [wireValue, atIssue_decoder_zig, atIssue_decoder_delta]
  rfl

/-- A decode publishes two registers and has written VAL and the hidden state. -/
theorem DecodeFrame.publish_eq {s u : State} (h : DecodeFrame s u) :
    publish u = { s with
      result := (publish u).result, prev := (publish u).prev, val := u.val, hidden := u.hidden } := by
  rw [h]; rfl

/-- However an admitted decode command came to its normal end, it ends there. -/
theorem complete_eq_decodedState {zig delta : Bool} {s v : State}
    (h : decodeCommand (atIssue (.decoder zig delta) s) = .done () v) :
    complete v = { decodedState zig delta s with hidden := v.hidden } := by
  obtain ⟨u, hsame, hfilled, hi⟩ := decodeCommand_eq_done h
  obtain ⟨hresult, hprev⟩ := hfilled.reads.publish hi
  have hval := hfilled.val
  rw [wireValue_atIssue, atIssue_decoder_delta] at hprev
  rw [wireValue_atIssue, hi] at hval
  have hpublish := hfilled.reads.frame.publish_eq
  rw [hresult, hprev, hval] at hpublish
  rw [hpublish] at hsame
  refine (congrArg complete hsame).trans ?_
  simp only [complete, decodedState, atIssue, latchOptions, Status.completed_issued]

/-- A decode command that has all its bytes ends in the state the wire format gives. -/
theorem exec_decoder_eq_decodedState {zig delta : Bool} {s : State} (hs : Admitted s)
    (hroom : Wire.decodedSize s ≤ s.encLen.toNat) :
    ∃ g, exec (.decoder zig delta) s = .next { decodedState zig delta s with hidden := g } := by
  obtain ⟨u, hu, -⟩ := decodeCommand_of_room (s := atIssue (.decoder zig delta) s) hroom
  rw [exec_decoder_of_admitted hs, hu]
  exact ⟨_, congrArg Host.Outcome.next (complete_eq_decodedState hu)⟩

/-- A decode command with too few bytes faults. -/
theorem exec_decoder_of_short {zig delta : Bool} {s : State} (hs : Admitted s)
    (hshort : s.encLen.toNat < Wire.decodedSize s) :
    ∃ u, exec (.decoder zig delta) s = .next u ∧
      Status.state u.status = .fault ∧ Status.cause u.status = some .encBounds := by
  rw [exec_decoder_of_admitted hs]
  cases hrun : decodeCommand (atIssue (.decoder zig delta) s) with
  | done _ v => exact absurd (decodedSize_le_of_decodeCommand hrun) (Nat.not_le.2 hshort)
  | raised c info v =>
    obtain ⟨rfl, -⟩ := decodeCommand_raised hrun
    refine ⟨_, rfl, ?_, ?_⟩
    · rw [raiseFault_status, Status.state_faulted]
    · rw [raiseFault_status, Status.cause_faulted]

/-- Other bytes behind those of the elements change nothing of `decodedState` but ENC and `ENC_LEN`. -/
theorem decodedState_congr (zig delta : Bool) {s : State} (len : Cw) {bytes : List Host.Cell}
    (h : ∀ a < Wire.decodedSize s, Memory.read bytes a = Memory.read s.enc a) :
    decodedState zig delta { s with encLen := len, enc := bytes } =
      { decodedState zig delta s with encLen := len, enc := bytes } := by
  have hsize : Wire.offsetAt (Memory.read bytes) s.n.toNat s.n.toNat = Wire.decodedSize s :=
    offsetAt_congr h le_rfl
  have hvalue := fun i => valueAt_congr h zig delta s.prev (i := i)
  unfold decodedState
  simp only [Wire.decodedSize, hsize, Memory.fill_congr s.val hvalue, lastValue_congr s.prev hvalue]

/-- Settles O28: what a decode of all its values leaves is a function of the bytes below its size, and a
decode that ends normally had them all. -/
theorem longerSourceChangesNothing : Obligations.LongerSourceChangesNothing := by
  unfold Obligations.LongerSourceChangesNothing
  intro zig delta s hs hroom
  refine ⟨fun len bytes hlen hagree => ?_, fun len hshort => ?_⟩
  · have hsize : Wire.decodedSize { s with encLen := len, enc := bytes } = Wire.decodedSize s :=
      offsetAt_congr hagree le_rfl
    obtain ⟨g, hg⟩ := exec_decoder_eq_decodedState (zig := zig) (delta := delta) hs hroom
    obtain ⟨g', hg'⟩ := exec_decoder_eq_decodedState (zig := zig) (delta := delta)
      (s := { s with encLen := len, enc := bytes }) hs (hsize.trans_le hlen)
    rw [decodedState_congr zig delta len hagree] at hg'
    exact ⟨_, _, hg, ⟨Status.state_completed _, Status.cause_completed _⟩, hg', rfl⟩
  · exact exec_decoder_of_short (s := { s with encLen := len }) hs hshort

end Sys2Proof.Machine
end

section
/-! PROOFS. Family other: what a whole encode and a whole decode leave (42_scalar_operations.md R101 to R110,
20_memory.md R31). -/

namespace Sys2Proof.Machine

open Sys2Proof.Safety

/-! ### The decode -/

/-- Settles O19: the closed form of the state a decode of all its values ends in, read field by field. -/
theorem decodeReadsTheWireFormat : Obligations.DecodeReadsTheWireFormat := by
  unfold Obligations.DecodeReadsTheWireFormat
  intro zig delta s hs hroom
  obtain ⟨g, hexec⟩ := exec_decoder_eq_decodedState (zig := zig) (delta := delta) hs hroom
  refine ⟨_, hexec, rfl, toNat_ofNat_of_le_encLen hroom, rfl, fun i hi => ?_, fun a ha => ?_, rfl⟩
  · exact (Memory.read_fill ..).trans (if_pos hi)
  · exact (Memory.read_fill ..).trans (if_neg (Nat.not_lt.2 ha))

/-! ### Writes below a bound -/

/-- `m'` comes from `m` by writes of cells below `n`. -/
inductive Memory.WrittenBelow {w : Nat} (n : Nat) (m : List (Nat × BitVec w)) :
    List (Nat × BitVec w) → Prop
  | refl : Memory.WrittenBelow n m m
  | write {m' : List (Nat × BitVec w)} {a : Nat} (v : BitVec w) (h : Memory.WrittenBelow n m m')
    (ha : a < n) : Memory.WrittenBelow n m (Memory.write m' a v)

section
variable {w n : Nat} {m m' : List (Nat × BitVec w)} (h : Memory.WrittenBelow n m m')
include h

theorem Memory.WrittenBelow.mono {k : Nat} (hk : n ≤ k) : Memory.WrittenBelow k m m' := by
  induction h with
  | refl => exact .refl
  | write v _ ha ih => exact ih.write v (ha.trans_le hk)

theorem Memory.WrittenBelow.agreeFrom : Memory.AgreeFrom n m m' := by
  induction h with
  | refl => exact fun _ _ => rfl
  | write v _ ha ih => exact ih.write v ha

theorem Memory.WrittenBelow.wf (hm : Memory.wf m) : Memory.wf m' := by
  induction h with
  | refl => exact hm
  | write v _ _ ih => exact Memory.wf_write _ v ih

theorem Memory.WrittenBelow.below_of_le {size : Nat} (hm : Memory.below m size) (hn : n ≤ size) :
    Memory.below m' size := by
  induction h with
  | refl => exact hm
  | write v _ ha ih => exact Memory.below_write v ih (ha.trans_le hn)

end

theorem Memory.WrittenBelow.writeLE {n a k : Nat} {m m' : List (Nat × Byte)}
    (h : Memory.WrittenBelow n m m') (v : Word) (hk : a + k ≤ n) :
    Memory.WrittenBelow n m (Memory.writeLE m' a k v) := by
  induction k generalizing m' a v with
  | zero => exact h
  | succ k ih => exact ih (h.write _ (by omega)) _ (by omega)

/-! ### What an encode has written -/

/-- An iteration writes below the data cursor it leaves. -/
theorem EncodeStands.next_written {s t u : State} (h : EncodeStands s t)
    (hi : t.hidden.i < s.n.toNat) (hu : encodeOne t = .done () u)
    (hw : Memory.WrittenBelow t.hidden.dcur s.enc t.enc) :
    Memory.WrittenBelow u.hidden.dcur s.enc u.enc := by
  obtain ⟨-, -, hdcur⟩ := encodeOne_counters hu
  rw [h.stored] at hdcur
  have hctl : t.hidden.ccur < t.hidden.dcur :=
    (h.counters.1 ▸ div_lt_ceil4 hi).trans_le h.counters.2.1
  have hdata := (hw.mono (by omega : t.hidden.dcur ≤ u.hidden.dcur)).writeLE
    (Wire.toStore s.hidden.zig s.hidden.delta (Wire.valWords s) s.prev t.hidden.i) hdcur.ge
  rcases encodeOne_writes hu h.stored with ⟨-, henc, -⟩ | ⟨-, henc⟩
  · rw [henc]; exact hdata
  · rw [henc]; exact hdata.write _ (by omega)

theorem EncodeStands.loop_written {k : Nat} {s t u : State} (h : EncodeStands s t)
    (hk : t.hidden.i + k ≤ s.n.toNat) (hu : encodeLoop k t = .done () u)
    (hw : Memory.WrittenBelow t.hidden.dcur s.enc t.enc) :
    Memory.WrittenBelow u.hidden.dcur s.enc u.enc := by
  induction k generalizing t with
  | zero => cases hu; exact hw
  | succ k ih =>
    obtain ⟨_, p, hp, hu⟩ := Run.bind_eq_done.1 hu
    obtain ⟨hi, -⟩ := encodeOne_counters hp
    exact ih (h.next hp) (by omega) hu (h.next_written (by omega) hp hw)

/-- An encode that ends normally has written within its encoding. -/
theorem encodeSeq_written {s u : State} (h : encodeSeq s = .done () u) :
    Memory.WrittenBelow (Wire.encodedSize s.hidden.zig s.hidden.delta s) s.enc u.enc := by
  obtain ⟨t, v, ht, hstands, hi, hv, rfl⟩ := encodeSeq_eq_done h
  have hw := (startEncode_stands s).loop_written (by simp) ht .refl
  rw [hstands.dcur, hi] at hw
  have hceil : ceil4 s.n.toNat ≤ Wire.encodedSize s.hidden.zig s.hidden.delta s :=
    ceil4_le_encodedOffset ..
  have hn := hstands.frame.n_eq
  have hccur := hstands.counters.1
  rcases ctlFlush_eq_done.1 hv with ⟨-, rfl⟩ | ⟨hr, -, rfl⟩
  · exact hw
  · refine hw.write _ (Nat.lt_of_lt_of_le ?_ hceil)
    rw [hn] at hr
    unfold ceil4
    omega

/-- An encode that ends normally has changed ENC, what it publishes, and the hidden state. -/
theorem encodeSeq_frame {s u : State} (h : encodeSeq s = .done () u) :
    u = { s with result := u.result, prev := u.prev, enc := u.enc, hidden := u.hidden } := by
  obtain ⟨t, v, -, hstands, -, hv, rfl⟩ := encodeSeq_eq_done h
  rw [ctlFlush_frame hv, hstands.frame]
  rfl

/-! ### The control bytes -/

/-- A control byte is the weighted sum of its codes (30_encoding.md R51). -/
theorem toNat_eq_slotCodes (cb : Byte) :
    cb.toNat = (slotCode cb 0).toNat + 4 * (slotCode cb 1).toNat + 16 * (slotCode cb 2).toNat +
      64 * (slotCode cb 3).toNat := by
  have hlt := cb.isLt
  simp only [toNat_slotCode]
  omega

/-- Settles O37: the weighted sum of the codes, each of which is a bit field. -/
theorem controlByteLayout : Obligations.ControlByteLayout := by
  unfold Obligations.ControlByteLayout
  exact ⟨toNat_eq_slotCodes, fun cb j _ => slotCode_eq_extractLsb' cb j⟩

/-- The last control byte holds the codes of a group that is not full, and nothing above them. -/
theorem encodeSeq_last_control_byte_lt {s u : State} (hr : s.n.toNat % 4 ≠ 0)
    (h : encodeSeq s = .done () u) :
    (Memory.read u.enc (s.n.toNat / 4)).toNat < 4 ^ (s.n.toNat % 4) := by
  obtain ⟨t, ht, hlt⟩ := encodeSeq_last_control_byte hr (encodedSize_le_of_encodeSeq h)
  cases ht.symm.trans h
  exact hlt

/-- Slot `j` of control byte `g` after an encode: the code of value `4g + j`, or 0. -/
theorem encodeSeq_slotCode {s u : State} (h : encodeSeq s = .done () u) {g j : Nat} (hj : j < 4)
    (hg : g < ceil4 s.n.toNat) :
    (slotCode (Memory.read u.enc g) j).toNat * 4 ^ j =
      Wire.slotValue s.hidden.zig s.hidden.delta (Wire.valWords s) s.prev s.n.toNat g j := by
  rw [Wire.slotValue]
  split
  · next hn =>
    have hcode := (encodeSeq_holdsEncoding h).codes _ hn
    rw [show (4 * g + j) / 4 = g by omega, show (4 * g + j) % 4 = j by omega] at hcode
    rw [hcode, toNat_code]
  · next hn =>
    unfold ceil4 at hg
    obtain rfl : g = s.n.toNat / 4 := by omega
    have hlast := (encodeSeq_last_control_byte_lt (by omega) h).trans_le
      (Nat.pow_le_pow_right (by decide) (show s.n.toNat % 4 ≤ j by omega))
    rw [slotCode_eq_zero_of_lt hlast]
    exact Nat.zero_mul _

theorem encodeSeq_controlByte {s u : State} (h : encodeSeq s = .done () u) {g : Nat}
    (hg : g < ceil4 s.n.toNat) :
    (Memory.read u.enc g).toNat =
      Wire.controlByte s.hidden.zig s.hidden.delta (Wire.valWords s) s.prev s.n.toNat g := by
  have hslot := fun j => encodeSeq_slotCode h (j := j) (hg := hg)
  rw [Wire.controlByte, ← hslot 0 (by decide), ← hslot 1 (by decide), ← hslot 2 (by decide),
    ← hslot 3 (by decide), toNat_eq_slotCodes]
  ring

/-! ### The encode -/

/-- Byte `k` of element `i` after an encode. -/
theorem HoldsEncoding.read_eq {zig delta : Bool} {val : Nat → Word} {prev : Word} {n i k : Nat}
    {ctl : Nat → Byte} {m : List Host.Cell} (h : HoldsEncoding zig delta val prev n n ctl m)
    (hi : i < n) (hk : k < width (Wire.toStore zig delta val prev i)) :
    Memory.read m (Wire.encodedOffset zig delta val prev n i + k) =
      (Wire.toStore zig delta val prev i).extractLsb' (8 * k) 8 := by
  rw [← extractLsb'_ofNat_readLE m _ (width_le _) hk, h.data i hi, BitVec.ofNat_toNat,
    BitVec.setWidth_eq]

/-- Settles O18: the loop has put out each element and each code, the flush the codes of the last group,
and all of it lies within the encoding. -/
theorem encodeWritesTheWireFormat : Obligations.EncodeWritesTheWireFormat := by
  unfold Obligations.EncodeWritesTheWireFormat
  intro zig delta s hs hroom
  obtain ⟨t, ht, hexec⟩ := exec_encoder_of_room hs hroom
  have hprev := encodeSeq_prev ht
  have hbytes := encodeSeq_holdsEncoding ht
  have hcontrol := fun g => encodeSeq_controlByte ht (g := g)
  have hframe := encodeSeq_frame ht
  have hwritten := encodeSeq_written ht
  simp only [atIssue_encoder_zig, atIssue_encoder_delta] at hprev hbytes hcontrol hwritten
  have hstatus : (complete t).status = Status.completed s.status := by
    rw [complete_status, hframe]
    exact Status.completed_issued _
  have hresult : (complete t).result.toNat = Wire.encodedSize zig delta s := by
    rw [encodeSeq_atIssue_result ht, toNat_ofNat_of_le_encLen hroom]
  refine ⟨_, hexec, hstatus, hresult, hprev, fun i hi k hk => hbytes.read_eq hi hk, hcontrol,
    hwritten.agreeFrom, ?_⟩
  rw [complete, hframe]
  rfl

end Sys2Proof.Machine
end

section
/-! PROOFS. Family other: where an encode runs out of space and a decode out of bytes
(60_exceptions.md R153, R155). -/

namespace Sys2Proof.Machine

open Sys2Proof.Safety

theorem faulted_raiseFault {c : Cause} {info : Nat} (s : State) (h : info < 2 ^ 35) :
    Faulted c info (raiseFault c info s) := by
  rw [raiseFault_eq]
  exact ⟨Status.state_faulted .., Status.cause_faulted .., Nat.mod_eq_of_lt h⟩

/-- The first index below `n` at which `P` fails. -/
theorem exists_first_failure {n : Nat} {P : Nat → Prop} (h : ¬ ∀ i < n, P i) :
    ∃ i < n, (∀ j < i, P j) ∧ ¬ P i := by
  classical
  push Not at h
  obtain ⟨hi, hfail⟩ := Nat.find_spec h
  exact ⟨Nat.find h, hi, fun j hj => by
    by_contra hP
    exact Nat.find_min h hj ⟨hj.trans hi, hP⟩, hfail⟩

/-! ### The encode -/

/-- The offset of element `i` of the encode that starts in `s`. -/
abbrev elementOffset (s : State) (i : Nat) : Nat :=
  Wire.encodedOffset s.hidden.zig s.hidden.delta (Wire.valWords s) s.prev s.n.toNat i

theorem elementOffset_atIssue (zig delta : Bool) (s : State) (i : Nat) :
    elementOffset (atIssue (.encoder zig delta) s) i =
      Wire.encodedOffset zig delta (Wire.valWords s) s.prev s.n.toNat i := by
  rw [elementOffset, atIssue_encoder_zig, atIssue_encoder_delta]
  rfl

/-- `FINFO` holds every offset of an encoding. -/
theorem encodedOffset_lt {zig delta : Bool} {val : Nat → Word} {prev : Word} {n : Word} {i : Nat}
    (hi : i ≤ n.toNat) : Wire.encodedOffset zig delta val prev n.toNat i < 2 ^ 35 :=
  (encodedOffset_mono zig delta val prev n.toNat hi).trans_lt
    ((encodedOffset_le zig delta val prev n.toNat).trans_lt (maxEncodedSize_lt n.isLt))

/-- An iteration whose element ends within `ENC_LEN` ends normally: the control byte lies before it. -/
theorem EncodeStands.exists_next_of_fits {s t : State} (h : EncodeStands s t)
    (hi : t.hidden.i < s.n.toNat) (hfits : elementOffset s (t.hidden.i + 1) ≤ s.encLen.toNat) :
    ∃ u, encodeOne t = .done () u := by
  have hctl := (div_lt_ceil4 hi).trans_le (ceil4_le_encodedOffset s.hidden.zig s.hidden.delta
    (Wire.valWords s) s.prev s.n.toNat (t.hidden.i + 1))
  refine encodeOne_of_room ?_ ?_ <;> rw [h.frame.encLen_eq]
  · rw [h.stored, h.dcur]
    exact hfits
  · rw [h.counters.1]
    exact hctl.trans_le hfits

theorem EncodeStands.loop_of_fits {k : Nat} {s t : State} (h : EncodeStands s t)
    (hk : t.hidden.i + k ≤ s.n.toNat)
    (hfits : ∀ j < t.hidden.i + k, elementOffset s (j + 1) ≤ s.encLen.toNat) :
    ∃ u, encodeLoop k t = .done () u := by
  induction k generalizing t with
  | zero => exact ⟨t, rfl⟩
  | succ k ih =>
    obtain ⟨p, hp⟩ := h.exists_next_of_fits (by omega) (hfits _ (by omega))
    obtain ⟨hi, -⟩ := encodeOne_counters hp
    obtain ⟨u, hu⟩ := ih (h.next hp) (by omega) fun j hj => hfits j (by omega)
    exact ⟨u, Run.bind_eq_done.2 ⟨(), p, hp, hu⟩⟩

/-- An iteration whose element does not fit raises at its offset, with nothing written. -/
theorem encodeOne_of_short {s : State}
    (h : s.encLen.toNat <
      s.hidden.dcur + width (encodeTransform (Memory.read s.val s.hidden.i) s).1) :
    ∃ t, encodeOne s = .raised .encBounds s.hidden.dcur t ∧ t.enc = s.enc := by
  refine ⟨(encodeTransform (Memory.read s.val s.hidden.i) s).2,
    Run.bind_eq_raised.2 (.inl ?_), ?_⟩ <;> rw [encodeTransform_snd]
  · exact dataPut_eq_raised.2 ⟨h, rfl, rfl, rfl⟩
  · rfl

theorem encodeSeq_of_short {s : State} {i : Nat} (hi : i < s.n.toNat)
    (hfits : ∀ j < i, elementOffset s (j + 1) ≤ s.encLen.toNat)
    (hshort : s.encLen.toNat < elementOffset s (i + 1)) :
    ∃ t, encodeSeq s = .raised .encBounds (elementOffset s i) t ∧
      Memory.WrittenBelow (elementOffset s i) s.enc t.enc := by
  have hstart := startEncode_stands s
  obtain ⟨p, hp⟩ := hstart.loop_of_fits (k := i) (by simpa using hi.le) (by simpa using hfits)
  obtain ⟨hstands, hip⟩ := hstart.of_loop hp
  have hwritten := hstart.loop_written (by simpa using hi.le) hp .refl
  replace hip : p.hidden.i = i := by simpa using hip
  have hdcur : p.hidden.dcur = elementOffset s i := hip ▸ hstands.dcur
  obtain ⟨t, ht, henc⟩ := encodeOne_of_short (s := p) (by
    rw [hstands.frame.encLen_eq, hstands.stored, hdcur, hip]
    exact hshort)
  have hloop : encodeLoop s.n.toNat (startEncode s) = .raised .encBounds p.hidden.dcur t := by
    rw [show s.n.toNat = i + (s.n.toNat - i - 1 + 1) by omega, encodeLoop_add, hp, Run.bind_done,
      encodeLoop, ht, Run.bind_raised]
  rw [hdcur] at hloop hwritten
  exact ⟨t, Run.bind_eq_raised.2 (.inl hloop), henc ▸ hwritten⟩

/-- Settles O12: the iterations before the first element that does not fit end normally; its own data put
raises at its offset. -/
theorem encodeRunsOutOfSpace : Obligations.EncodeRunsOutOfSpace := by
  unfold Obligations.EncodeRunsOutOfSpace
  intro zig delta s i hs hi hfits hshort
  obtain ⟨t, ht, -⟩ := encodeSeq_of_short (s := atIssue (.encoder zig delta) s) hi
    (fun j hj => (elementOffset_atIssue ..).trans_le (hfits j hj))
    (hshort.trans_eq (elementOffset_atIssue ..).symm)
  rw [elementOffset_atIssue] at ht
  exact ⟨_, (exec_encoder_of_admitted hs).trans (congrArg finish ht),
    faulted_raiseFault t (encodedOffset_lt hi.le)⟩

/-- If every element fits, so does the encoding. -/
theorem encodedSize_le_of_fits {s : State}
    (h : ∀ i < s.n.toNat, elementOffset s (i + 1) ≤ s.encLen.toNat) :
    elementOffset s s.n.toNat ≤ s.encLen.toNat := by
  cases hn : s.n.toNat with
  | zero =>
    rw [elementOffset, hn]
    exact Nat.zero_le _
  | succ k => exact h k (hn ▸ Nat.lt_succ_self k)

/-- An encode raises at its first element that does not fit. -/
theorem encodeSeq_raised_first {s t : State} {c : Cause} {info : Nat}
    (h : encodeSeq s = .raised c info t) :
    ∃ i < s.n.toNat, s.encLen.toNat < elementOffset s (i + 1) ∧ info = elementOffset s i ∧
      Memory.WrittenBelow (elementOffset s i) s.enc t.enc := by
  have hshort : ¬ ∀ i < s.n.toNat, elementOffset s (i + 1) ≤ s.encLen.toNat := fun hall => by
    obtain ⟨u, hu⟩ := encodeSeq_of_room (encodedSize_le_of_fits hall)
    cases hu.symm.trans h
  obtain ⟨i, hi, hfits, hfirst⟩ := exists_first_failure hshort
  obtain ⟨u, hu, hwritten⟩ := encodeSeq_of_short hi hfits (Nat.not_le.1 hfirst)
  cases hu.symm.trans h
  exact ⟨i, hi, Nat.not_le.1 hfirst, rfl, hwritten⟩

/-! ### The decode -/

/-- Both reads of value `i` of the decode that starts in `s` are admitted. -/
abbrev ReadableAt (s : State) (i : Nat) : Prop :=
  Wire.Readable (Wire.encBytes s) s.n.toNat s.encLen.toNat i

/-- The offset of the first read of value `i` that is not. -/
abbrev unreadableOffset (s : State) (i : Nat) : Nat :=
  Wire.failingOffset (Wire.encBytes s) s.n.toNat s.encLen.toNat i

theorem offsetAt_le (enc : Nat → Byte) (n i : Nat) : Wire.offsetAt enc n i ≤ ceil4 n + 4 * i := by
  induction i with
  | zero => exact le_rfl
  | succ i ih =>
    have hcode : Wire.codeAt enc i < 4 := Nat.mod_lt _ (by decide)
    rw [Wire.offsetAt, Wire.widthAt]
    omega

/-- `FINFO` holds every offset a decode reads at. -/
theorem failingOffset_lt {enc : Nat → Byte} {n : Word} {len i : Nat} (hi : i < n.toNat) :
    Wire.failingOffset enc n.toNat len i < 2 ^ 35 := by
  have hn := n.isLt
  have hoff := offsetAt_le enc n.toNat i
  have hceil : ceil4 n.toNat ≤ 2 ^ 30 := by unfold ceil4; omega
  unfold Wire.failingOffset
  split <;> omega

/-- The read that fails is of one control byte or of an element of one to four bytes. -/
theorem exists_read_past {enc : Nat → Byte} {n len i : Nat} (h : ¬ Wire.Readable enc n len i) :
    ∃ k, 1 ≤ k ∧ k ≤ 4 ∧ len < Wire.failingOffset enc n len i + k := by
  have hcode : Wire.codeAt enc i < 4 := Nat.mod_lt _ (by decide)
  unfold Wire.failingOffset
  split
  · next hctl => exact ⟨1, le_rfl, by decide, hctl.2⟩
  · next hctl =>
    refine ⟨Wire.widthAt enc i, Nat.le_add_left .., hcode, ?_⟩
    by_contra hdata
    exact h ⟨fun hi => by omega, Nat.not_lt.1 hdata⟩

theorem DecodeFilled.exists_next {s t : State} (h : DecodeFilled s t)
    (hread : ReadableAt s t.hidden.i) : ∃ u, decodeOne t = .done () u := by
  obtain ⟨hctl, hdata⟩ := hread
  have hlen : t.encLen = s.encLen := by rw [h.reads.frame]
  refine decodeOne_of_room (fun hstart => ?_) ?_ <;> rw [hlen]
  · rw [h.reads.ccur_of_group_start hstart]
    exact hctl hstart
  · rw [h.reads.toNat_slotCode, h.reads.dcur]
    exact hdata

theorem DecodeFilled.loop_of_readable {k : Nat} {s t : State} (h : DecodeFilled s t)
    (hread : ∀ j < t.hidden.i + k, ReadableAt s j) : ∃ u, decodeLoop k t = .done () u := by
  induction k generalizing t with
  | zero => exact ⟨t, rfl⟩
  | succ k ih =>
    obtain ⟨p, hp⟩ := h.exists_next (hread _ (by omega))
    obtain ⟨hi, -⟩ := decodeOne_counters hp
    obtain ⟨u, hu⟩ := ih (h.next hp) fun j hj => hread j (by omega)
    exact ⟨u, Run.bind_eq_done.2 ⟨(), p, hp, hu⟩⟩

/-- An iteration with a read that is not admitted raises at that read, with nothing stored. -/
theorem DecodeReads.decodeOne_of_unreadable {s t : State} (h : DecodeReads s t)
    (hread : ¬ ReadableAt s t.hidden.i) :
    ∃ u, decodeOne t = .raised .encBounds (unreadableOffset s t.hidden.i) u ∧ u.val = t.val := by
  have hlen : t.encLen = s.encLen := by rw [h.frame]
  by_cases hctl : t.hidden.i % 4 = 0 ∧ s.encLen.toNat < t.hidden.i / 4 + 1
  · obtain ⟨hstart, hshort⟩ := hctl
    have hccur := h.ccur_of_group_start hstart
    have hget : ctlGet t = .raised .encBounds t.hidden.ccur t :=
      ctlGet_eq_raised.2 ⟨hstart, by rw [hlen]; omega, rfl, rfl, rfl⟩
    rw [decodeOne, hget, unreadableOffset, Wire.failingOffset, if_pos ⟨hstart, hshort⟩, hccur]
    exact ⟨t, rfl, rfl⟩
  · have hget := (ctlGet_eq_done (s := t)).2 ⟨fun hstart => by
      rw [hlen, h.ccur_of_group_start hstart]
      exact Nat.not_lt.1 fun hshort => hctl ⟨hstart, by omega⟩, rfl, rfl⟩
    have hdata : t.encLen.toNat < t.hidden.dcur + ((slotCode (ctlByte t) 0).toNat + 1) := by
      rw [hlen, h.toNat_slotCode, h.dcur]
      by_contra hroom
      exact hread ⟨fun hstart => by omega, Nat.not_lt.1 hroom⟩
    refine ⟨_, Run.bind_eq_raised.2 (.inr ⟨_, _, hget, Run.bind_eq_raised.2
      (.inl (dataGet_eq_raised.2 ⟨hdata, rfl, ?_, rfl⟩))⟩), rfl⟩
    rw [unreadableOffset, Wire.failingOffset, if_neg hctl, ← h.dcur]

/-- A decode by either engine raises at its first read that is not admitted, with the values before it
stored (43_vector_decode.md R129). -/
theorem decodeCommand_of_unreadable {s : State} {i : Nat} (hi : i < s.n.toNat)
    (hread : ∀ j < i, ReadableAt s j) (hfirst : ¬ ReadableAt s i) :
    ∃ t, decodeCommand s = .raised .encBounds (unreadableOffset s i) t ∧
      t.val = Memory.fill s.val i (wireValue s) := by
  have hstart := startDecode_filled s
  obtain ⟨p, hp⟩ := hstart.loop_of_readable (k := i) (by simpa using hread)
  obtain ⟨hfilled, hip⟩ := hstart.of_loop hp
  replace hip : p.hidden.i = i := by simpa using hip
  obtain ⟨t, ht, hval⟩ := hfilled.reads.decodeOne_of_unreadable (hip.symm ▸ hfirst)
  have hloop : decodeLoop s.n.toNat (startDecode s) = .raised .encBounds (unreadableOffset s i) t := by
    rw [show s.n.toNat = i + (s.n.toNat - i - 1 + 1) by omega, decodeLoop_add, hp, Run.bind_done,
      decodeLoop, ht, hip, Run.bind_raised]
  have hscalar : scalarDecodeFrom (startDecode s) = .raised .encBounds (unreadableOffset s i) t :=
    Run.bind_eq_raised.2 (.inl hloop)
  have hend := decodeCommand_sameEnd s
  rw [hscalar] at hend
  generalize decodeCommand s = r at hend
  cases hend with
  | raised _ _ hsame =>
    refine ⟨_, rfl, ?_⟩
    rw [hsame, ← hip, ← hfilled.val]
    exact hval

/-- Settles O13: the iterations before the first value with a read past `ENC_LEN` end normally; that read
raises at its offset, and the vector engine ends as the scalar one does. -/
theorem decodeRunsOutOfBytes : Obligations.DecodeRunsOutOfBytes := by
  unfold Obligations.DecodeRunsOutOfBytes
  intro zig delta s i hs hi hread hfirst
  obtain ⟨t, ht, -⟩ :=
    decodeCommand_of_unreadable (s := atIssue (.decoder zig delta) s) hi hread hfirst
  exact ⟨_, (exec_decoder_of_admitted hs).trans (congrArg finish ht),
    faulted_raiseFault t (failingOffset_lt hi)⟩

/-- If all reads are admitted, the decode has all its bytes. -/
theorem decodedSize_le_of_readable {s : State} (h : ∀ i < s.n.toNat, ReadableAt s i) :
    Wire.decodedSize s ≤ s.encLen.toNat := by
  cases hn : s.n.toNat with
  | zero =>
    rw [Wire.decodedSize, hn]
    exact Nat.zero_le _
  | succ k =>
    obtain ⟨-, hdata⟩ := h k (hn ▸ Nat.lt_succ_self k)
    rw [Wire.decodedSize, hn]
    rwa [hn] at hdata

/-- A decode raises at its first value that has a read past `ENC_LEN`. -/
theorem decodeCommand_raised_first {s t : State} {c : Cause} {info : Nat}
    (h : decodeCommand s = .raised c info t) :
    ∃ i < s.n.toNat, ¬ ReadableAt s i ∧ info = unreadableOffset s i ∧
      t.val = Memory.fill s.val i (wireValue s) := by
  have hshort : ¬ ∀ i < s.n.toNat, ReadableAt s i := fun hall => by
    obtain ⟨u, hu, -⟩ := decodeCommand_of_room (decodedSize_le_of_readable hall)
    cases hu.symm.trans h
  obtain ⟨i, hi, hread, hfirst⟩ := exists_first_failure hshort
  obtain ⟨u, hu, hval⟩ := decodeCommand_of_unreadable hi hread hfirst
  cases hu.symm.trans h
  exact ⟨i, hi, hfirst, rfl, hval⟩

end Sys2Proof.Machine
end

section
/-! PROOFS. Family other: the runs a command can be, and what follows from them for every command: how it
ends, what it leaves alone, what it holds latched (60_exceptions.md R150, R155, 70_reset_and_hazards.md R181,
30_encoding.md R59). -/

namespace Sys2Proof.Machine

open Sys2Proof.Safety

/-! ### The run of a command -/

/-- The runs of a command issued on `s`: a check at issue that raises, or the body it has been admitted to
(42_scalar_operations.md R100). -/
inductive RunOf (i : Instr) (s : State) : Run Unit → Prop
  | illegalCommand (hn : s.cfg.nMax < s.n.toNat) :
    RunOf i s (.raised .illegalCommand (encode i).toNat { s with status := Status.issued s.status })
  | contractCheck {zig delta : Bool} (hi : i = .encoder zig delta)
    (hstrict : s.cfg.strictContract = true) (hshort : s.encLen.toNat < maxEncodedSize s.n.toNat) :
    RunOf i s (.raised .contractCheck s.encLen.toNat (atIssue i s))
  | encode {zig delta : Bool} (hi : i = .encoder zig delta) (hs : EncodeAdmitted s) :
    RunOf i s (encodeSeq (atIssue i s))
  | decode {zig delta : Bool} (hi : i = .decoder zig delta) (hs : Admitted s) :
    RunOf i s (decodeCommand (atIssue i s))
  | size (hi : i = .size) (hs : Admitted s) : RunOf i s (sizeCommand (atIssue i s))

/-- A command issued outside `FAULT` is the end of one of these runs. -/
theorem exec_eq_finish (i : Instr) {s : State} (hs : Issuable s) :
    ∃ r, RunOf i s r ∧ exec i s = finish r := by
  rcases Nat.lt_or_ge s.cfg.nMax s.n.toNat with hn | hn
  · exact ⟨_, .illegalCommand hn, exec_of_nMax_lt i hs hn⟩
  have hadm : Admitted s := ⟨hs, hn⟩
  rcases Instr.cases_by_kind i with ⟨zig, delta, rfl⟩ | ⟨zig, delta, rfl⟩ | rfl
  · by_cases hcontract : s.cfg.strictContract = true → maxEncodedSize s.n.toNat ≤ s.encLen.toNat
    · exact ⟨_, .encode rfl ⟨hadm, hcontract⟩, exec_encoder_of_admitted ⟨hadm, hcontract⟩⟩
    · obtain ⟨hstrict, hcap⟩ := Classical.not_imp.1 hcontract
      have hshort := Nat.not_le.1 hcap
      refine ⟨_, .contractCheck rfl hstrict hshort, (exec_encoder_of_short hadm hstrict hshort).trans ?_⟩
      exact congrArg Host.Outcome.next
        (raiseFault_at_issue (c := .contractCheck) (by decide) s.encLen.toNat s _).symm
  · exact ⟨_, .decode rfl hadm, exec_decoder_of_admitted hadm⟩
  · exact ⟨_, .size rfl hadm, exec_size_of_admitted hadm⟩

/-- A run ends in `DONE` or in `FAULT`, from a state it leaves. -/
theorem Run.Leaves.finish {P : State → Prop} {r : Run Unit} (h : r.Leaves P) :
    ∃ u, P u ∧ (Machine.finish r = .next (complete u) ∨
      ∃ c info, Machine.finish r = .next (raiseFault c info u)) := by
  cases r with
  | done _ u => exact ⟨u, h, .inl rfl⟩
  | raised c info u => exact ⟨u, h, .inr ⟨c, info, rfl⟩⟩

theorem not_completed_raiseFault (c : Cause) (info : Nat) (s : State) :
    ¬ Completed (raiseFault c info s) := by
  rintro ⟨hdone, -⟩
  rw [raiseFault_status, Status.state_faulted] at hdone
  cases hdone

/-! ### How a command ends -/

/-- Settles O14: the frame ignores a command in `FAULT`; outside it, either end of the run is a next
state. -/
theorem everyCommandEnds : Obligations.EveryCommandEnds := by
  unfold Obligations.EveryCommandEnds
  intro i s
  by_cases hs : Issuable s
  · rcases exec_cases i hs with ⟨u, hu⟩ | ⟨c, info, u, -, hu⟩
    · exact ⟨_, hu, fun _ => .inl (completed_complete u), fun hfault => absurd hs hfault⟩
    · refine ⟨_, hu, fun _ => .inr ?_, fun hfault => absurd hs hfault⟩
      rw [raiseFault_status, Status.state_faulted]
  · exact ⟨s, exec_of_fault i hs, fun h => absurd h hs, fun _ => rfl⟩

/-! ### What a command leaves alone -/

/-- What a command can have changed when its run ends: what it publishes, the hidden state, the spaces, and
`STATUS`, which is as at issue. -/
def CommandFrame (s u : State) : Prop :=
  u = { s with
    status := Status.issued s.status
    result := u.result
    prev := u.prev
    hidden := u.hidden
    enc := u.enc
    val := u.val }

theorem encodeSeq_atIssue_commandFrame (i : Instr) (s : State) :
    (encodeSeq (atIssue i s)).Leaves (CommandFrame s) := by
  cases h : encodeSeq (atIssue i s) with
  | done _ u =>
    change CommandFrame s u
    rw [CommandFrame, encodeSeq_frame h]
    rfl
  | raised c info u =>
    obtain ⟨-, hframe, -⟩ := encodeSeq_raised h
    change CommandFrame s u
    rw [CommandFrame, hframe]
    rfl

theorem decodeCommand_atIssue_commandFrame (i : Instr) (s : State) :
    (decodeCommand (atIssue i s)).Leaves (CommandFrame s) := by
  cases h : decodeCommand (atIssue i s) with
  | done _ v =>
    obtain ⟨u, hsame, hfilled, -⟩ := decodeCommand_eq_done h
    rw [hfilled.reads.frame.publish_eq] at hsame
    change CommandFrame s v
    rw [CommandFrame, hsame]
    rfl
  | raised c info v =>
    obtain ⟨-, hframe, -⟩ := decodeCommand_raised h
    change CommandFrame s v
    rw [CommandFrame, hframe]
    rfl

theorem RunOf.commandFrame {i : Instr} {s : State} {r : Run Unit} (h : RunOf i s r) :
    r.Leaves (CommandFrame s) := by
  cases h with
  | illegalCommand | contractCheck | size => exact rfl
  | encode => exact encodeSeq_atIssue_commandFrame i s
  | decode => exact decodeCommand_atIssue_commandFrame i s

/-- Settles O15: no run writes these registers, and of the two ends only a fault writes `FINFO` and draws
free values. -/
theorem commandsLeaveTheHostsRegisters : Obligations.CommandsLeaveTheHostsRegisters := by
  unfold Obligations.CommandsLeaveTheHostsRegisters
  intro i s
  by_cases hs : Issuable s
  · obtain ⟨r, hr, hexec⟩ := exec_eq_finish i hs
    obtain ⟨u, hframe, hend | ⟨c, info, hend⟩⟩ := hr.commandFrame.finish
    · refine ⟨_, hexec.trans hend, ?_⟩
      rw [hframe]
      exact ⟨rfl, rfl, rfl, rfl, rfl, rfl, rfl, fun _ _ => ⟨rfl, rfl⟩⟩
    · have hfail := not_completed_raiseFault c info u
      refine ⟨_, hexec.trans hend, ?_⟩
      rw [raiseFault_eq] at hfail ⊢
      rw [hframe] at hfail ⊢
      exact ⟨rfl, rfl, rfl, rfl, rfl, rfl, rfl, fun hdone => absurd hdone hfail⟩
  · exact ⟨s, exec_of_fault i hs, rfl, rfl, rfl, rfl, rfl, rfl, rfl, fun _ h => absurd h hs⟩

/-! ### What a command holds latched -/

/-- The latched bits of `u` are those of `s`. -/
def SameOptions (s u : State) : Prop :=
  u.hidden.zig = s.hidden.zig ∧ u.hidden.delta = s.hidden.delta ∧ u.hidden.dir = s.hidden.dir ∧
    u.hidden.vec = s.hidden.vec

theorem EncodeFrame.sameOptions {s t : State} (h : EncodeFrame s t) : SameOptions s t := by
  rw [h]; exact ⟨rfl, rfl, rfl, rfl⟩

theorem DecodeFrame.sameOptions {s t : State} (h : DecodeFrame s t) : SameOptions s t := by
  rw [h]; exact ⟨rfl, rfl, rfl, rfl⟩

theorem encodeSeq_sameOptions (s : State) : (encodeSeq s).Leaves (SameOptions s) := by
  cases h : encodeSeq s with
  | done _ u =>
    obtain ⟨t, v, -, hstands, -, hv, rfl⟩ := encodeSeq_eq_done h
    change SameOptions s (publish v)
    rw [ctlFlush_frame hv]
    exact hstands.frame.sameOptions
  | raised c info u => exact (encodeSeq_raised h).2.1.sameOptions

theorem decodeLoop_frame_leaves (k : Nat) (s : State) : (decodeLoop k s).Leaves (DecodeFrame s) := by
  cases h : decodeLoop k s with
  | done _ t => exact decodeLoop_frame h
  | raised c info t => exact (decodeLoop_raised h).2

theorem groupLoop_frame_leaves (k : Nat) (s : State) : (groupLoop k s).Leaves (DecodeFrame s) := by
  cases h : groupLoop k s with
  | done _ t => exact groupLoop_frame h
  | raised c info t => exact (groupLoop_raised h).2

theorem Run.Leaves.imp {α : Type} {P Q : State → Prop} {r : Run α} (h : r.Leaves P)
    (hpq : ∀ u, P u → Q u) : r.Leaves Q := by
  cases r with
  | done _ u => exact hpq u h
  | raised _ _ u => exact hpq u h

theorem scalarDecodeFrom_sameOptions {s t : State} (h : DecodeFrame s t) :
    (scalarDecodeFrom t).Leaves (SameOptions s) :=
  ((decodeLoop_frame_leaves _ t).imp fun _ hu => (h.trans hu).sameOptions).bind fun _ _ _ hu => hu

theorem decodeCommand_sameOptions (s : State) : (decodeCommand s).Leaves (SameOptions s) := by
  have hstart : DecodeFrame s (startDecode s) := rfl
  unfold decodeCommand
  split
  · refine ((groupLoop_frame_leaves _ _).imp fun _ hu => (hstart.trans hu).sameOptions).bind
      fun _ t ht _ => ?_
    exact scalarDecodeFrom_sameOptions (hstart.trans (groupLoop_frame ht))
  · exact scalarDecodeFrom_sameOptions hstart

theorem RunOf.sameOptions {i : Instr} {s : State} {r : Run Unit} (h : RunOf i s r)
    (hn : s.n.toNat ≤ s.cfg.nMax) : r.Leaves (SameOptions (atIssue i s)) := by
  cases h with
  | illegalCommand hlt => exact absurd hn (Nat.not_le.2 hlt)
  | contractCheck | size => exact ⟨rfl, rfl, rfl, rfl⟩
  | encode => exact encodeSeq_sameOptions _
  | decode => exact decodeCommand_sameOptions _

theorem raiseFault_hidden (c : Cause) (info : Nat) (s : State) :
    (raiseFault c info s).hidden = s.hidden := by
  rw [raiseFault_eq]

/-- Settles O5: the latch takes the bits of the code, and neither engine nor a fault writes them. -/
theorem optionsAreLatched : Obligations.OptionsAreLatched := by
  unfold Obligations.OptionsAreLatched
  intro i s hs
  obtain ⟨hissue, hn⟩ := hs
  obtain ⟨r, hr, hexec⟩ := exec_eq_finish i hissue
  obtain ⟨u, hsame, hend | ⟨c, info, hend⟩⟩ := (hr.sameOptions hn).finish
  · exact ⟨_, hexec.trans hend, hsame⟩
  · refine ⟨_, hexec.trans hend, ?_⟩
    rw [raiseFault_hidden]
    exact hsame

/-! ### Which fault, and where -/

theorem encoder_ne_size (zig delta : Bool) : Instr.encoder zig delta ≠ .size := by
  revert zig delta; decide

theorem decoder_ne_size (zig delta : Bool) : Instr.decoder zig delta ≠ .size := by
  revert zig delta; decide

/-- A command that ends in `FAULT` is a run that raised. -/
theorem exec_eq_raised {i : Instr} {s t : State} (hs : Issuable s) (h : exec i s = .next t)
    (ht : ¬ Issuable t) :
    ∃ c info u, RunOf i s (.raised c info u) ∧ t = raiseFault c info u := by
  obtain ⟨r, hr, hexec⟩ := exec_eq_finish i hs
  cases r with
  | done _ u =>
    cases hexec.symm.trans h
    exact absurd (issuable_complete u) ht
  | raised c info u =>
    cases hexec.symm.trans h
    exact ⟨c, info, u, hr, rfl⟩

/-- An encode raises at an element that runs past `ENC_LEN`. -/
theorem encodeSeq_raised_past {s t : State} {c : Cause} {info : Nat}
    (h : encodeSeq s = .raised c info t) :
    c = .encBounds ∧ info < 2 ^ 35 ∧ ∃ k, 1 ≤ k ∧ k ≤ 4 ∧ s.encLen.toNat < info + k := by
  obtain ⟨i, hi, hshort, rfl, -⟩ := encodeSeq_raised_first h
  exact ⟨(encodeSeq_raised h).1, encodedOffset_lt hi.le, _, width_pos _, width_le _, hshort⟩

/-- A decode raises at a read that runs past `ENC_LEN`. -/
theorem decodeCommand_raised_past {s t : State} {c : Cause} {info : Nat}
    (h : decodeCommand s = .raised c info t) :
    c = .encBounds ∧ info < 2 ^ 35 ∧ ∃ k, 1 ≤ k ∧ k ≤ 4 ∧ s.encLen.toNat < info + k := by
  obtain ⟨i, hi, hread, rfl, -⟩ := decodeCommand_raised_first h
  exact ⟨(decodeCommand_raised h).1, failingOffset_lt hi, exists_read_past hread⟩

/-- The raises of a command: the cause, and for `EncBounds` the access that did not fit. -/
theorem RunOf.cause {i : Instr} {s u : State} {c : Cause} {info : Nat}
    (h : RunOf i s (.raised c info u)) :
    (c = .illegalCommand ∧ info = (Sys2Proof.encode i).toNat ∧ s.cfg.nMax < s.n.toNat) ∨
    (c = .contractCheck ∧ info = s.encLen.toNat ∧ s.cfg.strictContract = true ∧
      s.encLen.toNat < maxEncodedSize s.n.toNat ∧ ∃ zig delta, i = .encoder zig delta) ∨
    (c = .encBounds ∧ i ≠ .size ∧ info < 2 ^ 35 ∧
      ∃ k, 1 ≤ k ∧ k ≤ 4 ∧ s.encLen.toNat < info + k) := by
  generalize hr : Run.raised c info u = r at h
  cases h with
  | illegalCommand hn => cases hr; exact .inl ⟨rfl, rfl, hn⟩
  | contractCheck hi hstrict hshort =>
    cases hr; exact .inr (.inl ⟨rfl, rfl, hstrict, hshort, _, _, hi⟩)
  | encode hi =>
    obtain ⟨hc, hpast⟩ := encodeSeq_raised_past hr.symm
    exact .inr (.inr ⟨hc, hi ▸ encoder_ne_size _ _, hpast⟩)
  | decode hi =>
    obtain ⟨hc, hpast⟩ := decodeCommand_raised_past hr.symm
    exact .inr (.inr ⟨hc, hi ▸ decoder_ne_size _ _, hpast⟩)
  | size => cases hr

/-- Settles O10: the fault records what the run raised. -/
theorem faultCausesAndInformation : Obligations.FaultCausesAndInformation := by
  unfold Obligations.FaultCausesAndInformation
  intro i s t hs h ht
  obtain ⟨c, info, u, hrun, rfl⟩ := exec_eq_raised hs h ht
  have hfinfo : (raiseFault c info u).finfo = BitVec.ofNat 35 info := rfl
  rw [raiseFault_status, Status.cause_faulted, hfinfo]
  rcases hrun.cause with ⟨rfl, rfl, hn⟩ | ⟨rfl, rfl, hshort⟩ | ⟨rfl, hsize, hinfo, hpast⟩
  · exact .inl ⟨rfl, BitVec.ofNat_toNat .., hn⟩
  · exact .inr (.inl ⟨rfl, by rw [BitVec.ofNat_toNat, BitVec.setWidth_eq], hshort⟩)
  · rw [BitVec.toNat_ofNat, Nat.mod_eq_of_lt hinfo]
    exact .inr (.inr ⟨rfl, hsize, hpast⟩)

end Sys2Proof.Machine
end

section
/-! PROOFS. Family other: the canonical form of the spaces and the invariant of the machine
(10_state.md R19, 20_memory.md R31, R32). -/

namespace Sys2Proof.Machine

open Sys2Proof.Safety

/-! ### The canonical form -/

section
variable {w : Nat} {m m' : List (Nat × BitVec w)}

theorem Memory.read_eq_zero_of_lt {a : Nat} (h : ∀ c ∈ m, a < c.1) : Memory.read m a = 0#w := by
  induction m with
  | nil => rfl
  | cons c m ih =>
    rw [Memory.read_cons, if_neg (Nat.ne_of_gt (h c (by simp))), ih fun d hd => h d (by simp [hd])]

/-- The first cell is read back, and an address before it reads 0. -/
theorem Memory.wf_cons_read {c : Nat × BitVec w} (h : Memory.wf (c :: m)) {a : Nat} (ha : a ≤ c.1) :
    Memory.read (c :: m) a = if a = c.1 then c.2 else 0#w := by
  obtain ⟨hsorted, -⟩ := h
  rw [List.pairwise_cons] at hsorted
  rw [Memory.read_cons]
  rcases ha.eq_or_lt with rfl | hlt
  · rw [if_pos rfl, if_pos rfl]
  · rw [if_neg hlt.ne', if_neg hlt.ne,
      Memory.read_eq_zero_of_lt fun d hd => hlt.trans (hsorted.1 d hd)]

/-- The first cell does not read 0. -/
theorem Memory.wf_cons_read_ne_zero {c : Nat × BitVec w} (h : Memory.wf (c :: m)) :
    Memory.read (c :: m) c.1 ≠ 0#w := by
  rw [Memory.wf_cons_read h le_rfl, if_pos rfl]
  exact h.2 c (by simp)

theorem Memory.wf_tail {c : Nat × BitVec w} (h : Memory.wf (c :: m)) : Memory.wf m :=
  ⟨(List.pairwise_cons.1 h.1).2, fun d hd => h.2 d (by simp [hd])⟩

/-- The first cell of one space is not before that of the other. -/
theorem Memory.first_le {c d : Nat × BitVec w} (hm : Memory.wf (c :: m)) (hm' : Memory.wf (d :: m'))
    (h : ∀ a, Memory.read (c :: m) a = Memory.read (d :: m') a) : d.1 ≤ c.1 := by
  by_contra hlt
  have hzero := h c.1
  rw [Memory.wf_cons_read hm' (Nat.le_of_not_le hlt), if_neg (by omega)] at hzero
  exact Memory.wf_cons_read_ne_zero hm hzero

/-- The tail reads as the whole but at the first cell, where it reads 0. -/
theorem Memory.wf_tail_read {c : Nat × BitVec w} (h : Memory.wf (c :: m)) (a : Nat) :
    Memory.read m a = if a = c.1 then 0#w else Memory.read (c :: m) a := by
  split
  · next ha =>
    rw [ha, Memory.read_eq_zero_of_lt (List.pairwise_cons.1 h.1).1]
  · next ha => rw [Memory.read_cons, if_neg (Ne.symm ha)]

theorem Memory.eq_of_read_eq (hm : Memory.wf m) (hm' : Memory.wf m')
    (h : ∀ a, Memory.read m a = Memory.read m' a) : m = m' := by
  induction m generalizing m' with
  | nil =>
    cases m' with
    | nil => rfl
    | cons d m' => exact absurd (h d.1).symm (Memory.wf_cons_read_ne_zero hm')
  | cons c m ih =>
    cases m' with
    | nil => exact absurd (h c.1) (Memory.wf_cons_read_ne_zero hm)
    | cons d m' =>
      have haddr : c.1 = d.1 :=
        (Memory.first_le hm' hm fun a => (h a).symm).antisymm (Memory.first_le hm hm' h)
      have hvalue : c.2 = d.2 := by
        simpa [Memory.wf_cons_read hm, Memory.wf_cons_read hm', haddr] using h c.1
      have htail := ih (Memory.wf_tail hm) (Memory.wf_tail hm') fun a => by
        rw [Memory.wf_tail_read hm, Memory.wf_tail_read hm', haddr, h]
      rw [htail, Prod.ext haddr hvalue]

end

/-- Settles O48, by induction on the first space: the two have the same first cell, and tails that read
alike. -/
theorem canonicalSpacesAreEqualWhenTheyReadAlike :
    Obligations.CanonicalSpacesAreEqualWhenTheyReadAlike := by
  unfold Obligations.CanonicalSpacesAreEqualWhenTheyReadAlike
  exact fun w m m' => Memory.eq_of_read_eq

/-! ### The spaces after a command -/

/-- Both spaces are canonical and list only cells that exist. -/
def SpacesInRange (s : State) : Prop :=
  (Memory.wf s.enc ∧ Memory.below s.enc Memory.encSize) ∧
    (Memory.wf s.val ∧ Memory.below s.val Memory.valSize)

theorem encLen_le_encSize (s : State) : s.encLen.toNat ≤ Memory.encSize :=
  Nat.le_sub_one_of_lt s.encLen.isLt

theorem n_le_valSize (s : State) : s.n.toNat ≤ Memory.valSize :=
  Nat.le_sub_one_of_lt s.n.isLt

theorem SpacesInRange.enc_written {s u : State} (h : SpacesInRange s) {k : Nat}
    (hw : Memory.WrittenBelow k s.enc u.enc) (hk : k < 2 ^ 35) (hval : u.val = s.val) :
    SpacesInRange u := by
  obtain ⟨⟨hwf, hbelow⟩, hv⟩ := h
  exact ⟨⟨hw.wf hwf, hw.below_of_le hbelow (Nat.le_sub_one_of_lt hk)⟩, hval ▸ hv⟩

theorem SpacesInRange.val_filled {s u : State} (h : SpacesInRange s) {k : Nat} {f : Nat → Word}
    (hval : u.val = Memory.fill s.val k f) (hk : k ≤ s.n.toNat) (henc : u.enc = s.enc) :
    SpacesInRange u := by
  obtain ⟨he, ⟨hwf, hbelow⟩⟩ := h
  refine ⟨henc ▸ he, ?_⟩
  rw [hval]
  exact ⟨Memory.wf_fill _ _ hwf, Memory.below_fill _ hbelow (hk.trans (n_le_valSize s))⟩

section
variable {s : State} (h : SpacesInRange s)
include h

theorem SpacesInRange.encodeSeq : (Machine.encodeSeq s).Leaves SpacesInRange := by
  cases hrun : Machine.encodeSeq s with
  | done _ u =>
    exact h.enc_written (encodeSeq_written hrun) (encodedOffset_lt le_rfl)
      (by rw [encodeSeq_frame hrun])
  | raised c info u =>
    obtain ⟨i, hi, -, -, hw⟩ := encodeSeq_raised_first hrun
    exact h.enc_written hw (encodedOffset_lt hi.le) (by rw [(encodeSeq_raised hrun).2.1])

theorem SpacesInRange.decodeCommand : (Machine.decodeCommand s).Leaves SpacesInRange := by
  cases hrun : Machine.decodeCommand s with
  | done _ v =>
    obtain ⟨u, hsame, hfilled, hi⟩ := decodeCommand_eq_done hrun
    refine h.val_filled (k := u.hidden.i) (f := wireValue s) ?_ hi.le ?_ <;> rw [hsame]
    · exact hfilled.val
    · exact hfilled.reads.frame.enc_eq
  | raised c info v =>
    obtain ⟨i, hi, -, -, hval⟩ := decodeCommand_raised_first hrun
    exact h.val_filled hval hi.le (by rw [(decodeCommand_raised hrun).2.1])

theorem SpacesInRange.runOf {i : Instr} {r : Run Unit} (hr : RunOf i s r) :
    r.Leaves SpacesInRange := by
  cases hr with
  | illegalCommand | contractCheck | size => exact h
  | encode => exact SpacesInRange.encodeSeq (s := atIssue i s) h
  | decode => exact SpacesInRange.decodeCommand (s := atIssue i s) h

/-- The free values of a fault go to cells that exist. -/
theorem SpacesInRange.raiseFault (c : Cause) (info : Nat) :
    SpacesInRange (Machine.raiseFault c info s) := by
  obtain ⟨⟨hwf, hbelow⟩, ⟨hwf', hbelow'⟩⟩ := h
  by_cases hc : c = .encBounds
  · subst hc
    cases hdir : s.hidden.dir with
    | true =>
      obtain ⟨henc, hval⟩ := raiseFault_decode hdir info
      rw [SpacesInRange, henc, hval]
      exact ⟨⟨hwf, hbelow⟩, Memory.wf_fill _ _ hwf', Memory.below_fill _ hbelow' (n_le_valSize s)⟩
    | false =>
      obtain ⟨hval, henc⟩ := raiseFault_encode hdir info
      rw [SpacesInRange, henc, hval]
      exact ⟨⟨Memory.wf_fill _ _ hwf, Memory.below_fill _ hbelow (encLen_le_encSize s)⟩, hwf', hbelow'⟩
  · obtain ⟨henc, hval⟩ := raiseFault_spaces hc info s
    rw [SpacesInRange, henc, hval]
    exact ⟨⟨hwf, hbelow⟩, hwf', hbelow'⟩

end

/-! ### The invariant -/

theorem statusLegal_completed {v : Byte} (h : v.extractLsb' 4 4 = 0#4) :
    StatusLegal (Status.completed v) := by
  simp [StatusLegal, h]

theorem statusLegal_faulted {v : Byte} (h : v.extractLsb' 4 4 = 0#4) (c : Cause) :
    StatusLegal (Status.faulted v c) := by
  simp [StatusLegal, h]

/-- The invariant speaks of `STATUS`, the spaces and the parameters. -/
theorem inv_of_spaces {s t : State} (hs : Inv s) (hstatus : StatusLegal t.status)
    (hspaces : SpacesInRange t) (hcfg : t.cfg = s.cfg) : Inv t :=
  ⟨hstatus, hspaces.1, hspaces.2, hcfg ▸ hs.cfg⟩

theorem inv_spaces {s : State} (hs : Inv s) : SpacesInRange s := ⟨hs.enc, hs.val⟩

/-- The reserved bits of `STATUS` are still zero when a run ends. -/
theorem CommandFrame.statusLegal {s u : State} (h : CommandFrame s u) (hs : StatusLegal s.status) :
    StatusLegal (complete u).status ∧
      ∀ c info, StatusLegal (raiseFault c info u).status := by
  have hstatus : u.status = Status.issued s.status := by rw [h]
  obtain ⟨-, -, hreserved⟩ := hs
  refine ⟨?_, fun c info => ?_⟩
  · rw [complete_status, hstatus, Status.completed_issued]
    exact statusLegal_completed hreserved
  · rw [raiseFault_status, hstatus, Status.faulted_issued]
    exact statusLegal_faulted hreserved c

theorem inv_exec {i : Instr} {s t : State} (hs : Inv s) (h : exec i s = .next t) : Inv t := by
  by_cases hissue : Issuable s
  · obtain ⟨r, hr, hexec⟩ := exec_eq_finish i hissue
    have hspaces := (inv_spaces hs).runOf hr
    have hframe := hr.commandFrame
    rw [hexec] at h
    cases r with
    | done _ u =>
      cases h
      exact inv_of_spaces hs (hframe.statusLegal hs.status).1 hspaces
        (by rw [complete_cfg, show u = _ from hframe])
    | raised c info u =>
      cases h
      exact inv_of_spaces hs ((hframe.statusLegal hs.status).2 c info) (hspaces.raiseFault c info)
        (by rw [raiseFault_eq, show u = _ from hframe])
  · cases (exec_of_fault i hissue).symm.trans h
    exact hs

/-- A reserved code touches neither space. -/
theorem inv_execCode_of_reserved {c : OpCode} {s t : State} (hc : CommandWord.reserved c = true)
    (hs : Inv s) (h : execCode c s = .next t) : Inv t := by
  by_cases hissue : Issuable s
  · rw [execCode_of_reserved hc hissue, raiseFault_illegalCommand_at_issue] at h
    cases h
    exact ⟨statusLegal_faulted hs.status.2.2 _, hs.enc, hs.val, hs.cfg⟩
  · cases (execCode_of_fault c hissue).symm.trans h
    exact hs

theorem inv_writeReg {s : State} (hs : Inv s) (r : Reg) (v : Cw) : Inv (writeReg r v s) := by
  cases r <;> exact ⟨hs.status, hs.enc, hs.val, hs.cfg⟩

theorem inv_readReg {s : State} (hs : Inv s) (r : Reg) : Inv (readReg r s) := by
  cases r <;> exact ⟨hs.status, hs.enc, hs.val, hs.cfg⟩

theorem statusLegal_zero : StatusLegal 0x00#8 := by
  simp only [StatusLegal]; decide

theorem inv_resetBlock {s : State} (hs : Inv s) : Inv (resetBlock s) :=
  ⟨statusLegal_zero, hs.enc, hs.val, hs.cfg⟩

theorem inv_fillEnc {bytes : List Byte} {s t : State} (hs : Inv s) (h : fillEnc bytes s = .next t) :
    Inv t := by
  unfold fillEnc at h
  split at h
  · next hlen =>
    cases h
    exact ⟨hs.status, ⟨Memory.wf_writeList bytes 0 hs.enc.1,
      Memory.below_writeList bytes hs.enc.2 (by omega)⟩, hs.val, hs.cfg⟩
  · cases h

theorem inv_fillVal {words : List Word} {s t : State} (hs : Inv s) (h : fillVal words s = .next t) :
    Inv t := by
  unfold fillVal at h
  split at h
  · next hlen =>
    cases h
    exact ⟨hs.status, hs.enc, ⟨Memory.wf_writeList words 0 hs.val.1,
      Memory.below_writeList words hs.val.2 (by omega)⟩, hs.cfg⟩
  · cases h

section
variable {s : State} {rest : List HostMove}

theorem step_of_no_move (hhost : s.host = []) : step s = .next s := by
  simp only [step, fetch, hhost]

theorem step_of_fillEnc {bytes : List Byte} (hhost : s.host = .fillEnc bytes :: rest) :
    step s = fillEnc bytes { s with host := rest } := by
  simp only [step, fetch, hhost, fetchMove]

theorem step_of_fillVal {words : List Word} (hhost : s.host = .fillVal words :: rest) :
    step s = fillVal words { s with host := rest } := by
  simp only [step, fetch, hhost, fetchMove]

theorem step_of_driveVec {b : Bool} (hhost : s.host = .driveVec b :: rest) :
    step s = .next { s with vecAvail := b, host := rest } := by
  simp only [step, fetch, hhost, fetchMove]

/-- A write of `OP` runs a command or is turned away as reserved. -/
theorem inv_step_of_write_op {t : State} {v : Cw} (hs : Inv { s with host := rest })
    (hhost : s.host = .write .op v :: rest) (h : step s = .next t) : Inv t := by
  by_cases hres : CommandWord.reserved (v.setWidth 4) = true
  · exact inv_execCode_of_reserved hres hs ((step_of_reserved hhost hres).symm.trans h)
  · obtain ⟨i, hi⟩ := exists_decodeCode_of_not_reserved hres
    exact inv_exec hs ((step_of_command hhost hi).symm.trans h)

end

/-- Settles O47: a command writes its spaces within `ENC_LEN` and `N`, a fill within the space, and no other
move writes them; `STATUS` is written at the end of a command and by reset. -/
theorem everyStepKeepsTheInvariant : Obligations.EveryStepKeepsTheInvariant := by
  unfold Obligations.EveryStepKeepsTheInvariant
  intro s t hs h
  cases hhost : s.host with
  | nil =>
    cases (step_of_no_move hhost).symm.trans h
    exact hs
  | cons m rest =>
    have hrest : Inv { s with host := rest } := ⟨hs.status, hs.enc, hs.val, hs.cfg⟩
    cases m with
    | write r v =>
      by_cases hr : r = .op
      · subst hr
        exact inv_step_of_write_op hrest hhost h
      · cases (step_of_write hr hhost).symm.trans h
        exact inv_writeReg hrest r v
    | read r =>
      cases (step_of_read hhost).symm.trans h
      exact inv_readReg hrest r
    | fillEnc bytes => exact inv_fillEnc hrest ((step_of_fillEnc hhost).symm.trans h)
    | fillVal words => exact inv_fillVal hrest ((step_of_fillVal hhost).symm.trans h)
    | driveVec b =>
      cases (step_of_driveVec hhost).symm.trans h
      exact ⟨hs.status, hs.enc, hs.val, hs.cfg⟩
    | reset =>
      cases (step_of_reset hhost).symm.trans h
      exact inv_resetBlock hrest

/-- Settles O46: `STATUS` is 0, and empty spaces are canonical. -/
theorem invariantHoldsAtReset : Obligations.InvariantHoldsAtReset := by
  unfold Obligations.InvariantHoldsAtReset
  obtain ⟨henc, hval⟩ := Memory.wf_reset
  exact ⟨statusLegal_zero, ⟨henc, nofun⟩, ⟨hval, nofun⟩, by decide⟩

end Sys2Proof.Machine
end

section
/-! PROOFS. Family other: what a host move does (10_state.md R11, R12, 30_encoding.md R59, R62,
70_reset_and_hazards.md R170) and the two ends of the control stream (40_width_control_data.md R72, R74). -/

namespace Sys2Proof.Machine

/-! ### Commands from the host -/

/-- The decoder inverts the table of codes, and no other code names the command
(30_encoding.md R59, R60). -/
theorem decodeCode_eq_ok_iff (c : OpCode) (i : Instr) : decodeCode c = .ok i ↔ c = encode i := by
  revert c; cases i <;> decide

/-- Settles O2: the decoder sees the low four bits, and inverts the table of codes. -/
theorem writtenValueNamesItsCode : Obligations.WrittenValueNamesItsCode := by
  unfold Obligations.WrittenValueNamesItsCode
  intro v i
  rw [← decodeCode_eq_ok_iff, ← decodeByte_low_byte, commandBytes, decodeBytes]
  cases decodeByte (v.setWidth 8) <;> simp

/-- Settles O3: a value that decodes to a command names it by its low four bits. -/
theorem stepRunsTheDecodedCommand : Obligations.StepRunsTheDecodedCommand := by
  unfold Obligations.StepRunsTheDecodedCommand
  intro s v rest i more hhost hdecode
  have hcode := (writtenValueNamesItsCode v i).1 ⟨more, hdecode⟩
  exact step_of_command hhost ((decodeCode_eq_ok_iff _ i).2 hcode)

/-! ### Reset, registers and fills -/

/-- Settles O49: power on, field by field. -/
theorem resetState : Obligations.ResetState := by
  unfold Obligations.ResetState
  exact ⟨rfl, by decide, by decide, rfl, rfl, rfl, rfl, rfl, Memory.read_nil, Memory.read_nil⟩

/-- Settles O50: the reset move takes the power-on registers with the parameters the block has. -/
theorem resetEvent : Obligations.ResetEvent := by
  unfold Obligations.ResetEvent
  intro s rest hhost
  exact ⟨_, step_of_reset hhost, rfl, rfl⟩

/-- What the host sees of `STATUS` is its low four bits (10_state.md R19). -/
theorem toNat_visible (v : Byte) : (Status.visible v).toNat = v.toNat % 16 := by
  revert v; decide

/-- Settles O51: a write stores in its own register, a read returns it zero-extended. -/
theorem hostRegisterAccess : Obligations.HostRegisterAccess := by
  unfold Obligations.HostRegisterAccess
  refine ⟨fun s => step_of_no_move, fun s v rest => ?_, fun s rest => ?_⟩
  · exact ⟨step_of_write (by decide), step_of_write (by decide), step_of_write (by decide),
      step_of_write (by decide), step_of_write (by decide), step_of_write (by decide)⟩
  · refine ⟨fun hhost => ⟨_, step_of_read hhost, rfl, BitVec.toNat_setWidth_of_le (by decide)⟩,
      fun hhost => ⟨_, step_of_read hhost, rfl, BitVec.toNat_setWidth_of_le (by decide)⟩,
      step_of_read, fun hhost => ⟨_, step_of_read hhost, rfl, ?_⟩, step_of_read, step_of_read,
      fun hhost => ⟨_, step_of_read hhost, rfl⟩⟩
    exact (BitVec.toNat_setWidth_of_le (by decide)).trans (toNat_visible s.status)

/-- A list written from cell 0 on is read back; past it the cells are as they were. -/
theorem Memory.read_writeList_zero {w : Nat} (m : List (Nat × BitVec w)) (vs : List (BitVec w))
    (a : Nat) :
    Memory.read (Memory.writeList m 0 vs) a = vs.getD a (Memory.read m a) := by
  rw [Memory.read_writeList, if_neg (Nat.not_lt_zero a), Nat.sub_zero]

/-- Settles O52: a fill that stays within its space is a list write from cell 0 on. -/
theorem hostFillsTheSpaces : Obligations.HostFillsTheSpaces := by
  unfold Obligations.HostFillsTheSpaces
  refine ⟨fun s bytes rest hhost hlen => ?_, fun s words rest hhost hlen => ?_,
    fun s b rest => step_of_driveVec⟩
  · exact ⟨_, (step_of_fillEnc hhost).trans (if_pos hlen), rfl, Memory.read_writeList_zero _ _⟩
  · exact ⟨_, (step_of_fillVal hhost).trans (if_pos hlen), rfl, Memory.read_writeList_zero _ _⟩

/-! ### The control stream -/

/-- Settles O40: the three ends of a control put, by the slot and the room. -/
theorem controlPut : Obligations.ControlPut := by
  unfold Obligations.ControlPut
  intro c s
  refine ⟨fun hi => ctlPut_eq_done.2 (.inl ⟨hi, rfl⟩), fun hi hroom => ?_, fun hi hfull => ?_⟩
  · refine ⟨_, ctlPut_eq_done.2 (.inr ⟨hi, hroom, rfl⟩), ?_,
      fun a ha => Memory.read_write_ne _ _ ha, rfl⟩
    exact (Memory.read_write_self ..).trans (by rw [accWith, hi])
  · exact ⟨_, ctlPut_eq_raised.2 ⟨hi, hfull, rfl, rfl, rfl⟩⟩

/-- Settles O41: the three ends of a control get, by the slot and the bound; slot 0 is the low two bits. -/
theorem controlGet : Obligations.ControlGet := by
  unfold Obligations.ControlGet
  intro s
  refine ⟨fun hi => ?_, fun hi hin => ?_, fun hi hout => ?_⟩
  · refine ctlGet_eq_done.2 ⟨fun hstart => absurd hstart hi, ?_, ?_⟩
    · rw [ctlByte, if_neg hi, BitVec.setWidth_eq_extractLsb' (by decide)]
    · rw [ctlByte, ctlNext, if_neg hi, if_neg hi]
  · refine ctlGet_eq_done.2 ⟨fun _ => hin, ?_, ?_⟩
    · rw [ctlByte, if_pos hi, slotCode, Nat.mul_zero, BitVec.ushiftRight_zero]
    · rw [ctlByte, ctlNext, if_pos hi, if_pos hi]
  · exact ctlGet_eq_raised.2 ⟨hi, hout, rfl, rfl, rfl⟩

end Sys2Proof.Machine
end

section
/-! PROOFS. Family other: the transforms undo each other (41_delta_zigzag.md R92, R93, R97), and what an
encode does not read: a run from a state changed there keeps step with the run itself (20_memory.md R37). -/

namespace Sys2Proof.Machine

/-! ### The transforms -/

/-- The encode transform of a value takes the carry and the latched options from the state. -/
theorem encodeTransform_fst_eq (x : Word) (s : State) :
    (encodeTransform x s).1 = if s.hidden.zig
      then zigEnc (if s.hidden.delta then x - s.hidden.carry else x)
      else if s.hidden.delta then x - s.hidden.carry else x := by
  unfold encodeTransform deltaEnc
  cases s.hidden.delta <;> rfl

/-- From the same carry and options the decode transform undoes the encode transform. -/
theorem decodeTransform_encodeTransform {x : Word} {s t : State}
    (hcarry : t.hidden.carry = s.hidden.carry) (hzig : t.hidden.zig = s.hidden.zig)
    (hdelta : t.hidden.delta = s.hidden.delta) :
    (decodeTransform (encodeTransform x s).1 t).1 = x := by
  have hunzig : ∀ d : Word, (if s.hidden.zig then zigDec (if s.hidden.zig then zigEnc d else d)
      else if s.hidden.zig then zigEnc d else d) = d := fun d => by
    split
    · exact zigDec_zigEnc d
    · rfl
  rw [decodeTransform_fst, encodeTransform_fst_eq, hcarry, hzig, hdelta, hunzig]
  split
  · exact add_sub_cancel s.hidden.carry x
  · rfl

/-- Settles O36: the inverses undo each other, and both leave the value as the carry if there is delta. -/
theorem transformsUndoEachOther : Obligations.TransformsUndoEachOther := by
  unfold Obligations.TransformsUndoEachOther
  intro x s t hcarry hzig hdelta
  have hvalue := decodeTransform_encodeTransform (x := x) hcarry hzig hdelta
  refine ⟨hvalue, ?_, ?_⟩
  · rw [decodeTransform_snd, encodeTransform_snd, hvalue, hdelta, hcarry]
    rfl
  · rw [encodeTransform_snd, withCarry_hidden_carry]

/-! ### Runs kept in step -/

/-- A test that both runs decide alike. -/
theorem Run.Alike.ite {α : Type} {E D : State → State → Prop} {p p' : Prop} [Decidable p] [Decidable p']
    {a b a' b' : Run α} (hp : p' ↔ p) (ha : p → Run.Alike E D a a') (hb : ¬ p → Run.Alike E D b b') :
    Run.Alike E D (if p then a else b) (if p' then a' else b') := by
  by_cases h : p
  · rw [if_pos h, if_pos (hp.2 h)]
    exact ha h
  · rw [if_neg h, if_neg fun h' => h (hp.1 h')]
    exact hb h

/-- A word that is read only under `p`, and not changed then. -/
theorem ite_read_word {α : Type} {p : Prop} [Decidable p] {f : Word → Word} (hf : p → f = id)
    (g : Word → α) (k : Word) (a : α) : (if p then g (f k) else a) = if p then g k else a := by
  split
  · next hp => rw [hf hp]; rfl
  · rfl

/-- A word that is replaced under `p`, and changed only otherwise. -/
theorem ite_replace_word {p : Prop} [Decidable p] {f : Word → Word} (hf : p → f = id) (y k : Word) :
    (if p then y else f k) = f (if p then y else k) := by
  split
  · next hp => rw [hf hp]; rfl
  · rfl

/-! ### What an encode does not read -/

/-- A change of what an encode does not read: the registers of the decode and, as one, `PREV` and the
carry it is loaded into. -/
structure EncodeSpare where
  word : Word → Word
  cb : Byte → Byte
  window : BitVec 128 → BitVec 128
  lanes : Lanes → Lanes

/-- The state so changed, on the ENC contents `m`. -/
def EncodeSpare.change (x : EncodeSpare) (m : List Host.Cell) (s : State) : State :=
  { s with
    enc := m
    prev := x.word s.prev
    hidden := { s.hidden with
      carry := x.word s.hidden.carry
      cb := x.cb s.hidden.cb
      window := x.window s.hidden.window
      lanes := x.lanes s.hidden.lanes } }

/-- `t` is `s` so changed, on any ENC contents, or on the same ones if `q`; with delta the carry is read, and
is the same. -/
structure EncodeTwin (x : EncodeSpare) (q : Prop) (s t : State) : Prop where
  eq : t = x.change t.enc s
  enc : q → t.enc = s.enc
  word : s.hidden.delta = true → x.word = id

section
variable {x : EncodeSpare} {q : Prop} {s t : State}

theorem EncodeTwin.exists_eq (h : EncodeTwin x q s t) :
    ∃ m, t = x.change m s ∧ (q → m = s.enc) ∧ (s.hidden.delta = true → x.word = id) :=
  ⟨_, h.eq, h.enc, h.word⟩

variable (h : EncodeTwin x q s t)
include h

theorem memWrite_encodeTwin (a k : Nat) (v : Word) :
    Run.Alike (EncodeTwin x q) (EncodeTwin x q) (memWrite a k v s) (memWrite a k v t) := by
  obtain ⟨m, rfl, hm, hword⟩ := h.exists_eq
  refine .ite Iff.rfl (fun _ => .done () ⟨rfl, fun hq => ?_, hword⟩)
    fun _ => .raised _ _ ⟨rfl, hm, hword⟩
  exact congrArg (Memory.writeLE · a k v) (hm hq)

theorem dataPut_encodeTwin (u : Word) (k : Nat) :
    Run.Alike (EncodeTwin x q) (EncodeTwin x q) (dataPut u k s) (dataPut u k t) := by
  have hdcur : t.hidden.dcur = s.hidden.dcur := by rw [h.eq]; rfl
  rw [dataPut, dataPut, hdcur]
  refine (memWrite_encodeTwin h _ _ _).bind fun _ p r _ hr => .done () ?_
  obtain ⟨m, rfl, hm, hword⟩ := hr.exists_eq
  exact ⟨rfl, hm, hword⟩

theorem ctlPut_encodeTwin (c : WidthCode) :
    Run.Alike (EncodeTwin x q) (EncodeTwin x q) (ctlPut c s) (ctlPut c t) := by
  obtain ⟨m, rfl, hm, hword⟩ := h.exists_eq
  have hacc : EncodeTwin x q { s with hidden := { s.hidden with acc := accWith c s } }
      { x.change m s with hidden := { (x.change m s).hidden with acc := accWith c s } } :=
    ⟨rfl, hm, hword⟩
  refine .ite Iff.rfl (fun _ => (memWrite_encodeTwin hacc _ _ _).bind fun _ p r _ hr => .done () ?_)
    fun _ => .done () hacc
  obtain ⟨m', rfl, hm', hword'⟩ := hr.exists_eq
  exact ⟨rfl, hm', hword'⟩

theorem ctlFlush_encodeTwin :
    Run.Alike (EncodeTwin x q) (EncodeTwin x q) (ctlFlush s) (ctlFlush t) := by
  obtain ⟨m, rfl, -, -⟩ := h.exists_eq
  refine .ite Iff.rfl (fun _ => (memWrite_encodeTwin h _ _ _).bind fun _ p r _ hr => .done () ?_)
    fun _ => .done () h
  obtain ⟨m', rfl, hm', hword'⟩ := hr.exists_eq
  exact ⟨rfl, hm', hword'⟩

theorem encodeTransform_encodeTwin (v : Word) :
    (encodeTransform v t).1 = (encodeTransform v s).1 ∧
      EncodeTwin x q (encodeTransform v s).2 (encodeTransform v t).2 := by
  obtain ⟨m, rfl, hm, hword⟩ := h.exists_eq
  rw [encodeTransform_fst_eq, encodeTransform_fst_eq, encodeTransform_snd, encodeTransform_snd]
  refine ⟨?_, congrArg (fun k => withCarry k (x.change m s)) (ite_replace_word hword v _), hm, hword⟩
  exact congrArg (fun d => if s.hidden.zig then zigEnc d else d) (ite_read_word hword (v - ·) _ _)

theorem encodeOne_encodeTwin :
    Run.Alike (EncodeTwin x q) (EncodeTwin x q) (encodeOne s) (encodeOne t) := by
  have hread : Memory.read t.val t.hidden.i = Memory.read s.val s.hidden.i := by rw [h.eq]; rfl
  obtain ⟨hvalue, htwin⟩ := encodeTransform_encodeTwin h (Memory.read s.val s.hidden.i)
  unfold encodeOne
  dsimp only
  rw [hread, hvalue]
  refine (dataPut_encodeTwin htwin _ _).bind fun _ _ _ _ hp =>
    (ctlPut_encodeTwin hp _).bind fun _ p r _ hr => .done () ?_
  obtain ⟨m, rfl, hm, hword⟩ := hr.exists_eq
  exact ⟨rfl, hm, hword⟩

theorem encodeLoop_encodeTwin (k : Nat) :
    Run.Alike (EncodeTwin x q) (EncodeTwin x q) (encodeLoop k s) (encodeLoop k t) := by
  induction k generalizing s t with
  | zero => exact .done () h
  | succ k ih => exact (encodeOne_encodeTwin h).bind fun _ _ _ _ hr => ih hr

theorem EncodeTwin.publish : EncodeTwin x q (publish s) (publish t) := by
  obtain ⟨m, rfl, hm, hword⟩ := h.exists_eq
  exact ⟨congrArg (fun p => { Machine.publish (x.change m s) with prev := p })
    (apply_ite x.word _ _ _).symm, hm, hword⟩

end

/-- Encodes whose loops start in step stay in step to their ends. -/
theorem encodeSeq_encodeTwin {x : EncodeSpare} {q : Prop} {s t : State}
    (h : EncodeTwin x q (startEncode s) (startEncode t)) :
    Run.Alike (EncodeTwin x q) (EncodeTwin x q) (encodeSeq s) (encodeSeq t) := by
  have hn : (startEncode t).n = (startEncode s).n := by rw [h.eq]; rfl
  rw [startEncode_n, startEncode_n] at hn
  rw [encodeSeq, encodeSeq, hn]
  exact (encodeLoop_encodeTwin h _).bind fun _ _ _ _ hp =>
    (ctlFlush_encodeTwin hp).bind fun _ _ _ _ hr => .done () hr.publish

/-! ### What a decode does not read -/

/-- The state with `PREV` and the carry it is loaded into changed by `f`, on the VAL contents `m`. -/
def onVal (f : Word → Word) (m : List (Nat × Word)) (s : State) : State :=
  { s with val := m, prev := f s.prev, hidden := { s.hidden with carry := f s.hidden.carry } }

/-- `t` is `s` so changed, on any VAL contents, or on the same ones if `q`; with delta the carry is read, and
is the same. -/
structure DecodeTwin (f : Word → Word) (q : Prop) (s t : State) : Prop where
  eq : t = onVal f t.val s
  val : q → t.val = s.val
  word : s.hidden.delta = true → f = id

section
variable {f : Word → Word} {q : Prop} {s t : State}

theorem DecodeTwin.exists_eq (h : DecodeTwin f q s t) :
    ∃ m, t = onVal f m s ∧ (q → m = s.val) ∧ (s.hidden.delta = true → f = id) :=
  ⟨_, h.eq, h.val, h.word⟩

variable (h : DecodeTwin f q s t)
include h

theorem memRead_decodeTwin (a k : Nat) :
    Run.Alike (DecodeTwin f q) (DecodeTwin f q) (memRead a k s) (memRead a k t) := by
  obtain ⟨m, rfl, -, -⟩ := h.exists_eq
  exact .ite Iff.rfl (fun _ => .done _ h) fun _ => .raised _ _ h

theorem ctlGet_decodeTwin :
    Run.Alike (DecodeTwin f q) (DecodeTwin f q) (ctlGet s) (ctlGet t) := by
  have hfetch : Run.Alike (DecodeTwin f q) (DecodeTwin f q) (ctlFetch s) (ctlFetch t) := by
    obtain ⟨m, rfl, -, -⟩ := h.exists_eq
    refine .ite Iff.rfl (fun _ => (memRead_decodeTwin h _ _).bind fun _ p r _ hr => .done () ?_)
      fun _ => .done () h
    obtain ⟨m', rfl, hm', hword'⟩ := hr.exists_eq
    exact ⟨rfl, hm', hword'⟩
  refine hfetch.bind fun _ p r _ hr => ?_
  obtain ⟨m, rfl, hm, hword⟩ := hr.exists_eq
  exact .done _ ⟨rfl, hm, hword⟩

theorem dataGet_decodeTwin (k : Nat) :
    Run.Alike (DecodeTwin f q) (DecodeTwin f q) (dataGet k s) (dataGet k t) := by
  have hdcur : t.hidden.dcur = s.hidden.dcur := by rw [h.eq]; rfl
  rw [dataGet, dataGet, hdcur]
  refine (memRead_decodeTwin h _ _).bind fun _ p r _ hr => .done _ ?_
  obtain ⟨m, rfl, hm, hword⟩ := hr.exists_eq
  exact ⟨rfl, hm, hword⟩

/-- The value stored is the same, and so is the carry where it is read. -/
theorem DecodeTwin.store (u : Word) :
    DecodeTwin f q (nextIndex (storeValue (decodeTransform u s).1 (decodeTransform u s).2))
      (nextIndex (storeValue (decodeTransform u t).1 (decodeTransform u t).2)) := by
  obtain ⟨m, rfl, hm, hword⟩ := h.exists_eq
  have hvalue : (decodeTransform u (onVal f m s)).1 = (decodeTransform u s).1 := by
    rw [decodeTransform_fst, decodeTransform_fst]
    exact ite_read_word hword (fun k => k + if s.hidden.zig then zigDec u else u) _ _
  rw [decodeTransform_snd, decodeTransform_snd, hvalue]
  exact ⟨congrArg (fun k => nextIndex (storeValue (decodeTransform u s).1 (withCarry k (onVal f m s))))
    (ite_replace_word hword _ _), fun hq => congrArg (Memory.write · s.hidden.i _) (hm hq), hword⟩

theorem decodeOne_decodeTwin :
    Run.Alike (DecodeTwin f q) (DecodeTwin f q) (decodeOne s) (decodeOne t) :=
  (ctlGet_decodeTwin h).bind fun _ _ _ _ hp =>
    (dataGet_decodeTwin hp _).bind fun u _ _ _ hr => .done () (hr.store u)

theorem decodeLoop_decodeTwin (k : Nat) :
    Run.Alike (DecodeTwin f q) (DecodeTwin f q) (decodeLoop k s) (decodeLoop k t) := by
  induction k generalizing s t with
  | zero => exact .done () h
  | succ k ih => exact (decodeOne_decodeTwin h).bind fun _ _ _ _ hr => ih hr

theorem DecodeTwin.publish : DecodeTwin f q (publish s) (publish t) := by
  obtain ⟨m, rfl, hm, hword⟩ := h.exists_eq
  exact ⟨congrArg (fun p => { Machine.publish (onVal f m s) with prev := p })
    (apply_ite f _ _ _).symm, hm, hword⟩

theorem scalarDecodeFrom_decodeTwin :
    Run.Alike (DecodeTwin f q) (DecodeTwin f q) (scalarDecodeFrom s) (scalarDecodeFrom t) := by
  have hcount : t.n.toNat - t.hidden.i = s.n.toNat - s.hidden.i := by rw [h.eq]; rfl
  rw [scalarDecodeFrom, scalarDecodeFrom, hcount]
  exact (decodeLoop_decodeTwin h _).bind fun _ _ _ _ hr => .done () hr.publish

theorem groupLanes_decodeTwin : groupLanes t = groupLanes s := by
  obtain ⟨m, rfl, -, hword⟩ := h.exists_eq
  exact ite_read_word hword (prefixSum · _) _ _

/-- The end of a group step: the lanes stored, the carry taken from them if there is delta. -/
theorem DecodeTwin.storeGroup :
    DecodeTwin f q (advanceGroup (groupLanes s) (storeLanes (groupLanes s) s))
      (advanceGroup (groupLanes t) (storeLanes (groupLanes t) t)) := by
  rw [groupLanes_decodeTwin h]
  obtain ⟨m, rfl, hm, hword⟩ := h.exists_eq
  exact ⟨congrArg (fun k => withCarry k (advanceGroup (groupLanes s) (storeLanes _ (onVal f m s))))
    (ite_replace_word hword _ _), fun hq => congrArg (Memory.writeList · s.hidden.i _) (hm hq), hword⟩

theorem groupStep_decodeTwin :
    Run.Alike (DecodeTwin f q) (DecodeTwin f q) (groupStep s) (groupStep t) := by
  have hccur : t.hidden.ccur = s.hidden.ccur := by rw [h.eq]; rfl
  unfold groupStep
  rw [hccur]
  refine (memRead_decodeTwin h _ _).bind fun b p r _ hr => ?_
  obtain ⟨m, rfl, hm, hword⟩ := hr.exists_eq
  have hloaded : DecodeTwin f q
      { p with hidden := { p.hidden with cb := BitVec.ofNat 8 b, ccur := p.hidden.ccur + 1 } }
      { onVal f m p with hidden := { (onVal f m p).hidden with
          cb := BitVec.ofNat 8 b, ccur := (onVal f m p).hidden.ccur + 1 } } := ⟨rfl, hm, hword⟩
  refine (memRead_decodeTwin hloaded _ _).bind fun w p' r' _ hr' => .done () ?_
  obtain ⟨m', rfl, hm', hword'⟩ := hr'.exists_eq
  exact DecodeTwin.storeGroup (s := { p' with hidden := { p'.hidden with window := BitVec.ofNat 128 w } })
    ⟨rfl, hm', hword'⟩

theorem groupLoop_decodeTwin (k : Nat) :
    Run.Alike (DecodeTwin f q) (DecodeTwin f q) (groupLoop k s) (groupLoop k t) := by
  induction k generalizing s t with
  | zero => exact .done () h
  | succ k ih =>
    have hguard : vecGuard t = vecGuard s := by rw [h.eq]; rfl
    rw [groupLoop, groupLoop, hguard]
    exact .ite Iff.rfl (fun _ => (groupStep_decodeTwin h).bind fun _ _ _ _ hr => ih hr)
      fun _ => .done () h

end

/-- Decodes that start in step stay in step to their ends, under either engine. -/
theorem decodeCommand_decodeTwin {f : Word → Word} {q : Prop} {s t : State}
    (h : DecodeTwin f q (startDecode s) (startDecode t)) :
    Run.Alike (DecodeTwin f q) (DecodeTwin f q) (decodeCommand s) (decodeCommand t) := by
  have hvec : (startDecode t).hidden.vec = (startDecode s).hidden.vec := by rw [h.eq]; rfl
  have hn : (startDecode t).n = (startDecode s).n := by rw [h.eq]; rfl
  rw [startDecode_hidden_vec, startDecode_hidden_vec] at hvec
  rw [startDecode_n, startDecode_n] at hn
  rw [decodeCommand, decodeCommand, hvec, vecDecode, vecDecode, hn]
  exact .ite Iff.rfl
    (fun _ => (groupLoop_decodeTwin h _).bind fun _ _ _ _ hr => scalarDecodeFrom_decodeTwin hr)
    fun _ => scalarDecodeFrom_decodeTwin h

end Sys2Proof.Machine
end

section
/-! PROOFS. Family other: what no command depends on: the hidden state at issue (10_state.md R22), `PREV`
without delta (R14), the contents of the destination space (20_memory.md R37). -/

namespace Sys2Proof.Machine

open Sys2Proof.Safety

/-! ### Two runs of one command -/

theorem exec_of_issuable (i : Instr) {s : State} (hs : Issuable s) :
    exec i s = finish (runCommand (encode i) { s with status := Status.issued s.status }) :=
  (exec_eq_execCode i s).trans (execCode_of_issuable hs)

theorem Run.Alike.imp {α : Type} {E E' D D' : State → State → Prop} {r r' : Run α}
    (h : Run.Alike E D r r') (hE : ∀ s t, E s t → E' s t) (hD : ∀ s t, D s t → D' s t) :
    Run.Alike E' D' r r' := by
  cases h with
  | done a h => exact .done a (hD _ _ h)
  | raised c info h => exact .raised c info (hE _ _ h)

theorem Run.Alike.exists_finish {E D O : State → State → Prop} {r r' : Run Unit}
    (h : Run.Alike E D r r') (hdone : ∀ t u, D t u → O (complete t) (complete u))
    (hraised : ∀ c info t u, E t u → O (raiseFault c info t) (raiseFault c info u)) :
    ∃ t u, Machine.finish r = .next t ∧ Machine.finish r' = .next u ∧ O t u := by
  cases h with
  | done _ h => exact ⟨_, _, rfl, rfl, hdone _ _ h⟩
  | raised c info h => exact ⟨_, _, rfl, rfl, hraised c info _ _ h⟩

/-- A command that completes passed the checks of every command. -/
theorem admitted_of_completed {i : Instr} {s t : State} (hs : Issuable s) (h : exec i s = .next t)
    (ht : Completed t) : Admitted s := by
  refine ⟨hs, Nat.not_lt.1 fun hn => ?_⟩
  cases (exec_of_nMax_lt i hs hn).symm.trans h
  exact not_completed_raiseFault _ _ _ ht

/-- One command on two states whose checks at issue are the same: it is ignored on both, or turned away as
illegal on both, or its two runs are alike. -/
theorem exec_alike (i : Instr) {E D O : State → State → Prop} {s s' : State}
    (hstatus : s'.status = s.status) (hn : s'.n = s.n) (hcfg : s'.cfg = s.cfg)
    (hfault : ¬ Issuable s → O s s')
    (hillegal : O (Wire.issueFault .illegalCommand (encode i).toNat s)
      (Wire.issueFault .illegalCommand (encode i).toNat s'))
    (hbody : s.n.toNat ≤ s.cfg.nMax →
      Run.Alike E D (runCommand (encode i) { s with status := Status.issued s.status })
        (runCommand (encode i) { s' with status := Status.issued s'.status }))
    (hdone : ∀ t u, D t u → O (complete t) (complete u))
    (hraised : ∀ c info t u, E t u → O (raiseFault c info t) (raiseFault c info u)) :
    ∃ t u, exec i s = .next t ∧ exec i s' = .next u ∧ O t u := by
  by_cases hs : Issuable s
  · have hs' : Issuable s' := by rwa [Issuable, hstatus]
    rcases Nat.lt_or_ge s.cfg.nMax s.n.toNat with hlt | hle
    · have hlt' : s'.cfg.nMax < s'.n.toNat := by rwa [hcfg, hn]
      rw [exec_of_nMax_lt i hs hlt, exec_of_nMax_lt i hs' hlt',
        raiseFault_illegalCommand_at_issue, raiseFault_illegalCommand_at_issue]
      exact ⟨_, _, rfl, rfl, hillegal⟩
    · rw [exec_of_issuable i hs, exec_of_issuable i hs']
      exact (hbody hle).exists_finish hdone hraised
  · have hs' : ¬ Issuable s' := by rwa [Issuable, hstatus]
    exact ⟨s, s', exec_of_fault i hs, exec_of_fault i hs', hfault hs⟩

/-- The contract check decides alike on both; then the encodes stay in step. -/
theorem encodeCommand_alike {E : State → State → Prop} {x : EncodeSpare} {q : Prop} {s t : State}
    (hcfg : t.cfg = s.cfg) (hissue : E s t)
    (hstart : EncodeTwin x q (startEncode s) (startEncode t))
    (hE : ∀ p r, EncodeTwin x q p r → E p r) :
    Run.Alike E (EncodeTwin x q) (encodeCommand s) (encodeCommand t) := by
  have hn : (startEncode t).n = (startEncode s).n := by rw [hstart.eq]; rfl
  have hlen : (startEncode t).encLen = (startEncode s).encLen := by rw [hstart.eq]; rfl
  rw [startEncode_n, startEncode_n] at hn
  rw [startEncode_encLen, startEncode_encLen] at hlen
  rw [encodeCommand, encodeCommand, hcfg, hn, hlen]
  exact .ite Iff.rfl (fun _ => .raised _ _ hissue)
    fun _ => (encodeSeq_encodeTwin hstart).imp hE fun _ _ h => h

section
variable {zig delta : Bool} {E D : State → State → Prop} {s t : State} (hadm : s.n.toNat ≤ s.cfg.nMax)
  (hn : t.n = s.n) (hcfg : t.cfg = s.cfg)
include hadm hn hcfg

theorem runCommand_encoder_twin {x : EncodeSpare} {q : Prop}
    (hissue : E (latchOptions (encode (.encoder zig delta)) s)
      (latchOptions (encode (.encoder zig delta)) t))
    (hstart : EncodeTwin x q (startEncode (latchOptions (encode (.encoder zig delta)) s))
      (startEncode (latchOptions (encode (.encoder zig delta)) t)))
    (hE : ∀ p r, EncodeTwin x q p r → E p r) (hD : ∀ p r, EncodeTwin x q p r → D p r) :
    Run.Alike E D (runCommand (encode (.encoder zig delta)) s)
      (runCommand (encode (.encoder zig delta)) t) := by
  rw [runCommand_encoder hadm, runCommand_encoder (s := t) (by rwa [hn, hcfg])]
  exact (encodeCommand_alike (s := latchOptions (encode (.encoder zig delta)) s)
    (t := latchOptions (encode (.encoder zig delta)) t) hcfg hissue hstart hE).imp (fun _ _ h => h) hD

theorem runCommand_decoder_twin
    (hbody : Run.Alike E D (decodeCommand (latchOptions (encode (.decoder zig delta)) s))
      (decodeCommand (latchOptions (encode (.decoder zig delta)) t))) :
    Run.Alike E D (runCommand (encode (.decoder zig delta)) s)
      (runCommand (encode (.decoder zig delta)) t) := by
  rw [runCommand_decoder hadm, runCommand_decoder (s := t) (by rwa [hn, hcfg])]
  exact hbody

theorem runCommand_size_twin
    (hbody : D { latchOptions (encode .size) s with
        result := BitVec.ofNat 35 (maxEncodedSize s.n.toNat) }
      { latchOptions (encode .size) t with
        result := BitVec.ofNat 35 (maxEncodedSize t.n.toNat) }) :
    Run.Alike E D (runCommand (encode .size) s) (runCommand (encode .size) t) := by
  rw [runCommand_size hadm, runCommand_size (s := t) (by rwa [hn, hcfg])]
  exact .done () hbody

end

/-! ### The hidden state at issue -/

/-- `r` is `p` but for `PREV` and the hidden state, with the same direction: a fault in one leaves what it
leaves in the other, but for the hidden state. -/
def FaultTwin (p r : State) : Prop :=
  r = { p with prev := r.prev, hidden := r.hidden } ∧ r.hidden.dir = p.hidden.dir

theorem FaultTwin.exists_eq {p r : State} (h : FaultTwin p r) :
    ∃ v g, r = { p with prev := v, hidden := g } ∧ g.dir = p.hidden.dir :=
  ⟨_, _, h.1, h.2⟩

theorem FaultTwin.raiseFault {p r : State} (h : FaultTwin p r) (c : Cause) (info : Nat) :
    Machine.raiseFault c info r = { Machine.raiseFault c info p with hidden := r.hidden } := by
  obtain ⟨v, g, rfl, hdir⟩ := h.exists_eq
  cases c with
  | illegalCommand | contractCheck => rfl
  | encBounds =>
    unfold Machine.raiseFault faultedSpaces
    dsimp only
    rw [hdir]
    cases p.hidden.dir <;> rfl

theorem EncodeTwin.faultTwin {x : EncodeSpare} {p r : State} (h : EncodeTwin x True p r) :
    FaultTwin p r := by
  obtain ⟨m, rfl, hm, -⟩ := h.exists_eq
  obtain rfl := hm trivial
  exact ⟨rfl, rfl⟩

theorem DecodeTwin.faultTwin {f : Word → Word} {p r : State} (h : DecodeTwin f True p r) :
    FaultTwin p r := by
  obtain ⟨m, rfl, hm, -⟩ := h.exists_eq
  obtain rfl := hm trivial
  exact ⟨rfl, rfl⟩

theorem Run.SameEnd.symm {r r' : Run Unit} (h : Run.SameEnd r r') : Run.SameEnd r' r := by
  have hsymm : ∀ s t : State, Wire.SameButHidden s t → Wire.SameButHidden t s := fun s t hst => by
    rw [Wire.SameButHidden, hst]
  cases h with
  | done a h => exact .done a (hsymm _ _ h)
  | raised c info h => exact .raised c info (hsymm _ _ h)

/-- Decodes that start alike for the scalar engine end alike, whichever engines they take. -/
theorem decodeCommand_alike_of_scalarSame {s t : State}
    (h : ScalarSame ctlByte (startDecode t) (startDecode s)) :
    Run.Alike FaultTwin (fun p r => Wire.SameButHidden r p) (decodeCommand s) (decodeCommand t) := by
  have hdir : t.hidden.dir = s.hidden.dir := by
    rw [← startDecode_hidden_dir t, h.eq]
    rfl
  have hend : Run.SameEnd (decodeCommand t) (decodeCommand s) :=
    (decodeCommand_sameEnd t).trans ((scalarDecodeFrom_scalarSame h).trans (decodeCommand_sameEnd s).symm)
  generalize hs : decodeCommand s = r, ht : decodeCommand t = r' at hend
  cases hend with
  | done a hsame => exact .done a hsame
  | raised c info hsame =>
    refine .raised c info ⟨by rw [hsame], ?_⟩
    rw [decodeCommand_raised_dir ht, decodeCommand_raised_dir hs, hdir]

/-- The registers of the decode as `h` has them. -/
def EncodeSpare.hiddenAs (h : Hidden) : EncodeSpare :=
  { word := id, cb := fun _ => h.cb, window := fun _ => h.window, lanes := fun _ => h.lanes }

/-- However the hidden state differs at issue, the runs of a command are alike. -/
theorem runCommand_hidden_alike (i : Instr) {s : State} (h : Hidden) (hn : s.n.toNat ≤ s.cfg.nMax) :
    Run.Alike FaultTwin (fun p r => Wire.SameButHidden r p) (runCommand (encode i) s)
      (runCommand (encode i) { s with hidden := h }) := by
  rcases Instr.cases_by_kind i with ⟨zig, delta, rfl⟩ | ⟨zig, delta, rfl⟩ | rfl
  · refine runCommand_encoder_twin (x := .hiddenAs h) (q := True) hn rfl rfl ⟨rfl, rfl⟩
      ⟨rfl, fun _ => rfl, fun _ => rfl⟩ (fun _ _ => EncodeTwin.faultTwin) fun p r htwin => ?_
    obtain ⟨m, rfl, hm, -⟩ := htwin.exists_eq
    obtain rfl := hm trivial
    rfl
  · exact runCommand_decoder_twin hn rfl rfl (decodeCommand_alike_of_scalarSame ⟨rfl, rfl⟩)
  · exact runCommand_size_twin hn rfl rfl rfl

/-- Settles O23: an encode sets what it reads when it starts, a decode too, less the control byte, which it
fetches; a fault reads the latched direction. -/
theorem hiddenStateIsSetBeforeItIsRead : Obligations.HiddenStateIsSetBeforeItIsRead := by
  unfold Obligations.HiddenStateIsSetBeforeItIsRead
  intro i s h
  refine exec_alike i (O := fun t u => Wire.SameButHidden u t) rfl rfl rfl (fun _ => rfl) rfl
    (runCommand_hidden_alike i (s := { s with status := Status.issued s.status }) h)
    (fun t u hsame => ?_) fun c info t u htwin => ?_
  · rw [hsame]; rfl
  · rw [htwin.raiseFault]

/-! ### An encode and ENC -/

/-- An encode that completes was admitted and had room. -/
theorem exec_encoder_room_of_completed {zig delta : Bool} {s t : State} (hs : Issuable s)
    (h : exec (.encoder zig delta) s = .next t) (ht : Completed t) :
    EncodeAdmitted s ∧ Wire.encodedSize zig delta s ≤ s.encLen.toNat := by
  have hadm := admitted_of_completed hs h ht
  have hcontract : EncodeAdmitted s := ⟨hadm, fun hstrict => Nat.not_lt.1 fun hshort => by
    cases (exec_encoder_of_short hadm hstrict hshort).symm.trans h
    exact not_completed_issueFault _ _ _ _ ht⟩
  obtain ⟨u, hu, hiff⟩ := exec_encoder_completed_iff (zig := zig) (delta := delta) hcontract
  cases hu.symm.trans h
  exact ⟨hcontract, hiff.1 ht⟩

/-- An encode leaves VAL alone, however it ends. -/
theorem exec_encoder_val {zig delta : Bool} {s t : State}
    (h : exec (.encoder zig delta) s = .next t) : t.val = s.val := by
  by_cases hs : Issuable s
  · rcases exec_cases (.encoder zig delta) hs with ⟨u, hu⟩ | ⟨c, info, u, hraised, hu⟩
    · cases hu.symm.trans h
      obtain ⟨hadm, hroom⟩ := exec_encoder_room_of_completed hs h (completed_complete u)
      obtain ⟨w, hw, hexec⟩ := exec_encoder_of_room hadm hroom
      rw [Host.Outcome.next.inj (h.symm.trans hexec), complete_val, encodeSeq_frame hw, atIssue_val]
    · cases hu.symm.trans h
      by_cases hc : c = .encBounds
      · subst hc; exact hraised.encode_spaces.1
      · exact (hraised.spaces_at_issue hc).2
  · cases (exec_of_fault _ hs).symm.trans h
    rfl

/-- An offset behind the control bytes of an encoding is within an element. -/
theorem exists_element_of_lt {zig delta : Bool} {val : Nat → Word} {prev : Word} {n i a : Nat}
    (hlow : ceil4 n ≤ a) (hhigh : a < Wire.encodedOffset zig delta val prev n i) :
    ∃ j < i, ∃ k < width (Wire.toStore zig delta val prev j),
      a = Wire.encodedOffset zig delta val prev n j + k := by
  induction i with
  | zero => exact absurd hlow (Nat.not_le.2 hhigh)
  | succ i ih =>
    rcases Nat.lt_or_ge a (Wire.encodedOffset zig delta val prev n i) with hlt | hge
    · obtain ⟨j, hj, hk⟩ := ih hlt
      exact ⟨j, hj.trans (Nat.lt_succ_self i), hk⟩
    · rw [Wire.encodedOffset] at hhigh
      exact ⟨i, Nat.lt_succ_self i, a - Wire.encodedOffset zig delta val prev n i, by omega, by omega⟩

/-- The bytes of an encoding are those of the wire format, whatever ENC held. -/
theorem exec_encoder_read_congr {zig delta : Bool} {s t u : State} {other : List Host.Cell}
    (hs : EncodeAdmitted s) (hroom : Wire.encodedSize zig delta s ≤ s.encLen.toNat)
    (ht : exec (.encoder zig delta) s = .next t)
    (hu : exec (.encoder zig delta) { s with enc := other } = .next u) {a : Nat}
    (ha : a < t.result.toNat) : Memory.read u.enc a = Memory.read t.enc a := by
  obtain ⟨t', ht', -, hsize, -, helem, hctl, -⟩ := encodeWritesTheWireFormat zig delta s hs hroom
  obtain ⟨u', hu', -, -, -, helem', hctl', -⟩ :=
    encodeWritesTheWireFormat zig delta { s with enc := other } hs hroom
  cases ht.symm.trans ht'
  cases hu.symm.trans hu'
  rw [hsize] at ha
  rcases Nat.lt_or_ge a (ceil4 s.n.toNat) with hlt | hge
  · exact BitVec.eq_of_toNat_eq ((hctl' a hlt).trans (hctl a hlt).symm)
  · obtain ⟨j, hj, k, hk, rfl⟩ := exists_element_of_lt hge ha
    exact (helem' j hj k hk).trans (helem j hj k hk).symm

/-- The change that is none. -/
def EncodeSpare.unchanged : EncodeSpare := { word := id, cb := id, window := id, lanes := id }

theorem EncodeTwin.eq_of_unchanged {q : Prop} {p r : State} (h : EncodeTwin .unchanged q p r) :
    r = { p with enc := r.enc } :=
  h.eq

theorem raiseFault_enc (c : Cause) (info : Nat) (m : List Host.Cell) (s : State) :
    raiseFault c info { s with enc := m } =
      { raiseFault c info s with enc := (raiseFault c info { s with enc := m }).enc } := by
  cases c with
  | illegalCommand | contractCheck => rfl
  | encBounds =>
    unfold raiseFault faultedSpaces
    cases s.hidden.dir <;> rfl

/-- Settles O26: an encode on other ENC contents stays in step with the encode, and the bytes both leave
below `RESULT` are those of the wire format. -/
theorem encodeDoesNotReadEnc : Obligations.EncodeDoesNotReadEnc := by
  unfold Obligations.EncodeDoesNotReadEnc
  intro zig delta s other
  obtain ⟨t, u, ht, hu, hsame⟩ := exec_alike (.encoder zig delta)
    (E := fun p r => r = { p with enc := r.enc }) (D := EncodeTwin .unchanged False)
    (O := fun t u => u = { t with enc := u.enc }) (s := s) (s' := { s with enc := other })
    rfl rfl rfl (fun _ => rfl) rfl
    (fun hn => runCommand_encoder_twin hn rfl rfl rfl ⟨rfl, nofun, fun _ => rfl⟩
      (fun _ _ => EncodeTwin.eq_of_unchanged) fun _ _ h => h)
    (fun t u htwin => by rw [htwin.eq_of_unchanged]; rfl)
    fun c info t u hr => by rw [hr]; exact raiseFault_enc c info u.enc t
  refine ⟨t, u, ht, hu, hsame, exec_encoder_val ht, fun hdone hs a ha => ?_⟩
  obtain ⟨hadm, hroom⟩ := exec_encoder_room_of_completed hs ht hdone
  exact exec_encoder_read_congr hadm hroom ht hu ha

/-! ### A decode and VAL -/

/-- A decode that completes was admitted and had its bytes. -/
theorem exec_decoder_room_of_completed {zig delta : Bool} {s t : State} (hs : Issuable s)
    (h : exec (.decoder zig delta) s = .next t) (ht : Completed t) :
    Admitted s ∧ Wire.decodedSize s ≤ s.encLen.toNat := by
  have hadm := admitted_of_completed hs h ht
  refine ⟨hadm, Nat.not_lt.1 fun hshort => ?_⟩
  obtain ⟨u, hu, hfault, -⟩ := exec_decoder_of_short (zig := zig) (delta := delta) hadm hshort
  cases hu.symm.trans h
  cases hfault.symm.trans ht.1

/-- A decode leaves ENC alone, however it ends. -/
theorem exec_decoder_enc {zig delta : Bool} {s t : State}
    (h : exec (.decoder zig delta) s = .next t) : t.enc = s.enc := by
  by_cases hs : Issuable s
  · rcases exec_cases (.decoder zig delta) hs with ⟨u, hu⟩ | ⟨c, info, u, hraised, hu⟩
    · cases hu.symm.trans h
      obtain ⟨hadm, hroom⟩ := exec_decoder_room_of_completed hs h (completed_complete u)
      obtain ⟨g, hg⟩ := exec_decoder_eq_decodedState (zig := zig) (delta := delta) hadm hroom
      rw [Host.Outcome.next.inj (h.symm.trans hg)]
      rfl
    · cases hu.symm.trans h
      by_cases hc : c = .encBounds
      · subst hc; exact hraised.decode_spaces.1
      · exact (hraised.spaces_at_issue hc).1
  · cases (exec_of_fault _ hs).symm.trans h
    rfl

theorem raiseFault_val (c : Cause) (info : Nat) (m : List (Nat × Word)) (s : State) :
    raiseFault c info { s with val := m } =
      { raiseFault c info s with val := (raiseFault c info { s with val := m }).val } := by
  cases c with
  | illegalCommand | contractCheck => rfl
  | encBounds =>
    unfold raiseFault faultedSpaces
    cases s.hidden.dir <;> rfl

theorem DecodeTwin.eq_of_id {q : Prop} {p r : State} (h : DecodeTwin id q p r) :
    r = { p with val := r.val } :=
  h.eq

/-- Settles O27: a decode on other VAL contents stays in step with the decode, and the values both leave
below `N` are those of the wire format. -/
theorem decodeDoesNotReadVal : Obligations.DecodeDoesNotReadVal := by
  unfold Obligations.DecodeDoesNotReadVal
  intro zig delta s other
  obtain ⟨t, u, ht, hu, hsame⟩ := exec_alike (.decoder zig delta)
    (E := DecodeTwin id False) (D := DecodeTwin id False)
    (O := fun t u => u = { t with val := u.val }) (s := s) (s' := { s with val := other })
    rfl rfl rfl (fun _ => rfl) rfl
    (fun hn => runCommand_decoder_twin hn rfl rfl
      (decodeCommand_decodeTwin ⟨rfl, nofun, fun _ => rfl⟩))
    (fun t u htwin => by rw [htwin.eq_of_id]; rfl)
    fun c info t u htwin => by rw [htwin.eq_of_id]; exact raiseFault_val c info u.val t
  refine ⟨t, u, ht, hu, hsame, exec_decoder_enc ht, fun hdone hs i hi => ?_⟩
  obtain ⟨hadm, hroom⟩ := exec_decoder_room_of_completed hs ht hdone
  obtain ⟨t', ht', -, -, -, hval, -⟩ := decodeReadsTheWireFormat zig delta s hadm hroom
  obtain ⟨u', hu', -, -, -, hval', -⟩ :=
    decodeReadsTheWireFormat zig delta { s with val := other } hadm hroom
  cases ht.symm.trans ht'
  cases hu.symm.trans hu'
  exact (hval' i hi).trans (hval i hi).symm

/-! ### `PREV` -/

theorem lastValue_eq (val : Nat → Word) (prev : Word) (n : Nat) :
    Wire.lastValue val prev n = if n = 0 then prev else val (n - 1) := by
  cases n <;> rfl

/-- What an encode that completes leaves in `PREV`. -/
theorem exec_encoder_prev {zig delta : Bool} {s t : State} (hs : Issuable s)
    (h : exec (.encoder zig delta) s = .next t) (ht : Completed t) :
    t.prev = if delta then if s.n.toNat = 0 then s.prev else Memory.read t.val (s.n.toNat - 1)
      else s.prev := by
  obtain ⟨hadm, hroom⟩ := exec_encoder_room_of_completed hs h ht
  obtain ⟨t', ht', -, -, hprev, -⟩ := encodeWritesTheWireFormat zig delta s hadm hroom
  cases h.symm.trans ht'
  rw [hprev, lastValue_eq, exec_encoder_val h]

/-- What a decode that completes leaves in `PREV`. -/
theorem exec_decoder_prev {zig delta : Bool} {s t : State} (hs : Issuable s)
    (h : exec (.decoder zig delta) s = .next t) (ht : Completed t) :
    t.prev = if delta then if s.n.toNat = 0 then s.prev else Memory.read t.val (s.n.toNat - 1)
      else s.prev := by
  obtain ⟨hadm, hroom⟩ := exec_decoder_room_of_completed hs h ht
  obtain ⟨t', ht', -, -, hprev, hval, -⟩ := decodeReadsTheWireFormat zig delta s hadm hroom
  cases h.symm.trans ht'
  rw [hprev, lastValue_eq]
  by_cases hn : s.n.toNat = 0
  · rw [if_pos hn, if_pos hn]
  · rw [if_neg hn, if_neg hn, hval _ (Nat.sub_one_lt hn)]

/-- A command that has no delta. -/
def NoDelta (i : Instr) : Prop :=
  (∃ zig, i = .encoder zig false) ∨ (∃ zig, i = .decoder zig false) ∨ i = .size

theorem NoDelta.prev {i : Instr} {s t : State} (hi : NoDelta i) (hs : Issuable s)
    (h : exec i s = .next t) (ht : Completed t) : t.prev = s.prev := by
  rcases hi with ⟨zig, rfl⟩ | ⟨zig, rfl⟩ | rfl
  · exact exec_encoder_prev hs h ht
  · exact exec_decoder_prev hs h ht
  · rw [exec_size_of_admitted (admitted_of_completed hs h ht)] at h
    cases h
    rfl

/-- `r` is `p` with `PREV` at `v`, but for the hidden state. -/
def PrevTwin (v : Word) (p r : State) : Prop := r = { p with prev := v, hidden := r.hidden }

theorem DecodeTwin.prevTwin {v : Word} {p r : State} (h : DecodeTwin (fun _ => v) True p r) :
    PrevTwin v p r := by
  obtain ⟨m, rfl, hm, -⟩ := h.exists_eq
  obtain rfl := hm trivial
  rfl

/-- Without delta the runs from two values of `PREV` are alike. -/
theorem NoDelta.runCommand_alike {i : Instr} (hi : NoDelta i) {s : State} (v : Word)
    (hn : s.n.toNat ≤ s.cfg.nMax) :
    Run.Alike FaultTwin (PrevTwin v) (runCommand (encode i) s)
      (runCommand (encode i) { s with prev := v }) := by
  rcases hi with ⟨zig, rfl⟩ | ⟨zig, rfl⟩ | rfl
  · have hdelta : CommandWord.delta (encode (.encoder zig false)) ≠ true := by cases zig <;> decide
    refine runCommand_encoder_twin (x := { EncodeSpare.unchanged with word := fun _ => v }) (q := True)
      hn rfl rfl ⟨rfl, rfl⟩ ⟨rfl, fun _ => rfl, fun hd => absurd hd hdelta⟩
      (fun _ _ => EncodeTwin.faultTwin) fun p r htwin => ?_
    obtain ⟨m, rfl, hm, -⟩ := htwin.exists_eq
    obtain rfl := hm trivial
    rfl
  · have hdelta : CommandWord.delta (encode (.decoder zig false)) ≠ true := by cases zig <;> decide
    have htwins := decodeCommand_decodeTwin (f := fun _ => v) (q := True)
      (s := latchOptions (encode (.decoder zig false)) s)
      (t := latchOptions (encode (.decoder zig false)) { s with prev := v })
      ⟨rfl, fun _ => rfl, fun hd => absurd hd hdelta⟩
    exact runCommand_decoder_twin hn rfl rfl
      (htwins.imp (fun _ _ => DecodeTwin.faultTwin) fun _ _ => DecodeTwin.prevTwin)
  · exact runCommand_size_twin hn rfl rfl rfl

/-- Without delta a command from another `PREV` ends the same but for the hidden state and, if it
completes, for `PREV`. -/
theorem NoDelta.exec_alike {i : Instr} (hi : NoDelta i) {s t : State} (v : Word) (hs : Issuable s)
    (h : exec i s = .next t) :
    (Completed t → ∃ g, exec i { s with prev := v } = .next { t with prev := v, hidden := g }) ∧
    (¬ Completed t → ∃ g, exec i { s with prev := v } = .next { t with hidden := g }) := by
  obtain ⟨t', u, ht', hu, hdone, hfault⟩ := Machine.exec_alike i (s := s) (s' := { s with prev := v })
    (O := fun t u => (Completed t → ∃ g, u = { t with prev := v, hidden := g }) ∧
      (¬ Completed t → ∃ g, u = { t with hidden := g }))
    rfl rfl rfl (fun hfault => absurd hs hfault)
    ⟨fun hdone => absurd hdone (not_completed_issueFault _ _ s s.hidden), fun _ => ⟨s.hidden, rfl⟩⟩
    (hi.runCommand_alike (s := { s with status := Status.issued s.status }) v)
    (fun p r htwin => ⟨fun _ => ⟨r.hidden, by rw [htwin]; rfl⟩,
      fun hfail => absurd (completed_complete p) hfail⟩)
    fun c info p r htwin => ⟨fun hdone => absurd hdone (not_completed_raiseFault c info p),
      fun _ => ⟨r.hidden, htwin.raiseFault c info⟩⟩
  cases h.symm.trans ht'
  refine ⟨fun hc => ?_, fun hc => ?_⟩
  · obtain ⟨g, rfl⟩ := hdone hc
    exact ⟨g, hu⟩
  · obtain ⟨g, rfl⟩ := hfault hc
    exact ⟨g, hu⟩

/-- Settles O25: with delta `PREV` takes the carry, which is the last value; without delta the carry is
not read and `PREV` not written; a fault frees it. -/
theorem carryRegister : Obligations.CarryRegister := by
  unfold Obligations.CarryRegister
  refine ⟨fun i s t hi hs h ht => ?_, fun i s t v hi hs h => ?_, fun i s t hs h ht => ?_⟩
  · rcases hi with rfl | rfl | rfl | rfl
    · exact exec_encoder_prev (zig := false) (delta := true) hs h ht
    · exact exec_decoder_prev (zig := false) (delta := true) hs h ht
    · exact exec_encoder_prev (zig := true) (delta := true) hs h ht
    · exact exec_decoder_prev (zig := true) (delta := true) hs h ht
  · have hno : NoDelta i := by
      rcases hi with rfl | rfl | rfl | rfl | rfl
      · exact .inl ⟨false, rfl⟩
      · exact .inr (.inl ⟨false, rfl⟩)
      · exact .inl ⟨true, rfl⟩
      · exact .inr (.inl ⟨true, rfl⟩)
      · exact .inr (.inr rfl)
    obtain ⟨hdone, hfault⟩ := hno.exec_alike v hs h
    exact ⟨fun ht => ⟨hno.prev hs h ht, hdone ht⟩, hfault⟩
  · obtain ⟨c, info, u, hraised, hu⟩ := exec_eq_fault hs h ht
    rw [hraised.frame hu]

end Sys2Proof.Machine
end
